-- ==== Sys2Proof/Word.lean ====
section
/-! DEFINITION. The word types of the pyny protocol framer: unsigned values of 8, 16, 32 and 33 bits and byte
sequences (spec/00_scope.md R16, R17: "all values are unsigned, the block has no signed quantity"). -/

namespace Sys2Proof

/-- A u8 (R16). -/
abbrev Byte := BitVec 8
/-- A u16 (R16). -/
abbrev U16 := BitVec 16
/-- A u32 (R16). -/
abbrev U32 := BitVec 32
/-- A u33, the width of `CNT` (R22, R25). -/
abbrev U33 := BitVec 33
/-- A byte sequence, first byte first (R17); texts are byte sequences of ASCII codes. -/
abbrev Bytes := List Byte

end Sys2Proof
end

