-- ==== Sys2Proof/Config.lean ====
section
/-! DEFINITION. The parameters of the block (spec/00_scope.md R9): the widths the source gives, the constants, and, as
`opaque` constants with no body, the ones the spec leaves OPEN. -/

namespace Sys2Proof

/-- The two readings of the empty cipher key the spec keeps (R9, R133). -/
inductive EmptyKeyRule where
  | identity
  | ksaZeroByte
deriving DecidableEq, Repr

namespace Config

/-- `FILE_DATA_MAX` (R9). -/
def fileDataMax : Nat := 65536
/-- `CDR_KEYWORD_W` (R9). -/
def cdrKeywordW : Nat := 255
/-- `CDR_SIGN_W` (R9). -/
def cdrSignW : Nat := 17
/-- `QUERY_SIGN_W` (R9). -/
def querySignW : Nat := 11
/-- `HASH_W` (R9). -/
def hashW : Nat := 16
/-- `KI_SIG_W` (R9). -/
def kiSigW : Nat := 11
/-- `TOKEN_MIN` (R9). -/
def tokenMin : Nat := 20

/-- `TOKEN_CONST[1..13)`, the ASCII text `piewf6ascxlv` (R250). `TOKEN_CONST[0]` has no value and no rule reads it.
PRESUMED by the spec (general knowledge, its D8), confirmed there by the golden token: log entry 13. -/
def tokenSuffix : Bytes := [0x70, 0x69, 0x65, 0x77, 0x66, 0x36, 0x61, 0x73, 0x63, 0x78, 0x6c, 0x76]

/-- `EMPTY_KEY_RULE`: "This hardware takes `identity`" (R133); the other reading stays available to
`Machine.keyScheduleWith`. Log entry 14. -/
def emptyKeyRule : EmptyKeyRule := .identity

/-- `RX_STICKY` (R9, R283): a receive decode error latches RXDEAD. -/
def rxSticky : Bool := true

/-- `PH_KEY`, the fixed ProtocolHeader key, OPEN in the spec (R9, R138): no proof can know its bytes. Log entry 8. -/
opaque phKey : Bytes

/-- `IBUF_MAX` beyond its least legal value 5, or `none` for an unbounded buffer; OPEN in the spec (R9). Log entry 9. -/
opaque ibufExtra : Option Nat

/-- `KEY_MAX` beyond its least legal value 13, or `none` for unbounded; OPEN in the spec (R9). Log entry 9. -/
opaque keyExtra : Option Nat

/-- `n` is within the capacity `least + extra`, without consulting the open parameter when `n` is at most the least
legal capacity. -/
def withinCapacity (least : Nat) (extra : Option Nat) (n : Nat) : Bool :=
  if n ≤ least then true
  else match extra with
    | none => true
    | some e => decide (n ≤ least + e)

/-- `n <= IBUF_MAX` (R150); `IBUF_MAX` is any value of 5 or more, or unbounded (R9). -/
def ibufFits (n : Nat) : Bool := withinCapacity 5 ibufExtra n

/-- `n <= KEY_MAX` (R131); `KEY_MAX` is any value of 13 or more, or unbounded (R9). -/
def keyFits (n : Nat) : Bool := withinCapacity 13 keyExtra n

end Config
end Sys2Proof
end

