-- ==== Sys2Proof/Syntax.lean ====
section
/-! DEFINITION. Syntax of the block: the decoded Command values (R86), the eighteen wire variants (R78), the
twenty-four host operations (R90), the ONE instruction type `Instr` with a constructor per row of
spec/opcode_table.json, and the two shapes an instruction is presented in (`Code`): a frame in IBUF, or a host
request (`OPSEL` with its operands). -/

namespace Sys2Proof

/-- A cipher-context selector: 0 = RX, the inbound direction, 1 = TX, the outbound one (R34, R90). -/
inductive Dir where
  | rx
  | tx
deriving DecidableEq, Repr

/-- The three connection kinds, Search = 0, Transfer = 1, BbsSearch = 2 (R78, R175). -/
inductive LinkType where
  | search
  | transfer
  | bbsSearch
deriving DecidableEq, Repr

/-- A four-octet network address in textual order, `a.b.c.d` (R51, R77, R86). -/
structure Addr where
  a : Byte
  b : Byte
  c : Byte
  d : Byte
deriving DecidableEq, Repr

/-- A relay hop recorded in a Query (R77, R222). -/
structure ViaNode where
  addr : Addr
  port : U16
deriving DecidableEq, Repr

/-- The KeyInfo record, as decoded and as given to the encoder (R224). `nameSum` is the received checksum on decode
and is ignored by the encoder (R227, R228). -/
structure KeyInfo where
  sharingAddr : Addr
  sharingPort : U16
  bbsAddr     : Addr
  bbsPort     : U16
  fileSize    : U32
  fileHash    : Bytes
  name        : Bytes
  nameSum     : U16
  sharingSig  : Bytes
  bbsSig      : Bytes
  ttl         : U16
  blockSize   : U32
  mtime       : U32
  ignore      : Bool
  version     : Byte
deriving DecidableEq, Repr

/-- The eighteen documented wire variants (R78). -/
inductive Variant where
  | protocolHeader
  | speed
  | connectionType
  | nodeDetails
  | anotherNode
  | bbsPort
  | diffusionRequest
  | fileRequest
  | conditionalDiffusionRequest
  | query
  | fileResponse
  | close
  | connectedLimitation
  | wrongListeningPort
  | reject
  | slow
  | liar
  | lowVersion
deriving DecidableEq, Repr

/-- A decoded (or to-be-encoded) Command: a tagged union with one variant per row of R78 (R86). -/
inductive Command where
  | protocolHeader (minorVersion : U32) (majorVersion : Bytes)
  | speed (speed : U32)
  | connectionType (linkType : LinkType) (isPort0 isBadPort0 isBbslink : Bool)
  | nodeDetails (addr : Addr) (port : U32) (host word0 word1 word2 : Bytes)
  | anotherNode (addr : Addr) (sharingPort bbsPort : U32) (isBbsNode : Bool) (speed : U32) (word0 word1 word2 : Bytes)
  | bbsPort (port : U32)
  | diffusionRequest
  | fileRequest (taskId blockBegin blockSize : U32) (hash : Bytes) (fileSize : U32)
  | conditionalDiffusionRequest (keyword sign : Bytes) (queryId : U32)
  | query (isResponse isDiffusion isDownstream isBbs : Bool) (queryId : U32) (keyword sign : Bytes)
      (via : List ViaNode) (keys : List KeyInfo)
  | fileResponse (taskId blockBegin : U32) (hash fileData : Bytes)
  | close
  | connectedLimitation
  | wrongListeningPort
  | reject
  | slow
  | liar
  | lowVersion
deriving DecidableEq, Repr

/-- The instruction set, one constructor per row of spec/opcode_table.json.

The first eighteen are the wire commands: the frames in IBUF are the block's "program" (R27). Such an instruction is the
frame as it lies at the cursor: `total` is its length field, read as it stands, and `payload` the bytes after the opcode
byte (at most `total - 1` of them, fewer when IBUF ends inside the frame). They carry the bytes and not the decoded
fields, because a row matches on the opcode byte alone and the length and field checks are made afterwards (R72, R81).

The other twenty-four are the host operations of R90 with their operands. -/
inductive Instr where
  | protocolHeader (total : U32) (payload : Bytes)
  | speed (total : U32) (payload : Bytes)
  | connectionType (total : U32) (payload : Bytes)
  | nodeDetails (total : U32) (payload : Bytes)
  | anotherNode (total : U32) (payload : Bytes)
  | bbsPort (total : U32) (payload : Bytes)
  | diffusionRequest (total : U32) (payload : Bytes)
  | fileRequest (total : U32) (payload : Bytes)
  | conditionalDiffusionRequest (total : U32) (payload : Bytes)
  | query (total : U32) (payload : Bytes)
  | fileResponse (total : U32) (payload : Bytes)
  | close (total : U32) (payload : Bytes)
  | connectedLimitation (total : U32) (payload : Bytes)
  | wrongListeningPort (total : U32) (payload : Bytes)
  | reject (total : U32) (payload : Bytes)
  | slow (total : U32) (payload : Bytes)
  | liar (total : U32) (payload : Bytes)
  | lowVersion (total : U32) (payload : Bytes)
  | hexEnc (b : Bytes)
  | hexDec (t : Bytes)
  | truncNul (b : Bytes)
  | u32Le (n : U32)
  | leUint (b : Bytes)
  | addr2b (t : Bytes)
  | b2addr (o : Bytes)
  | sum8 (b : Bytes)
  | sum16 (b : Bytes)
  | sum32 (b : Bytes)
  | cNew (d : Dir) (key : Bytes)
  | cNewPh (d : Dir)
  | cCrypt (d : Dir) (data : Bytes)
  | rxLoad (b : Bytes)
  | hdrPeek
  | frmDecode
  | cmdDecode
  | frmEncode (op : Byte) (payload : Bytes)
  | cmdEncode (v : Command)
  | kiDecode (b : Bytes)
  | kiEncode (k : KeyInfo)
  | cacheBlock (fileData : Bytes)
  | tokPack (a : Bytes)
  | tokUnpack (t : Bytes)
deriving DecidableEq, Repr

/-- The operands of a host operation, as mathematical values (R92: how they travel is not specified). One slot per
operand kind of R90; an operation uses the slots its row names. -/
structure Operands where
  /-- the context selector `d` -/
  dir     : Dir
  /-- the byte-sequence or text operand `b`, `t`, `o`, `key`, `data`, `P`, `a` -/
  bytes   : Bytes
  /-- the u32 operand `n` of U32_LE -/
  word    : U32
  /-- the opcode operand `op` of FRM_ENCODE -/
  code    : Byte
  /-- the Command operand of CMD_ENCODE -/
  command : Command
  /-- the KeyInfo operand of KI_ENCODE -/
  keyInfo : KeyInfo
deriving DecidableEq, Repr

/-- A host request: the 8-bit operation-select code and the operands (R90). -/
structure Request where
  opsel : Byte
  args  : Operands
deriving DecidableEq, Repr

/-- How an instruction is presented to the block: bytes of a frame (format `FRAME` of the opcode table), or a host
request (format `HOSTOP`). -/
inductive Code where
  | frame (bytes : Bytes)
  | op (r : Request)
deriving DecidableEq, Repr

/-- The seven registers the host can read, by their index in R22. -/
inductive Reg where
  | status
  | err
  | len
  | opc
  | cnt
  | cur
  | ilen
deriving DecidableEq, Repr

end Sys2Proof
end

