-- ==== Sys2Proof/Machine/State.lean ====
section
/-! DEFINITION. The state of the block as plain data (spec/10_state.md R20: the register group, IBUF and the two cipher
contexts), the model's own ports (host queue, result port, register-read port), the error kinds of R271, and the reasons
the model itself can stop. -/

namespace Sys2Proof.Machine

/-- The error kinds of R271: 1 to 7 the source's, 8 to 11 the spec's own. -/
inductive ErrKind where
  | framingError
  | fieldRangeError
  | truncatedRecord
  | encodingError
  | addressFormatError
  | tokenFormatError
  | checksumMismatch
  | unknownOpcode
  | contextNotKeyed
  | rxDead
  | badOperation
deriving DecidableEq, Repr

/-- Why the model stops in a step with no next state. -/
inductive Fault where
  /-- Raised by HDR_PEEK, FRM_DECODE, CMD_DECODE and the wire commands' fetch when a byte of IBUF below `ILEN` holds no
  value (R30: bytes that hold no value are read by no rule). Safe: no state that satisfies `State.Inv` raises it. -/
  | ibufNoValue (address : Nat)
deriving DecidableEq, Repr

/-- Why the model declines a step. (The spec's own refusals are next states that write `ERR`, R281; they are not these.) -/
inductive Refusal where
  /-- An instruction without a meaning in the model. Raised only by a refused arm of `exec`; there is none. Safe. -/
  | notModelled (mnemonic : String)
deriving DecidableEq, Repr

/-- Why an operation's body ends without success: an error or refusal of the block (R270), or a fault of the model. -/
inductive Stop where
  | err (kind : ErrKind)
  | fault (reason : Fault)
deriving DecidableEq, Repr

/-- The receive buffer's storage: (offset, byte) cells. An unlisted offset holds no value (R30). -/
abbrev Memory := List Host.Cell

/-- A keyed cipher context: the permutation table and the two running indices (R33, R34). -/
structure CipherState where
  table : Vector Byte 256
  x     : Byte
  y     : Byte
deriving DecidableEq, Repr

/-- The result an operation delivers, OBUF among them (R32, R90). `none` is "holds no value" (R280, spec/93 U4). -/
inductive Result where
  | none
  | bytes (b : Bytes)
  | u8 (v : Byte)
  | u16 (v : U16)
  | u32 (v : U32)
  | nat (n : Nat)
  | header (total : U32) (op : Byte)
  | frame (op : Byte) (payload : Bytes)
  | command (v : Command)
  | keyInfo (k : KeyInfo) (consumed : Nat)
deriving DecidableEq, Repr

/-- What the host does at the block's interface: it issues an operation (R90), asserts reset (R310), or reads a register
between two operations (R22). -/
inductive HostEvent where
  | op (r : Request)
  | reset
  | read (r : Reg)
deriving DecidableEq, Repr

/-- What the model's register-read port shows of the last read (R22). -/
inductive ReadPort where
  /-- nothing has been read since reset -/
  | idle
  /-- the value the register holds -/
  | value (n : Nat)
  /-- the read was refused, and gave no number: the register held no value (R25, U1) -/
  | refused (r : Reg)
deriving DecidableEq, Repr

/-- The whole state (R20), and after it the model's own ports. -/
structure State where
  /-- `STATUS`, u8; bits 7:4 read as 0 (R22, R23) -/
  status     : Byte
  /-- `ERR`, u8 (R24) -/
  err        : Byte
  /-- `LEN`, u32; holds a value while HDRV = 1 (R25) -/
  len        : U32
  /-- `OPC`, u8; holds a value while HDRV = 1 (R25) -/
  opc        : Byte
  /-- `CNT`, u33; holds a value while HDRV = 1 and a frame has been decoded since reset (R25) -/
  cnt        : U33
  /-- a full decode has written `CNT` since reset (R25: "or no value if there was none"); the model's bit -/
  cntWritten : Bool
  /-- `CUR`, the frame cursor, a natural number (R27, R28) -/
  cur        : Nat
  /-- `ILEN`, a natural number (R22) -/
  ilen       : Nat
  /-- `IBUF` (R30) -/
  ibuf       : Memory
  /-- `CTX[RX]`; `none` is `valid = 0` (R34, R35) -/
  ctxRx      : Option CipherState
  /-- `CTX[TX]`; `none` is `valid = 0` (R34, R35) -/
  ctxTx      : Option CipherState
  /-- the model's result port: what the last operation delivered; no rule reads it (R32) -/
  result     : Result
  /-- the model's register-read port: what the host's last register read gave (R22, R25) -/
  regOut     : ReadPort
  /-- the model's host queue: what the host does next, oldest first (R62) -/
  host       : List HostEvent
deriving DecidableEq, Repr

/-- The state after reset (R311). `LEN`, `OPC` and `CNT` hold no value then: their fields stand at 0 (DESIGN CHOICE, log
entry 4) and no read of them gives a value before they are written. -/
def State.reset : State where
  status     := 0
  err        := 0
  len        := 0
  opc        := 0
  cnt        := 0
  cntWritten := false
  cur        := 0
  ilen       := 0
  ibuf       := []
  ctxRx      := none
  ctxTx      := none
  result     := .none
  regOut     := .idle
  host       := []

end Sys2Proof.Machine
end

