-- ==== Sys2Proof/Machine/Flags.lean ====
section
/-! DEFINITION. The four STATUS flags (spec/10_state.md R23): their places, reading and writing them. The block has no
other flag: "No operation produces a carry, overflow, zero or sign flag" (R26). -/

namespace Sys2Proof.Machine

/-- The STATUS fields of R23. -/
inductive StatusBit where
  | rxDead
  | rxv
  | txv
  | hdrv
deriving DecidableEq, Repr

/-- The bit position of a STATUS field (R23). -/
def StatusBit.index : StatusBit → Nat
  | .rxDead => 0
  | .rxv => 1
  | .txv => 2
  | .hdrv => 3

/-- The one-bit mask of a STATUS field. -/
def StatusBit.mask (f : StatusBit) : Byte := 1#8 <<< f.index

/-- A field of a STATUS word. -/
def statusGet (w : Byte) (f : StatusBit) : Bool := w.getLsbD f.index

/-- A STATUS word with one field written, the other bits as they were. -/
def statusPut (w : Byte) (f : StatusBit) (v : Bool) : Byte := if v then w ||| f.mask else w &&& ~~~f.mask

/-- The STATUS field `f` of a state. -/
def State.flag (s : State) (f : StatusBit) : Bool := statusGet s.status f

/-- Write the STATUS field `f`. -/
def State.setFlag (s : State) (f : StatusBit) (v : Bool) : State := { s with status := statusPut s.status f v }

/-- The STATUS field that copies `CTX[d].valid` (R23). -/
def validBit : Dir → StatusBit
  | .rx => .rxv
  | .tx => .txv

end Sys2Proof.Machine
end

