-- ==== Sys2Proof/Machine/Ops.lean ====
section
/-! DEFINITION. The named operations over the state: the receive buffer's storage, the cipher contexts, reading a
register, the outcomes of an operation (spec/60_exceptions.md R270), and `raise`, the block's one way of taking an
error (R280, R281). There is no return from an error (R284): the host issues its next operation, and only reset undoes
the RXDEAD latch. -/

namespace Sys2Proof.Machine

/-! ### The receive buffer (R30, R18 `MemRead`) -/

/-- The byte at an offset, or none where IBUF holds no value. -/
def Memory.read (m : Memory) (a : Nat) : Option Byte :=
  match m with
  | [] => none
  | (b, v) :: rest => if a = b then some v else Memory.read rest a

/-- The canonical form: offsets strictly rising. (An unlisted offset holds no value, so no entry can equal what an
unlisted offset reads as.) -/
def Memory.wf (m : Memory) : Bool :=
  match m with
  | [] => true
  | (a, _) :: rest => rest.all (fun c => decide (a < c.1)) && Memory.wf rest

/-- The cells of a byte sequence laid out from offset `a` on. -/
def Memory.cellsFrom (a : Nat) (bs : Bytes) : Memory :=
  match bs with
  | [] => []
  | b :: rest => (a, b) :: Memory.cellsFrom (a + 1) rest

/-- The buffer that holds `bs` from offset 0 and nothing else: RX_LOAD replaces IBUF whole (R66, R150). -/
def Memory.load (bs : Bytes) : Memory := Memory.cellsFrom 0 bs

/-- `MemRead(a, n)`: the `n` bytes at offset `a` (R18); a fault of the model at the first offset that holds no value. -/
def memRead (m : Memory) (a n : Nat) : Except Stop Bytes :=
  match n with
  | 0 => .ok []
  | k + 1 =>
    match m.read a with
    | none => .error (.fault (.ibufNoValue a))
    | some v =>
      match memRead m (a + 1) k with
      | .error e => .error e
      | .ok vs => .ok (v :: vs)

/-! ### Cipher contexts (R34, R37) -/

/-- `CTX[d]`, if it is keyed. -/
def State.ctx (s : State) : Dir → Option CipherState
  | .rx => s.ctxRx
  | .tx => s.ctxTx

/-- Write `CTX[d]`; the other context is untouched (R37). -/
def State.setCtx (s : State) (d : Dir) (c : Option CipherState) : State :=
  match d with
  | .rx => { s with ctxRx := c }
  | .tx => { s with ctxTx := c }

/-! ### Reading a register (R22, R25) -/

/-- What the host reads from a register: its value, or none while it holds no value. STATUS bits 7:4 read as 0 (R23);
LEN, OPC and CNT hold no value while HDRV = 0, nor CNT before the first full decode since reset (R25). -/
def State.readReg (s : State) : Reg → Option Nat
  | .status => some (s.status &&& 0x0F#8).toNat
  | .err => some s.err.toNat
  | .len => if s.flag .hdrv then some s.len.toNat else none
  | .opc => if s.flag .hdrv then some s.opc.toNat else none
  | .cnt => if s.flag .hdrv && s.cntWritten then some s.cnt.toNat else none
  | .cur => some s.cur
  | .ilen => some s.ilen

/-- The host's read of a register (R22): it gives the value the register holds, or is refused, "never a fixed number", while
it holds none (R25, U1). Like the spec's other refusals (R281) it is a next state; a read is no operation, so ERR stays
(R24, R91). -/
def State.read (s : State) (r : Reg) : State :=
  match s.readReg r with
  | some n => { s with regOut := .value n }
  | none => { s with regOut := .refused r }

/-! ### Outcomes of an operation (R270) -/

/-- The code of an error kind, the value of ERR (R271). -/
def ErrKind.code : ErrKind → Byte
  | .framingError => 1
  | .fieldRangeError => 2
  | .truncatedRecord => 3
  | .encodingError => 4
  | .addressFormatError => 5
  | .tokenFormatError => 6
  | .checksumMismatch => 7
  | .unknownOpcode => 8
  | .contextNotKeyed => 9
  | .rxDead => 10
  | .badOperation => 11

/-- Kinds 9 to 11 are refusals, the others errors (R271, R281). -/
def ErrKind.isRefusal : ErrKind → Bool
  | .contextNotKeyed => true
  | .rxDead => true
  | .badOperation => true
  | .framingError => false
  | .fieldRangeError => false
  | .truncatedRecord => false
  | .encodingError => false
  | .addressFormatError => false
  | .tokenFormatError => false
  | .checksumMismatch => false
  | .unknownOpcode => false

/-- `raise E` and `refuse E` (R280, R281): ERR takes the kind's code, no result is delivered, and an ERROR of a receive
decode (`receive`: HDR_PEEK, FRM_DECODE, CMD_DECODE) sets RXDEAD while RX_STICKY is true. Nothing else changes. -/
def State.raise (receive : Bool) (kind : ErrKind) (s : State) : State :=
  let status := if receive && !kind.isRefusal && Config.rxSticky then statusPut s.status .rxDead true else s.status
  { s with status := status, err := kind.code, result := .none }

/-- Success: `ERR <- 0` and the result is delivered (R270). -/
def State.deliver (s : State) (r : Result) : State := { s with err := 0, result := r }

/-- The outcome of an operation attempted in `s`: all of its effect, or `raise` on the state it started from (R270, R282:
an operation "either completes entirely or has no effect other than rule R280's"). -/
def settle (receive : Bool) (s : State) (body : Except Stop State) : Host.Outcome State Fault Refusal :=
  match body with
  | .ok t => .next t
  | .error (.err kind) => .next (s.raise receive kind)
  | .error (.fault f) => .fault f

/-- A pure decoder's or encoder's error as an operation's. -/
def orErr {α : Type} (x : Except ErrKind α) : Except Stop α :=
  match x with
  | .ok a => .ok a
  | .error k => .error (.err k)

/-- A stateless operation: it touches nothing but ERR and the result port (R42). -/
def pureOp (s : State) (x : Except ErrKind Result) : Host.Outcome State Fault Refusal :=
  settle false s ((orErr x).map s.deliver)

/-- The refusal RxDead of the receive path (R283). -/
def requireRxLive (s : State) : Except Stop Unit :=
  if s.flag .rxDead then .error (.err .rxDead) else .ok ()

end Sys2Proof.Machine
end

