-- ==== Sys2Proof/Machine/Checksum.lean ====
section
/-! DEFINITION. The additive checksum unit (spec/41_checksum.md): SUM8, SUM16, SUM32. The sums are taken over the naturals
and reduced once, which R123 allows a model to do. -/

namespace Sys2Proof.Machine

/-- The sum of the byte values, exact (R123, R124). -/
def byteSum : Bytes → Nat
  | [] => 0
  | b :: rest => b.toNat + byteSum rest

/-- `Sum8(b)` (R120). -/
def sumU8 (b : Bytes) : Byte := BitVec.ofNat 8 (byteSum b)
/-- `Sum16(b)` (R121). -/
def sumU16 (b : Bytes) : U16 := BitVec.ofNat 16 (byteSum b)
/-- `Sum32(b)` (R122). -/
def sumU32 (b : Bytes) : U32 := BitVec.ofNat 32 (byteSum b)

/-- SUM8 (R120). -/
def execSum8 (b : Bytes) (s : State) : Host.Outcome State Fault Refusal := pureOp s (.ok (.u8 (sumU8 b)))

/-- SUM16 (R121). -/
def execSum16 (b : Bytes) (s : State) : Host.Outcome State Fault Refusal := pureOp s (.ok (.u16 (sumU16 b)))

/-- SUM32 (R122). -/
def execSum32 (b : Bytes) (s : State) : Host.Outcome State Fault Refusal := pureOp s (.ok (.u32 (sumU32 b)))

end Sys2Proof.Machine
end

