-- ==== Sys2Proof/Machine/Operands.lean ====
section
/-! DEFINITION. Every field and operand form of the wire formats (spec/20_memory.md, spec/30_encoding.md sections 2 and 3)
and the byte and value primitives (spec/40_primitives.md): little-endian integers, addresses, the two string forms, raw
fields, booleans, hexadecimal text, dotted quads, and the opcode map of R78. -/

namespace Sys2Proof.Machine

/-! ### Little-endian integers (R50, R55, R73, R103, R104) -/

/-- `le(b)`: byte `b[i]` has weight `256^i` (R17, R104). -/
def leNat : Bytes → Nat
  | [] => 0
  | b :: rest => b.toNat + 256 * leNat rest

/-- `le_n(v)`: the `n`-byte sequence of a value below `256^n`, lowest byte first (R17). -/
def leBytes : Nat → Nat → Bytes
  | 0, _ => []
  | n + 1, v => BitVec.ofNat 8 v :: leBytes n (v / 256)

/-- `le_2(v)` of a u16. -/
def leU16 (v : U16) : Bytes := leBytes 2 v.toNat
/-- `le_4(v)` of a u32 (R103). -/
def leU32 (v : U32) : Bytes := leBytes 4 v.toNat

/-- LE_UINT (R104): any length of at least 1; the empty operand is FieldRangeError. -/
def leUint (b : Bytes) : Except ErrKind Nat := if b = [] then .error .fieldRangeError else .ok (leNat b)

/-! ### Bounds-checked field reads (R18 `Take`)

A decoder holds the rest of its input: `Take(P, p, n, E)` is `takeField n E rest`. -/

/-- `Take(P, p, n, E)`: the next `n` bytes and what follows, or `E` when fewer remain. -/
def takeField (n : Nat) (e : ErrKind) (p : Bytes) : Except ErrKind (Bytes × Bytes) :=
  if p.length < n then .error e else .ok (p.take n, p.drop n)

/-- One byte. -/
def takeByte (e : ErrKind) (p : Bytes) : Except ErrKind (Byte × Bytes) :=
  match p with
  | [] => .error e
  | b :: rest => .ok (b, rest)

/-- A u16 field. -/
def takeU16 (e : ErrKind) (p : Bytes) : Except ErrKind (U16 × Bytes) := do
  let (b, p) ← takeField 2 e p
  return (BitVec.ofNat 16 (leNat b), p)

/-- A u32 field. -/
def takeU32 (e : ErrKind) (p : Bytes) : Except ErrKind (U32 × Bytes) := do
  let (b, p) ← takeField 4 e p
  return (BitVec.ofNat 32 (leNat b), p)

/-! ### Booleans (R76, R109) and addresses (R51, R77) -/

/-- `Bool(v)`: false for 0, true for any other byte (R109). -/
def boolOf (v : Byte) : Bool := v != 0
/-- `Byte(f)`: 0x00 or 0x01 (R109). -/
def byteOf (f : Bool) : Byte := if f then 1 else 0

/-- A `B(name)` field. -/
def takeBool (e : ErrKind) (p : Bytes) : Except ErrKind (Bool × Bytes) := do
  let (b, p) ← takeByte e p
  return (boolOf b, p)

/-- The four octets in textual order (R51). -/
def addrBytes (o : Addr) : Bytes := [o.a, o.b, o.c, o.d]

/-- An `A(name)` field. -/
def takeAddr (e : ErrKind) (p : Bytes) : Except ErrKind (Addr × Bytes) := do
  let (a, p) ← takeByte e p
  let (b, p) ← takeByte e p
  let (c, p) ← takeByte e p
  let (d, p) ← takeByte e p
  return (⟨a, b, c, d⟩, p)

/-! ### Strings (R74, R75, R102, R108, R110) -/

/-- `TruncNul(b)`: the bytes before the first zero byte, or all (R102). -/
def truncNul : Bytes → Bytes
  | [] => []
  | b :: rest => if b = 0 then [] else b :: truncNul rest

/-- `Pad(b, w)`: `b` followed by zeros up to `w` bytes (R108). -/
def pad (b : Bytes) (w : Nat) : Bytes := b ++ List.replicate (w - b.length) 0

/-- A value a form-(b) field of width `w` can hold: at most `w` bytes, no zero byte (R74, R110). -/
def fwLegal (b : Bytes) (w : Nat) : Bool := decide (b.length ≤ w) && !b.contains 0

/-- A value a form-(a) string can hold: at most 255 bytes (R74, R110). -/
def lpLegal (b : Bytes) : Bool := decide (b.length ≤ 255)

/-- `FWEnc(b, w)` (R110). -/
def fwEnc (b : Bytes) (w : Nat) : Except ErrKind Bytes :=
  if fwLegal b w then .ok (pad b w) else .error .fieldRangeError

/-- `FWDec(P, p, w, E)` (R110). -/
def fwDec (w : Nat) (e : ErrKind) (p : Bytes) : Except ErrKind (Bytes × Bytes) := do
  let (f, p) ← takeField w e p
  return (truncNul f, p)

/-- The length byte of a string or the count byte of a list (R74). -/
def lenByte (n : Nat) : Byte := BitVec.ofNat 8 n

/-- `n` records, one after another (R221). -/
def takeMany {α : Type} (record : Bytes → Except ErrKind (α × Bytes)) : Nat → Bytes → Except ErrKind (List α × Bytes)
  | 0, p => .ok ([], p)
  | n + 1, p => do
    let (a, p) ← record p
    let (as, p) ← takeMany record n p
    return (a :: as, p)

/-! ### Hexadecimal text (R53, R100, R101) -/

/-- The lower-case hex digit of a value below 16 (R100). -/
def hexDigit (n : Nat) : Byte := if n < 10 then BitVec.ofNat 8 (0x30 + n) else BitVec.ofNat 8 (0x57 + n)

/-- The value of a hex digit of either case, if the byte is one (R101). -/
def hexValue (c : Byte) : Option Nat :=
  if 0x30 ≤ c.toNat ∧ c.toNat ≤ 0x39 then some (c.toNat - 0x30)
  else if 0x61 ≤ c.toNat ∧ c.toNat ≤ 0x66 then some (c.toNat - 0x57)
  else if 0x41 ≤ c.toNat ∧ c.toNat ≤ 0x46 then some (c.toNat - 0x37)
  else none

/-- `HexEnc(b)` (R100): high nibble of each byte first. -/
def hexEnc : Bytes → Bytes
  | [] => []
  | b :: rest => hexDigit (b.toNat / 16) :: hexDigit (b.toNat % 16) :: hexEnc rest

/-- The byte pairs of a text of even length. -/
def hexPairs : Bytes → Except ErrKind Bytes
  | [] => .ok []
  | [_] => .error .encodingError
  | hi :: lo :: rest =>
    match hexValue hi, hexValue lo with
    | some h, some l => do
      let bs ← hexPairs rest
      return BitVec.ofNat 8 (16 * h + l) :: bs
    | _, _ => .error .encodingError

/-- `HexDec(t)` (R101): EncodingError on odd length, then on a byte that is no hex digit. -/
def hexDec (t : Bytes) : Except ErrKind Bytes :=
  if t.length % 2 = 1 then .error .encodingError else hexPairs t

/-! ### Dotted quads (R105, R106) -/

/-- The parts of a text between the bytes `.` (0x2E): `k` dots give `k + 1` parts (R105). -/
def splitDots : Bytes → List Bytes
  | [] => [[]]
  | c :: rest =>
    if c = 0x2E then [] :: splitDots rest
    else match splitDots rest with
      | [] => [[c]]
      | p :: ps => (c :: p) :: ps

/-- A decimal digit (0x30 to 0x39). -/
def isDigit (c : Byte) : Bool := decide (0x30 ≤ c.toNat ∧ c.toNat ≤ 0x39)

/-- The decimal value of a text of digits. -/
def decimalValue (p : Bytes) : Nat := p.foldl (fun v c => 10 * v + (c.toNat - 0x30)) 0

/-- One part of a dotted quad: one to three digits, at most 255 (R105). -/
def octetOf (p : Bytes) : Except ErrKind Byte :=
  if p.length < 1 ∨ 3 < p.length then .error .addressFormatError
  else if !p.all isDigit then .error .addressFormatError
  else if 255 < decimalValue p then .error .addressFormatError
  else .ok (BitVec.ofNat 8 (decimalValue p))

/-- `Addr2B(t)` (R105). -/
def addr2B (t : Bytes) : Except ErrKind Bytes :=
  match splitDots t with
  | [p0, p1, p2, p3] => do
    let a ← octetOf p0
    let b ← octetOf p1
    let c ← octetOf p2
    let d ← octetOf p3
    return [a, b, c, d]
  | _ => .error .addressFormatError

/-- The digit character of a value below 10. -/
def decDigit (n : Nat) : Byte := BitVec.ofNat 8 (0x30 + n)

/-- `dec(o)`: an octet in decimal with no leading zeros (R106). -/
def decOctet (o : Byte) : Bytes :=
  let n := o.toNat
  if n < 10 then [decDigit n]
  else if n < 100 then [decDigit (n / 10), decDigit (n % 10)]
  else [decDigit (n / 100), decDigit (n / 10 % 10), decDigit (n % 10)]

/-- `B2Addr(o)` (R106): FieldRangeError unless there are exactly four bytes. -/
def b2Addr (o : Bytes) : Except ErrKind Bytes :=
  match o with
  | [a, b, c, d] => .ok (decOctet a ++ [0x2E] ++ decOctet b ++ [0x2E] ++ decOctet c ++ [0x2E] ++ decOctet d)
  | _ => .error .fieldRangeError

/-! ### Connection kinds (R85, R175) -/

/-- `code(link_type)`. -/
def linkCode : LinkType → Byte
  | .search => 0
  | .transfer => 1
  | .bbsSearch => 2

/-- The link type of a code: "unknown value is an error", FieldRangeError (R175). -/
def linkOf (t : Byte) : Except ErrKind LinkType :=
  match t.toNat with
  | 0 => .ok .search
  | 1 => .ok .transfer
  | 2 => .ok .bbsSearch
  | _ => .error .fieldRangeError

/-! ### The opcode map (R78) -/

/-- The opcode byte of a variant (R78). -/
def opcodeOf : Variant → Byte
  | .protocolHeader => 0
  | .speed => 1
  | .connectionType => 2
  | .nodeDetails => 3
  | .anotherNode => 4
  | .bbsPort => 5
  | .diffusionRequest => 10
  | .fileRequest => 11
  | .conditionalDiffusionRequest => 12
  | .query => 13
  | .fileResponse => 21
  | .close => 31
  | .connectedLimitation => 32
  | .wrongListeningPort => 33
  | .reject => 34
  | .slow => 35
  | .liar => 36
  | .lowVersion => 97

/-- The variant of an opcode byte: "dispatch on the opcode byte is a single lookup" (R81); the other 238 values have none
(R82). -/
def variantOf (op : Byte) : Option Variant :=
  match op.toNat with
  | 0 => some .protocolHeader
  | 1 => some .speed
  | 2 => some .connectionType
  | 3 => some .nodeDetails
  | 4 => some .anotherNode
  | 5 => some .bbsPort
  | 10 => some .diffusionRequest
  | 11 => some .fileRequest
  | 12 => some .conditionalDiffusionRequest
  | 13 => some .query
  | 21 => some .fileResponse
  | 31 => some .close
  | 32 => some .connectedLimitation
  | 33 => some .wrongListeningPort
  | 34 => some .reject
  | 35 => some .slow
  | 36 => some .liar
  | 97 => some .lowVersion
  | _ => none

/-- `MIN[op]`: the least payload length of a variant (R78, R170). -/
def minPayload : Variant → Nat
  | .protocolHeader => 4
  | .speed => 4
  | .connectionType => 4
  | .nodeDetails => 12
  | .anotherNode => 20
  | .bbsPort => 4
  | .diffusionRequest => 0
  | .fileRequest => 32
  | .conditionalDiffusionRequest => 276
  | .query => 23
  | .fileResponse => 24
  | .close => 0
  | .connectedLimitation => 0
  | .wrongListeningPort => 0
  | .reject => 0
  | .slow => 0
  | .liar => 0
  | .lowVersion => 0

/-- The variant of a Command value, its tag (R86). -/
def variantOfCommand : Command → Variant
  | .protocolHeader _ _ => .protocolHeader
  | .speed _ => .speed
  | .connectionType _ _ _ _ => .connectionType
  | .nodeDetails _ _ _ _ _ _ => .nodeDetails
  | .anotherNode _ _ _ _ _ _ _ _ => .anotherNode
  | .bbsPort _ => .bbsPort
  | .diffusionRequest => .diffusionRequest
  | .fileRequest _ _ _ _ _ => .fileRequest
  | .conditionalDiffusionRequest _ _ _ => .conditionalDiffusionRequest
  | .query _ _ _ _ _ _ _ _ _ => .query
  | .fileResponse _ _ _ _ => .fileResponse
  | .close => .close
  | .connectedLimitation => .connectedLimitation
  | .wrongListeningPort => .wrongListeningPort
  | .reject => .reject
  | .slow => .slow
  | .liar => .liar
  | .lowVersion => .lowVersion

end Sys2Proof.Machine
end

