-- ==== Sys2Proof/Machine/Cipher.lean ====
section
/-! DEFINITION. The stream cipher engine (spec/42_cipher.md): the key schedule, the keystream generator, and the host
operations C_NEW, C_NEW_PH and C_CRYPT. The index updates are the ones R132 and R135 write out; the spec took them from
general knowledge (PRESUMED there, its D10; log entry 13). -/

namespace Sys2Proof.Machine

/-- The table entry `S[i]`. -/
def tableAt (t : Vector Byte 256) (i : Byte) : Byte := t[i.toNat]'i.isLt

/-- `swap S[i], S[j]`. -/
def tableSwap (t : Vector Byte 256) (i j : Byte) : Vector Byte 256 := t.swap i.toNat j.toNat i.isLt j.isLt

/-- The identity permutation `S[i] = i` (R132). -/
def identityTable : Vector Byte 256 := Vector.ofFn fun i => BitVec.ofNat 8 i.val

/-- Round `i` of the key schedule on the table and `j`, with a non-empty truncated key `k` (R132). -/
def ksaRound (k : Bytes) (acc : Vector Byte 256 × Byte) (i : Nat) : Vector Byte 256 × Byte :=
  let si := BitVec.ofNat 8 i
  let j := acc.2 + tableAt acc.1 si + k.getD (i % k.length) 0
  (tableSwap acc.1 si j, j)

/-- The 256 rounds of the key schedule from the identity table and `j = 0` (R132). -/
def ksaTable (k : Bytes) : Vector Byte 256 := ((List.range 256).foldl (ksaRound k) (identityTable, 0)).1

/-- `KeySchedule(key)` under either reading of the empty key (R132, R133). -/
def keyScheduleWith (rule : EmptyKeyRule) (key : Bytes) : CipherState :=
  match truncNul key with
  | [] =>
    match rule with
    | .identity => ⟨identityTable, 0, 0⟩
    | .ksaZeroByte => ⟨ksaTable [0], 0, 0⟩
  | b :: rest => ⟨ksaTable (b :: rest), 0, 0⟩

/-- `KeySchedule(key)` of this hardware (R132, R133: EMPTY_KEY_RULE = identity). -/
def keySchedule (key : Bytes) : CipherState := keyScheduleWith Config.emptyKeyRule key

/-- One step of the generator: the keystream byte and the advanced context (R135). -/
def keystreamStep (c : CipherState) : Byte × CipherState :=
  let x := c.x + 1
  let y := c.y + tableAt c.table x
  let t := tableSwap c.table x y
  (tableAt t (tableAt t x + tableAt t y), ⟨t, x, y⟩)

/-- `Crypt(S, x, y, data)` (R135). -/
def crypt (c : CipherState) : Bytes → Bytes × CipherState
  | [] => ([], c)
  | d :: rest =>
    let k := keystreamStep c
    let r := crypt k.2 rest
    ((d ^^^ k.1) :: r.1, r.2)

/-- `CryptFresh(key, data)` with a scratch instance, discarded afterwards (R39, R140). -/
def cryptFresh (key data : Bytes) : Bytes := (crypt (keySchedule key) data).1

/-- `CTX[d]` keyed with `key`, its `valid` bit and STATUS copy set (R131). -/
def keyContext (d : Dir) (key : Bytes) (s : State) : State :=
  (((s.setCtx d (some (keySchedule key))).setFlag (validBit d) true).deliver .none)

/-- C_NEW (R131). -/
def execCNew (d : Dir) (key : Bytes) (s : State) : Host.Outcome State Fault Refusal :=
  settle false s (.ok (keyContext d key s))

/-- C_NEW_PH (R138): C_NEW with the built-in PH_KEY. -/
def execCNewPh (d : Dir) (s : State) : Host.Outcome State Fault Refusal :=
  settle false s (.ok (keyContext d Config.phKey s))

/-- C_CRYPT (R134). -/
def execCCrypt (d : Dir) (data : Bytes) (s : State) : Host.Outcome State Fault Refusal :=
  settle false s
    (match s.ctx d with
    | none => .error (.err .contextNotKeyed)
    | some c => .ok ((s.setCtx d (some (crypt c data).2)).deliver (.bytes (crypt c data).1)))

end Sys2Proof.Machine
end

