-- ==== Sys2Proof/Machine/KeyInfoCodec.lean ====
section
/-! DEFINITION. The KeyInfo record codec (spec/45_query_keyinfo.md R222 to R230) and its host operations KI_DECODE and
KI_ENCODE. -/

namespace Sys2Proof.Machine

/-- `DecodeViaNode(P, p)` (R222). -/
def decodeViaNode (p : Bytes) : Except ErrKind (ViaNode × Bytes) := do
  let (addr, p) ← takeAddr .truncatedRecord p
  let (port, p) ← takeU16 .truncatedRecord p
  return (⟨addr, port⟩, p)

/-- `EncodeViaNode(n)` (R222). -/
def encodeViaNode (n : ViaNode) : Bytes := addrBytes n.addr ++ leU16 n.port

/-- `DecodeKeyInfo(P, p)` (R225): every shortfall is TruncatedRecord; the name is deciphered under the one-byte key
`[cs[0]]` and its checksum is returned, not validated (R226). -/
def decodeKeyInfo (p : Bytes) : Except ErrKind (KeyInfo × Bytes) := do
  let (sharingAddr, p) ← takeAddr .truncatedRecord p
  let (sharingPort, p) ← takeU16 .truncatedRecord p
  let (bbsAddr, p) ← takeAddr .truncatedRecord p
  let (bbsPort, p) ← takeU16 .truncatedRecord p
  let (fileSize, p) ← takeU32 .truncatedRecord p
  let (fileHash, p) ← fwDec Config.hashW .truncatedRecord p
  let (nameLen, p) ← takeByte .truncatedRecord p
  let (sumLow, p) ← takeByte .truncatedRecord p
  let (sumHigh, p) ← takeByte .truncatedRecord p
  let (enc, p) ← takeField nameLen.toNat .truncatedRecord p
  let (sharingSig, p) ← fwDec Config.kiSigW .truncatedRecord p
  let (bbsSigLen, p) ← takeByte .truncatedRecord p
  let (bbsSig, p) ← takeField bbsSigLen.toNat .truncatedRecord p
  let (ttl, p) ← takeU16 .truncatedRecord p
  let (blockSize, p) ← takeU32 .truncatedRecord p
  let (mtime, p) ← takeU32 .truncatedRecord p
  let (ignore, p) ← takeBool .truncatedRecord p
  let (version, p) ← takeByte .truncatedRecord p
  return ({ sharingAddr, sharingPort, bbsAddr, bbsPort, fileSize, fileHash,
            name := cryptFresh [sumLow] enc,
            nameSum := BitVec.ofNat 16 (leNat [sumLow, sumHigh]),
            sharingSig, bbsSig, ttl, blockSize, mtime, ignore, version }, p)

/-- The bytes of a name field: its two checksum bytes, low byte first, then the enciphered name (R226). -/
def nameField (name : Bytes) : Bytes :=
  leU16 (sumU16 name) ++ cryptFresh [BitVec.ofNat 8 (sumU16 name).toNat] name

/-- `EncodeKeyInfo(k)` of a legal record (R227); `k.nameSum` is ignored. -/
def encodeKeyInfo (k : KeyInfo) : Bytes :=
  addrBytes k.sharingAddr ++ leU16 k.sharingPort ++ addrBytes k.bbsAddr ++ leU16 k.bbsPort
    ++ leU32 k.fileSize ++ pad k.fileHash Config.hashW
    ++ [lenByte k.name.length] ++ nameField k.name
    ++ pad k.sharingSig Config.kiSigW
    ++ [lenByte k.bbsSig.length] ++ k.bbsSig
    ++ leU16 k.ttl ++ leU32 k.blockSize ++ leU32 k.mtime
    ++ [byteOf k.ignore, k.version]

/-- A legal KeyInfo value (R228). -/
def legalKeyInfo (k : KeyInfo) : Bool :=
  fwLegal k.fileHash Config.hashW && lpLegal k.name && fwLegal k.sharingSig Config.kiSigW && lpLegal k.bbsSig

/-- KI_DECODE (R229): stateless, works on its operand, never latches RXDEAD. -/
def execKiDecode (b : Bytes) (s : State) : Host.Outcome State Fault Refusal :=
  pureOp s ((decodeKeyInfo b).map fun r => .keyInfo r.1 (b.length - r.2.length))

/-- KI_ENCODE (R230). -/
def execKiEncode (k : KeyInfo) (s : State) : Host.Outcome State Fault Refusal :=
  pureOp s (if legalKeyInfo k then .ok (.bytes (encodeKeyInfo k)) else .error .fieldRangeError)

end Sys2Proof.Machine
end

