-- ==== Sys2Proof/Machine/Payload.lean ====
section
/-! DEFINITION. The command variant catalogue (spec/44_commands.md, spec/45_query_keyinfo.md R221): one decoder and one
encoder per variant with fields, the legal values of each, and the dispatchers `DecodePayload` and `EncodePayload` of
R170. The variants without fields (R183, R192 to R198) decode to themselves and encode to nothing. -/

namespace Sys2Proof.Machine

/-! ### Decoders -/

/-- `Dec_ProtocolHeader` on the deciphered payload `D`: the rest after the first four bytes is the major version (R171). -/
def decProtocolHeader (d : Bytes) : Except ErrKind Command := do
  let (minor, rest) ← takeU32 .framingError d
  return .protocolHeader minor rest

/-- `Dec_Speed` (R173). -/
def decSpeed (p : Bytes) : Except ErrKind Command := do
  let (speed, _) ← takeU32 .framingError p
  return .speed speed

/-- `Dec_ConnectionType` (R175): the four bytes are taken before the link type is checked. -/
def decConnectionType (p : Bytes) : Except ErrKind Command := do
  let (t, p) ← takeByte .framingError p
  let (b1, p) ← takeBool .framingError p
  let (b2, p) ← takeBool .framingError p
  let (b3, _) ← takeBool .framingError p
  let link ← linkOf t
  return .connectionType link b1 b2 b3

/-- `Dec_NodeDetails` (R177): the four length bytes together, then the four strings. -/
def decNodeDetails (p : Bytes) : Except ErrKind Command := do
  let (addr, p) ← takeAddr .framingError p
  let (port, p) ← takeU32 .framingError p
  let (hl, p) ← takeByte .framingError p
  let (wl0, p) ← takeByte .framingError p
  let (wl1, p) ← takeByte .framingError p
  let (wl2, p) ← takeByte .framingError p
  let (host, p) ← takeField hl.toNat .truncatedRecord p
  let (word0, p) ← takeField wl0.toNat .truncatedRecord p
  let (word1, p) ← takeField wl1.toNat .truncatedRecord p
  let (word2, _) ← takeField wl2.toNat .truncatedRecord p
  return .nodeDetails addr port host word0 word1 word2

/-- `Dec_AnotherNode` (R179); there is no host string in this variant. -/
def decAnotherNode (p : Bytes) : Except ErrKind Command := do
  let (addr, p) ← takeAddr .framingError p
  let (sharingPort, p) ← takeU32 .framingError p
  let (bbsPort, p) ← takeU32 .framingError p
  let (isBbsNode, p) ← takeBool .framingError p
  let (speed, p) ← takeU32 .framingError p
  let (wl0, p) ← takeByte .framingError p
  let (wl1, p) ← takeByte .framingError p
  let (wl2, p) ← takeByte .framingError p
  let (word0, p) ← takeField wl0.toNat .truncatedRecord p
  let (word1, p) ← takeField wl1.toNat .truncatedRecord p
  let (word2, _) ← takeField wl2.toNat .truncatedRecord p
  return .anotherNode addr sharingPort bbsPort isBbsNode speed word0 word1 word2

/-- `Dec_BBSPort` (R181). -/
def decBbsPort (p : Bytes) : Except ErrKind Command := do
  let (port, _) ← takeU32 .framingError p
  return .bbsPort port

/-- `Dec_FileRequest` (R185). -/
def decFileRequest (p : Bytes) : Except ErrKind Command := do
  let (taskId, p) ← takeU32 .framingError p
  let (blockBegin, p) ← takeU32 .framingError p
  let (blockSize, p) ← takeU32 .framingError p
  let (hash, p) ← takeField Config.hashW .framingError p
  let (fileSize, _) ← takeU32 .framingError p
  return .fileRequest taskId blockBegin blockSize hash fileSize

/-- `Dec_CDR` (R187). -/
def decConditionalDiffusionRequest (p : Bytes) : Except ErrKind Command := do
  let (keyword, p) ← fwDec Config.cdrKeywordW .framingError p
  let (sign, p) ← fwDec Config.cdrSignW .framingError p
  let (queryId, _) ← takeU32 .framingError p
  return .conditionalDiffusionRequest keyword sign queryId

/-- `Dec_Query` (R221). -/
def decQuery (p : Bytes) : Except ErrKind Command := do
  let (isResponse, p) ← takeBool .framingError p
  let (isDiffusion, p) ← takeBool .framingError p
  let (isDownstream, p) ← takeBool .framingError p
  let (isBbs, p) ← takeBool .framingError p
  let (queryId, p) ← takeU32 .framingError p
  let (kl, p) ← takeByte .framingError p
  let (keyword, p) ← takeField kl.toNat .truncatedRecord p
  let (sign, p) ← fwDec Config.querySignW .truncatedRecord p
  let (vc, p) ← takeByte .truncatedRecord p
  let (via, p) ← takeMany decodeViaNode vc.toNat p
  let (kc, p) ← takeU16 .truncatedRecord p
  let (keys, _) ← takeMany decodeKeyInfo kc.toNat p
  return .query isResponse isDiffusion isDownstream isBbs queryId keyword sign via keys

/-- `Dec_FileResponse` (R189): the data is the rest of the payload, at most 65536 bytes of it. -/
def decFileResponse (p : Bytes) : Except ErrKind Command := do
  let (taskId, p) ← takeU32 .framingError p
  let (blockBegin, p) ← takeU32 .framingError p
  let (hash, p) ← takeField Config.hashW .framingError p
  return .fileResponse taskId blockBegin hash (p.take Config.fileDataMax)

/-- The decoder of a variant whose payload is not enciphered (R170). -/
def decPlain (v : Variant) (p : Bytes) : Except ErrKind Command :=
  match v with
  | .protocolHeader => decProtocolHeader p
  | .speed => decSpeed p
  | .connectionType => decConnectionType p
  | .nodeDetails => decNodeDetails p
  | .anotherNode => decAnotherNode p
  | .bbsPort => decBbsPort p
  | .diffusionRequest => .ok .diffusionRequest
  | .fileRequest => decFileRequest p
  | .conditionalDiffusionRequest => decConditionalDiffusionRequest p
  | .query => decQuery p
  | .fileResponse => decFileResponse p
  | .close => .ok .close
  | .connectedLimitation => .ok .connectedLimitation
  | .wrongListeningPort => .ok .wrongListeningPort
  | .reject => .ok .reject
  | .slow => .ok .slow
  | .liar => .ok .liar
  | .lowVersion => .ok .lowVersion

/-- The two length checks of R170: below the variant's minimum, and for opcode 12 any length but 276, FramingError. -/
def checkLength (v : Variant) (p : Bytes) : Except ErrKind Unit :=
  if p.length < minPayload v then .error .framingError
  else if v = .conditionalDiffusionRequest ∧ p.length ≠ 276 then .error .framingError
  else .ok ()

/-- `DecodePayload(op, P)` for a documented opcode, with `CTX[RX]` given and returned (R170, R171, R172): a ProtocolHeader
is refused while the context is not keyed, then deciphered whole, which advances the context. -/
def decodePayload (v : Variant) (p : Bytes) (rx : Option CipherState) :
    Except ErrKind (Command × Option CipherState) :=
  match v with
  | .protocolHeader =>
    match rx with
    | none => .error .contextNotKeyed
    | some c => do
      checkLength v p
      let cmd ← decPlain v (crypt c p).1
      return (cmd, some (crypt c p).2)
  | _ => do
    checkLength v p
    let cmd ← decPlain v p
    return (cmd, rx)

/-! ### Encoders -/

/-- The legal values of each variant (R171 to R198, R221). -/
def legalCommand : Command → Bool
  | .protocolHeader _ major => decide (major.length ≤ 4294967290)
  | .speed _ => true
  | .connectionType _ _ _ _ => true
  | .nodeDetails _ _ host w0 w1 w2 => lpLegal host && lpLegal w0 && lpLegal w1 && lpLegal w2
  | .anotherNode _ _ _ _ _ w0 w1 w2 => lpLegal w0 && lpLegal w1 && lpLegal w2
  | .bbsPort _ => true
  | .diffusionRequest => true
  | .fileRequest _ _ _ hash _ => decide (hash.length = Config.hashW)
  | .conditionalDiffusionRequest keyword sign _ => fwLegal keyword Config.cdrKeywordW && fwLegal sign Config.cdrSignW
  | .query _ _ _ _ _ keyword sign via keys =>
    lpLegal keyword && fwLegal sign Config.querySignW && decide (via.length ≤ 255) && decide (keys.length ≤ 65535)
      && keys.all legalKeyInfo
  | .fileResponse _ _ hash fileData => decide (hash.length = Config.hashW) && decide (fileData.length ≤ Config.fileDataMax)
  | .close => true
  | .connectedLimitation => true
  | .wrongListeningPort => true
  | .reject => true
  | .slow => true
  | .liar => true
  | .lowVersion => true

/-- The payload of a legal value before any enciphering (R171 to R198, R221). -/
def encPlain : Command → Bytes
  | .protocolHeader minor major => leU32 minor ++ major
  | .speed speed => leU32 speed
  | .connectionType link b1 b2 b3 => [linkCode link, byteOf b1, byteOf b2, byteOf b3]
  | .nodeDetails addr port host w0 w1 w2 =>
    addrBytes addr ++ leU32 port
      ++ [lenByte host.length, lenByte w0.length, lenByte w1.length, lenByte w2.length]
      ++ host ++ w0 ++ w1 ++ w2
  | .anotherNode addr sharingPort bbsPort isBbsNode speed w0 w1 w2 =>
    addrBytes addr ++ leU32 sharingPort ++ leU32 bbsPort ++ [byteOf isBbsNode] ++ leU32 speed
      ++ [lenByte w0.length, lenByte w1.length, lenByte w2.length] ++ w0 ++ w1 ++ w2
  | .bbsPort port => leU32 port
  | .diffusionRequest => []
  | .fileRequest taskId blockBegin blockSize hash fileSize =>
    leU32 taskId ++ leU32 blockBegin ++ leU32 blockSize ++ hash ++ leU32 fileSize
  | .conditionalDiffusionRequest keyword sign queryId =>
    pad keyword Config.cdrKeywordW ++ pad sign Config.cdrSignW ++ leU32 queryId
  | .query isResponse isDiffusion isDownstream isBbs queryId keyword sign via keys =>
    [byteOf isResponse, byteOf isDiffusion, byteOf isDownstream, byteOf isBbs] ++ leU32 queryId
      ++ [lenByte keyword.length] ++ keyword ++ pad sign Config.querySignW
      ++ [lenByte via.length] ++ via.flatMap encodeViaNode
      ++ leBytes 2 keys.length ++ keys.flatMap encodeKeyInfo
  | .fileResponse taskId blockBegin hash fileData => leU32 taskId ++ leU32 blockBegin ++ hash ++ fileData
  | .close => []
  | .connectedLimitation => []
  | .wrongListeningPort => []
  | .reject => []
  | .slow => []
  | .liar => []
  | .lowVersion => []

/-- `EncodePayload(v)` with `CTX[TX]` given and returned (R170, R171): FieldRangeError for an illegal value, then
ContextNotKeyed for a ProtocolHeader while the context is not keyed; a ProtocolHeader advances the context. -/
def encodePayload (v : Command) (tx : Option CipherState) : Except ErrKind (Bytes × Option CipherState) :=
  if legalCommand v then
    match v with
    | .protocolHeader minor major =>
      match tx with
      | none => .error .contextNotKeyed
      | some c =>
        .ok ((crypt c (encPlain (.protocolHeader minor major))).1,
          some (crypt c (encPlain (.protocolHeader minor major))).2)
    | _ => .ok (encPlain v, tx)
  else .error .fieldRangeError

end Sys2Proof.Machine
end

