-- ==== Sys2Proof/Machine/Envelope.lean ====
section
/-! DEFINITION. The command envelope (spec/43_envelope.md): RX_LOAD, the header parse, HDR_PEEK, FRM_DECODE, CMD_DECODE,
FRM_ENCODE and CMD_ENCODE; the shared receipt of one command frame, which the wire commands' meanings call; and
CACHE_BLOCK (spec/44_commands.md R191). -/

namespace Sys2Proof.Machine

/-! ### Receive path -/

/-- RX_LOAD (R150): RxDead, then FieldRangeError for an operand over IBUF_MAX (no latch); else IBUF is replaced whole. -/
def execRxLoad (b : Bytes) (s : State) : Host.Outcome State Fault Refusal :=
  settle false s (do
    requireRxLive s
    if Config.ibufFits b.length then
      return (({ s with ibuf := Memory.load b, ilen := b.length, cur := 0 }).setFlag .hdrv false).deliver .none
    else throw (.err .fieldRangeError))

/-- The five header bytes at offset `f` as length and opcode; FramingError when fewer than five are there (R151). -/
def readHeader (s : State) (f : Nat) : Except Stop (U32 × Byte) :=
  if s.ilen - f < 5 then .error (.err .framingError)
  else do
    let lb ← memRead s.ibuf f 4
    let ob ← memRead s.ibuf (f + 4) 1
    return (BitVec.ofNat 32 (leNat lb), ob.headD 0)

/-- `ParseHeader(f)` (R151): the header, FramingError when its length is 0. -/
def parseHeader (s : State) (f : Nat) : Except Stop (U32 × Byte) := do
  let h ← readHeader s f
  if h.1 = 0 then throw (.err .framingError) else return h

/-- `LEN <- L; OPC <- op; STATUS.HDRV <- 1` (R152, R153, R154). -/
def State.setHeader (s : State) (total : U32) (op : Byte) : State :=
  { s with len := total, opc := op }.setFlag .hdrv true

/-- What a full decode of the frame at `CUR` writes besides the header: `CNT <- 4 + L; CUR <- CUR + 4 + L` (R153, R154). -/
def State.consumeFrame (s : State) (total : U32) (op : Byte) : State :=
  let t := s.setHeader total op
  { t with cnt := BitVec.ofNat 33 (4 + total.toNat), cntWritten := true, cur := s.cur + 4 + total.toNat }

/-- HDR_PEEK (R152). -/
def execHdrPeek (s : State) : Host.Outcome State Fault Refusal :=
  settle true s (do
    requireRxLive s
    let (total, op) ← parseHeader s s.cur
    return (s.setHeader total op).deliver (.header total op))

/-- The header at `CUR` and the whole payload: FramingError when IBUF ends inside the frame (R153). -/
def parseFrame (s : State) : Except Stop (U32 × Byte × Bytes) := do
  let (total, op) ← parseHeader s s.cur
  if s.ilen - s.cur - 5 < total.toNat - 1 then throw (.err .framingError)
  else
    let p ← memRead s.ibuf (s.cur + 5) (total.toNat - 1)
    return (total, op, p)

/-- FRM_DECODE (R153). -/
def execFrmDecode (s : State) : Host.Outcome State Fault Refusal :=
  settle true s (do
    requireRxLive s
    let (total, op, p) ← parseFrame s
    return (s.consumeFrame total op).deliver (.frame op p))

/-- CMD_DECODE after the frame's extent is checked, for a documented opcode: DecodePayload, and on success everything at
once (R154, R280). -/
def acceptCommand (s : State) (v : Variant) (total : U32) (p : Bytes) : Except Stop State := do
  let (cmd, rx) ← orErr (decodePayload v p s.ctxRx)
  return ({ s.consumeFrame total (opcodeOf v) with ctxRx := rx }).deliver (.command cmd)

/-- CMD_DECODE (R154, with the order of checks of R155). -/
def execCmdDecode (s : State) : Host.Outcome State Fault Refusal :=
  settle true s (do
    requireRxLive s
    let (total, op, p) ← parseFrame s
    match variantOf op with
    | none => throw (.err .unknownOpcode)
    | some v => acceptCommand s v total p)

/-- The receipt of the frame of variant `v` that lies at the cursor, by CMD_DECODE: the checks of R155 from the length
field on, then `acceptCommand`. The meaning of a wire command is this for its variant. -/
def receiveFrame (v : Variant) (total : U32) (payload : Bytes) (s : State) : Host.Outcome State Fault Refusal :=
  settle true s (do
    requireRxLive s
    if total = 0 then throw (.err .framingError)
    else if s.ilen < s.cur + 4 + total.toNat then throw (.err .framingError)
    else acceptCommand s v total payload)

/-! ### Transmit path -/

/-- The frame of an opcode and payload: FieldRangeError when the length does not fit the u32 field (R156). -/
def frameBytes (op : Byte) (p : Bytes) : Except ErrKind Bytes :=
  if 4294967295 < 1 + p.length then .error .fieldRangeError
  else .ok (leBytes 4 (1 + p.length) ++ [op] ++ p)

/-- FRM_ENCODE (R156). -/
def execFrmEncode (op : Byte) (payload : Bytes) (s : State) : Host.Outcome State Fault Refusal :=
  pureOp s ((frameBytes op payload).map .bytes)

/-- CMD_ENCODE (R157): EncodePayload, then FRM_ENCODE; `CTX[TX]` is advanced for a ProtocolHeader, and only on success. -/
def execCmdEncode (v : Command) (s : State) : Host.Outcome State Fault Refusal :=
  settle false s (orErr (do
    let (p, tx) ← encodePayload v s.ctxTx
    let f ← frameBytes (opcodeOf (variantOfCommand v)) p
    return ({ s with ctxTx := tx }).deliver (.bytes f)))

/-- CACHE_BLOCK (R191): `file_data` zero-padded to exactly 65536 bytes; FieldRangeError for a longer operand. -/
def execCacheBlock (fileData : Bytes) (s : State) : Host.Outcome State Fault Refusal :=
  pureOp s
    (if Config.fileDataMax < fileData.length then .error .fieldRangeError
    else .ok (.bytes (pad fileData Config.fileDataMax)))

end Sys2Proof.Machine
end

