-- ==== Sys2Proof/Machine/Frames.lean ====
section
/-! DEFINITION. The meanings of the eighteen wire commands: what CMD_DECODE does on the frame at the cursor (R27: each
successful CMD_DECODE "executes one frame"). The variant's own decoder stands in Payload.lean. -/

namespace Sys2Proof.Machine

/-- ProtocolHeader, opcode 0 (R171, R172): refused while `CTX[RX]` is not keyed, advances it otherwise. -/
def execProtocolHeader (total : U32) (payload : Bytes) (s : State) : Host.Outcome State Fault Refusal :=
  receiveFrame .protocolHeader total payload s
/-- Speed, opcode 1 (R173, R174). -/
def execSpeed (total : U32) (payload : Bytes) (s : State) : Host.Outcome State Fault Refusal :=
  receiveFrame .speed total payload s
/-- ConnectionType, opcode 2 (R175). -/
def execConnectionType (total : U32) (payload : Bytes) (s : State) : Host.Outcome State Fault Refusal :=
  receiveFrame .connectionType total payload s
/-- NodeDetails, opcode 3 (R177). -/
def execNodeDetails (total : U32) (payload : Bytes) (s : State) : Host.Outcome State Fault Refusal :=
  receiveFrame .nodeDetails total payload s
/-- AnotherNode, opcode 4 (R179). -/
def execAnotherNode (total : U32) (payload : Bytes) (s : State) : Host.Outcome State Fault Refusal :=
  receiveFrame .anotherNode total payload s
/-- BBSPort, opcode 5 (R181). -/
def execBbsPort (total : U32) (payload : Bytes) (s : State) : Host.Outcome State Fault Refusal :=
  receiveFrame .bbsPort total payload s
/-- DiffusionRequest, opcode 10 (R183). -/
def execDiffusionRequest (total : U32) (payload : Bytes) (s : State) : Host.Outcome State Fault Refusal :=
  receiveFrame .diffusionRequest total payload s
/-- FileRequest, opcode 11 (R185). -/
def execFileRequest (total : U32) (payload : Bytes) (s : State) : Host.Outcome State Fault Refusal :=
  receiveFrame .fileRequest total payload s
/-- ConditionalDiffusionRequest, opcode 12 (R187). -/
def execConditionalDiffusionRequest (total : U32) (payload : Bytes) (s : State) : Host.Outcome State Fault Refusal :=
  receiveFrame .conditionalDiffusionRequest total payload s
/-- Query, opcode 13 (R221). -/
def execQuery (total : U32) (payload : Bytes) (s : State) : Host.Outcome State Fault Refusal :=
  receiveFrame .query total payload s
/-- FileResponse, opcode 21 (R189). -/
def execFileResponse (total : U32) (payload : Bytes) (s : State) : Host.Outcome State Fault Refusal :=
  receiveFrame .fileResponse total payload s
/-- Close, opcode 31 (R192): the block attaches no behaviour to the meaning of a close command. -/
def execClose (total : U32) (payload : Bytes) (s : State) : Host.Outcome State Fault Refusal :=
  receiveFrame .close total payload s
/-- ConnectedLimitation, opcode 32 (R193). -/
def execConnectedLimitation (total : U32) (payload : Bytes) (s : State) : Host.Outcome State Fault Refusal :=
  receiveFrame .connectedLimitation total payload s
/-- WrongListeningPort, opcode 33 (R194). -/
def execWrongListeningPort (total : U32) (payload : Bytes) (s : State) : Host.Outcome State Fault Refusal :=
  receiveFrame .wrongListeningPort total payload s
/-- Reject, opcode 34 (R195). -/
def execReject (total : U32) (payload : Bytes) (s : State) : Host.Outcome State Fault Refusal :=
  receiveFrame .reject total payload s
/-- Slow, opcode 35 (R196). -/
def execSlow (total : U32) (payload : Bytes) (s : State) : Host.Outcome State Fault Refusal :=
  receiveFrame .slow total payload s
/-- Liar, opcode 36 (R197). -/
def execLiar (total : U32) (payload : Bytes) (s : State) : Host.Outcome State Fault Refusal :=
  receiveFrame .liar total payload s
/-- LowVersion, opcode 97 (R198). -/
def execLowVersion (total : U32) (payload : Bytes) (s : State) : Host.Outcome State Fault Refusal :=
  receiveFrame .lowVersion total payload s

end Sys2Proof.Machine
end

