-- ==== Sys2Proof/Machine/Primitives.lean ====
section
/-! DEFINITION. The seven byte and value primitives as host operations (spec/40_primitives.md R100 to R106). None touches
any state but ERR (R42). -/

namespace Sys2Proof.Machine

/-- HEX_ENC (R100). -/
def execHexEnc (b : Bytes) (s : State) : Host.Outcome State Fault Refusal := pureOp s (.ok (.bytes (hexEnc b)))

/-- HEX_DEC (R101). -/
def execHexDec (t : Bytes) (s : State) : Host.Outcome State Fault Refusal := pureOp s ((hexDec t).map .bytes)

/-- TRUNC_NUL (R102). -/
def execTruncNul (b : Bytes) (s : State) : Host.Outcome State Fault Refusal := pureOp s (.ok (.bytes (truncNul b)))

/-- U32_LE (R103). -/
def execU32Le (n : U32) (s : State) : Host.Outcome State Fault Refusal := pureOp s (.ok (.bytes (leU32 n)))

/-- LE_UINT (R104). -/
def execLeUint (b : Bytes) (s : State) : Host.Outcome State Fault Refusal := pureOp s ((leUint b).map .nat)

/-- ADDR2B (R105). -/
def execAddr2b (t : Bytes) (s : State) : Host.Outcome State Fault Refusal := pureOp s ((addr2B t).map .bytes)

/-- B2ADDR (R106). -/
def execB2addr (o : Bytes) (s : State) : Host.Outcome State Fault Refusal := pureOp s ((b2Addr o).map .bytes)

end Sys2Proof.Machine
end

