-- ==== Sys2Proof/Machine/Token.lean ====
section
/-! DEFINITION. The address-token codec (spec/46_token.md): TOK_PACK and TOK_UNPACK. It uses a scratch cipher instance
and touches neither context (R39); the text is opaque bytes (R255). -/

namespace Sys2Proof.Machine

/-- `TokenKey(c) = [c] ++ TOKEN_CONST[1..13)` (R250). -/
def tokenKey (c : Byte) : Bytes := c :: Config.tokenSuffix

/-- The token of a text (R251). -/
def tokPack (a : Bytes) : Bytes :=
  [0x40] ++ hexEnc ([sumU8 a] ++ cryptFresh (tokenKey (sumU8 a)) a)

/-- The text of a token, with the errors of R253 in its order of test. -/
def tokUnpack (t : Bytes) : Except ErrKind Bytes :=
  if t.length < Config.tokenMin ∨ t.head? ≠ some 0x40 then .error .tokenFormatError
  else do
    let cb ← hexDec ((t.drop 1).take 2)
    let enc ← hexDec (t.drop 3)
    let c := cb.headD 0
    let d := cryptFresh (tokenKey c) enc
    if sumU8 d ≠ c then throw .checksumMismatch else return d

/-- TOK_PACK (R251). -/
def execTokPack (a : Bytes) (s : State) : Host.Outcome State Fault Refusal := pureOp s (.ok (.bytes (tokPack a)))

/-- TOK_UNPACK (R253). -/
def execTokUnpack (t : Bytes) (s : State) : Host.Outcome State Fault Refusal := pureOp s ((tokUnpack t).map .bytes)

end Sys2Proof.Machine
end

