-- ==== Sys2Proof/Machine/Dispatch.lean ====
section
/-! DEFINITION. `exec`: one arm per instruction of spec/opcode_table.json. -/

namespace Sys2Proof.Machine

def exec (i : Instr) (s : State) : Host.Outcome State Fault Refusal :=
  match i with
  | .protocolHeader total payload => Sys2Proof.Machine.execProtocolHeader total payload s
  | .speed total payload => Sys2Proof.Machine.execSpeed total payload s
  | .connectionType total payload => Sys2Proof.Machine.execConnectionType total payload s
  | .nodeDetails total payload => Sys2Proof.Machine.execNodeDetails total payload s
  | .anotherNode total payload => Sys2Proof.Machine.execAnotherNode total payload s
  | .bbsPort total payload => Sys2Proof.Machine.execBbsPort total payload s
  | .diffusionRequest total payload => Sys2Proof.Machine.execDiffusionRequest total payload s
  | .fileRequest total payload => Sys2Proof.Machine.execFileRequest total payload s
  | .conditionalDiffusionRequest total payload => Sys2Proof.Machine.execConditionalDiffusionRequest total payload s
  | .query total payload => Sys2Proof.Machine.execQuery total payload s
  | .fileResponse total payload => Sys2Proof.Machine.execFileResponse total payload s
  | .close total payload => Sys2Proof.Machine.execClose total payload s
  | .connectedLimitation total payload => Sys2Proof.Machine.execConnectedLimitation total payload s
  | .wrongListeningPort total payload => Sys2Proof.Machine.execWrongListeningPort total payload s
  | .reject total payload => Sys2Proof.Machine.execReject total payload s
  | .slow total payload => Sys2Proof.Machine.execSlow total payload s
  | .liar total payload => Sys2Proof.Machine.execLiar total payload s
  | .lowVersion total payload => Sys2Proof.Machine.execLowVersion total payload s
  | .hexEnc b => Sys2Proof.Machine.execHexEnc b s
  | .hexDec t => Sys2Proof.Machine.execHexDec t s
  | .truncNul b => Sys2Proof.Machine.execTruncNul b s
  | .u32Le n => Sys2Proof.Machine.execU32Le n s
  | .leUint b => Sys2Proof.Machine.execLeUint b s
  | .addr2b t => Sys2Proof.Machine.execAddr2b t s
  | .b2addr o => Sys2Proof.Machine.execB2addr o s
  | .sum8 b => Sys2Proof.Machine.execSum8 b s
  | .sum16 b => Sys2Proof.Machine.execSum16 b s
  | .sum32 b => Sys2Proof.Machine.execSum32 b s
  | .cNew d key => Sys2Proof.Machine.execCNew d key s
  | .cNewPh d => Sys2Proof.Machine.execCNewPh d s
  | .cCrypt d data => Sys2Proof.Machine.execCCrypt d data s
  | .rxLoad b => Sys2Proof.Machine.execRxLoad b s
  | .hdrPeek => Sys2Proof.Machine.execHdrPeek s
  | .frmDecode => Sys2Proof.Machine.execFrmDecode s
  | .cmdDecode => Sys2Proof.Machine.execCmdDecode s
  | .frmEncode op payload => Sys2Proof.Machine.execFrmEncode op payload s
  | .cmdEncode v => Sys2Proof.Machine.execCmdEncode v s
  | .kiDecode b => Sys2Proof.Machine.execKiDecode b s
  | .kiEncode k => Sys2Proof.Machine.execKiEncode k s
  | .cacheBlock fileData => Sys2Proof.Machine.execCacheBlock fileData s
  | .tokPack a => Sys2Proof.Machine.execTokPack a s
  | .tokUnpack t => Sys2Proof.Machine.execTokUnpack t s

end Sys2Proof.Machine
end

