-- ==== Sys2Proof/WellFormed.lean ====
section
/-! DEFINITION. Which instructions are well-formed: a frame's length field counts the opcode byte and the payload
(R60: `total_length == 1 + len(payload)`), and a key operand is at most `KEY_MAX` bytes long, since a longer one
"cannot be presented" (R131). Every other operand value can be presented (R273). -/

namespace Sys2Proof

/-- R60, R70: `total_length = 1 + len(payload)`. -/
def frameWellFormed (total : U32) (payload : Bytes) : Bool := decide (total.toNat = 1 + payload.length)

/-- The instruction's own operands fit together and can be presented to the block. -/
def Instr.wellFormed : Instr → Bool
  | .protocolHeader total payload => frameWellFormed total payload
  | .speed total payload => frameWellFormed total payload
  | .connectionType total payload => frameWellFormed total payload
  | .nodeDetails total payload => frameWellFormed total payload
  | .anotherNode total payload => frameWellFormed total payload
  | .bbsPort total payload => frameWellFormed total payload
  | .diffusionRequest total payload => frameWellFormed total payload
  | .fileRequest total payload => frameWellFormed total payload
  | .conditionalDiffusionRequest total payload => frameWellFormed total payload
  | .query total payload => frameWellFormed total payload
  | .fileResponse total payload => frameWellFormed total payload
  | .close total payload => frameWellFormed total payload
  | .connectedLimitation total payload => frameWellFormed total payload
  | .wrongListeningPort total payload => frameWellFormed total payload
  | .reject total payload => frameWellFormed total payload
  | .slow total payload => frameWellFormed total payload
  | .liar total payload => frameWellFormed total payload
  | .lowVersion total payload => frameWellFormed total payload
  | .hexEnc _ => true
  | .hexDec _ => true
  | .truncNul _ => true
  | .u32Le _ => true
  | .leUint _ => true
  | .addr2b _ => true
  | .b2addr _ => true
  | .sum8 _ => true
  | .sum16 _ => true
  | .sum32 _ => true
  | .cNew _ key => Config.keyFits key.length
  | .cNewPh _ => true
  | .cCrypt _ _ => true
  | .rxLoad _ => true
  | .hdrPeek => true
  | .frmDecode => true
  | .cmdDecode => true
  | .frmEncode _ _ => true
  | .cmdEncode _ => true
  | .kiDecode _ => true
  | .kiEncode _ => true
  | .cacheBlock _ => true
  | .tokPack _ => true
  | .tokUnpack _ => true

end Sys2Proof
end

