-- ==== Sys2Proof/Decode.lean ====
section
/-! DEFINITION. The decoder of both instruction formats and, after it, the encoder: frames by the opcode map of
spec/30_encoding.md R78, host requests by the `OPSEL` map of R90. Decoding is total and rejects by name. -/

namespace Sys2Proof

/-- Why bytes or a request are no instruction. -/
inductive DecodeError where
  /-- an `OPSEL` value outside R90; the step refuses it with BadOperation (R91) -/
  | badOperation (opsel : Byte)
  /-- an opcode outside R78; CMD_DECODE raises UnknownOpcode (R82) -/
  | unknownOpcode (op : Byte)
  /-- fewer than the five header bytes; CMD_DECODE raises FramingError (R151) -/
  | shortHeader
deriving DecidableEq, Repr

/-- The wire command of a variant. -/
def frameInstr (v : Variant) (total : U32) (payload : Bytes) : Instr :=
  match v with
  | .protocolHeader => .protocolHeader total payload
  | .speed => .speed total payload
  | .connectionType => .connectionType total payload
  | .nodeDetails => .nodeDetails total payload
  | .anotherNode => .anotherNode total payload
  | .bbsPort => .bbsPort total payload
  | .diffusionRequest => .diffusionRequest total payload
  | .fileRequest => .fileRequest total payload
  | .conditionalDiffusionRequest => .conditionalDiffusionRequest total payload
  | .query => .query total payload
  | .fileResponse => .fileResponse total payload
  | .close => .close total payload
  | .connectedLimitation => .connectedLimitation total payload
  | .wrongListeningPort => .wrongListeningPort total payload
  | .reject => .reject total payload
  | .slow => .slow total payload
  | .liar => .liar total payload
  | .lowVersion => .lowVersion total payload

/-- The wire command that begins a byte sequence (R60, R70, R72): the length field in the first four bytes, the opcode in
the fifth, then the payload, as much of it as the length field declares and the bytes hold. The opcode byte alone selects
the variant (R81); a wrong length is the meaning's to find, not the decoder's (R72). -/
def decodeFrame (bytes : Bytes) : Except DecodeError Instr :=
  match bytes with
  | b0 :: b1 :: b2 :: b3 :: op :: rest =>
    let total := BitVec.ofNat 32 (Machine.leNat [b0, b1, b2, b3])
    match Machine.variantOf op with
    | some v => .ok (frameInstr v total (rest.take (total.toNat - 1)))
    | none => .error (.unknownOpcode op)
  | _ => .error .shortHeader

/-- The host operation of a request, by its `OPSEL` (R90). -/
def decodeOp (r : Request) : Except DecodeError Instr :=
  match r.opsel.toNat with
  | 0x01 => .ok (.hexEnc r.args.bytes)
  | 0x02 => .ok (.hexDec r.args.bytes)
  | 0x03 => .ok (.truncNul r.args.bytes)
  | 0x04 => .ok (.u32Le r.args.word)
  | 0x05 => .ok (.leUint r.args.bytes)
  | 0x06 => .ok (.addr2b r.args.bytes)
  | 0x07 => .ok (.b2addr r.args.bytes)
  | 0x10 => .ok (.sum8 r.args.bytes)
  | 0x11 => .ok (.sum16 r.args.bytes)
  | 0x12 => .ok (.sum32 r.args.bytes)
  | 0x20 => .ok (.cNew r.args.dir r.args.bytes)
  | 0x21 => .ok (.cNewPh r.args.dir)
  | 0x22 => .ok (.cCrypt r.args.dir r.args.bytes)
  | 0x30 => .ok (.rxLoad r.args.bytes)
  | 0x31 => .ok .hdrPeek
  | 0x32 => .ok .frmDecode
  | 0x33 => .ok .cmdDecode
  | 0x38 => .ok (.frmEncode r.args.code r.args.bytes)
  | 0x39 => .ok (.cmdEncode r.args.command)
  | 0x3C => .ok (.kiDecode r.args.bytes)
  | 0x3D => .ok (.kiEncode r.args.keyInfo)
  | 0x3E => .ok (.cacheBlock r.args.bytes)
  | 0x40 => .ok (.tokPack r.args.bytes)
  | 0x41 => .ok (.tokUnpack r.args.bytes)
  | _ => .error (.badOperation r.opsel)

/-- The instruction of either presentation. -/
def decode : Code → Except DecodeError Instr
  | .frame bytes => decodeFrame bytes
  | .op r => decodeOp r

/-! ### The encoder -/

/-- The operand slots with every bit zero: empty byte sequences, RX, the command with opcode 0. -/
def zeroOperands : Operands where
  dir := .rx
  bytes := []
  word := 0
  code := 0
  command := .protocolHeader 0 []
  keyInfo :=
    { sharingAddr := ⟨0, 0, 0, 0⟩, sharingPort := 0, bbsAddr := ⟨0, 0, 0, 0⟩, bbsPort := 0, fileSize := 0,
      fileHash := [], name := [], nameSum := 0, sharingSig := [], bbsSig := [], ttl := 0, blockSize := 0,
      mtime := 0, ignore := false, version := 0 }

/-- A request whose only operand, if any, is a byte sequence. -/
def bytesRequest (opsel : Byte) (b : Bytes) : Request := ⟨opsel, { zeroOperands with bytes := b }⟩

/-- The bytes of a frame: length, opcode, payload (R60, R70). -/
def encodeFrame (v : Variant) (total : U32) (payload : Bytes) : Code :=
  .frame (Machine.leU32 total ++ [Machine.opcodeOf v] ++ payload)

/-- How an instruction is presented to the block (R70, R78, R90). -/
def encode : Instr → Code
  | .protocolHeader total payload => encodeFrame .protocolHeader total payload
  | .speed total payload => encodeFrame .speed total payload
  | .connectionType total payload => encodeFrame .connectionType total payload
  | .nodeDetails total payload => encodeFrame .nodeDetails total payload
  | .anotherNode total payload => encodeFrame .anotherNode total payload
  | .bbsPort total payload => encodeFrame .bbsPort total payload
  | .diffusionRequest total payload => encodeFrame .diffusionRequest total payload
  | .fileRequest total payload => encodeFrame .fileRequest total payload
  | .conditionalDiffusionRequest total payload => encodeFrame .conditionalDiffusionRequest total payload
  | .query total payload => encodeFrame .query total payload
  | .fileResponse total payload => encodeFrame .fileResponse total payload
  | .close total payload => encodeFrame .close total payload
  | .connectedLimitation total payload => encodeFrame .connectedLimitation total payload
  | .wrongListeningPort total payload => encodeFrame .wrongListeningPort total payload
  | .reject total payload => encodeFrame .reject total payload
  | .slow total payload => encodeFrame .slow total payload
  | .liar total payload => encodeFrame .liar total payload
  | .lowVersion total payload => encodeFrame .lowVersion total payload
  | .hexEnc b => .op (bytesRequest 0x01 b)
  | .hexDec t => .op (bytesRequest 0x02 t)
  | .truncNul b => .op (bytesRequest 0x03 b)
  | .u32Le n => .op ⟨0x04, { zeroOperands with word := n }⟩
  | .leUint b => .op (bytesRequest 0x05 b)
  | .addr2b t => .op (bytesRequest 0x06 t)
  | .b2addr o => .op (bytesRequest 0x07 o)
  | .sum8 b => .op (bytesRequest 0x10 b)
  | .sum16 b => .op (bytesRequest 0x11 b)
  | .sum32 b => .op (bytesRequest 0x12 b)
  | .cNew d key => .op ⟨0x20, { zeroOperands with dir := d, bytes := key }⟩
  | .cNewPh d => .op ⟨0x21, { zeroOperands with dir := d }⟩
  | .cCrypt d data => .op ⟨0x22, { zeroOperands with dir := d, bytes := data }⟩
  | .rxLoad b => .op (bytesRequest 0x30 b)
  | .hdrPeek => .op (bytesRequest 0x31 [])
  | .frmDecode => .op (bytesRequest 0x32 [])
  | .cmdDecode => .op (bytesRequest 0x33 [])
  | .frmEncode op payload => .op ⟨0x38, { zeroOperands with code := op, bytes := payload }⟩
  | .cmdEncode v => .op ⟨0x39, { zeroOperands with command := v }⟩
  | .kiDecode b => .op (bytesRequest 0x3C b)
  | .kiEncode k => .op ⟨0x3D, { zeroOperands with keyInfo := k }⟩
  | .cacheBlock fileData => .op (bytesRequest 0x3E fileData)
  | .tokPack a => .op (bytesRequest 0x40 a)
  | .tokUnpack t => .op (bytesRequest 0x41 t)

/-! ### Names -/

/-- The two formats of spec/opcode_table.json: frames (R70) and host requests (R90). -/
inductive Format where
  | frame
  | hostop
deriving DecidableEq, Repr

/-- What a row of spec/opcode_table.json matches on: the format, with the fifth byte of a frame (R72) or the `OPSEL` of a
request (R90). -/
def selector : Code → Format × Option Byte
  | .frame bytes => (.frame, bytes[4]?)
  | .op r => (.hostop, some r.opsel)

/-- The name of an instruction (R88: the variant names of R78 and the mnemonics of R90). "There are no pseudo-instructions:
every name denotes exactly one opcode or one operation. The seven close variants are seven distinct commands, not
aliases." -/
def mnemonic : Instr → String
  | .protocolHeader _ _ => "ProtocolHeader"
  | .speed _ _ => "Speed"
  | .connectionType _ _ => "ConnectionType"
  | .nodeDetails _ _ => "NodeDetails"
  | .anotherNode _ _ => "AnotherNode"
  | .bbsPort _ _ => "BBSPort"
  | .diffusionRequest _ _ => "DiffusionRequest"
  | .fileRequest _ _ => "FileRequest"
  | .conditionalDiffusionRequest _ _ => "ConditionalDiffusionRequest"
  | .query _ _ => "Query"
  | .fileResponse _ _ => "FileResponse"
  | .close _ _ => "Close"
  | .connectedLimitation _ _ => "ConnectedLimitation"
  | .wrongListeningPort _ _ => "WrongListeningPort"
  | .reject _ _ => "Reject"
  | .slow _ _ => "Slow"
  | .liar _ _ => "Liar"
  | .lowVersion _ _ => "LowVersion"
  | .hexEnc _ => "HEX_ENC"
  | .hexDec _ => "HEX_DEC"
  | .truncNul _ => "TRUNC_NUL"
  | .u32Le _ => "U32_LE"
  | .leUint _ => "LE_UINT"
  | .addr2b _ => "ADDR2B"
  | .b2addr _ => "B2ADDR"
  | .sum8 _ => "SUM8"
  | .sum16 _ => "SUM16"
  | .sum32 _ => "SUM32"
  | .cNew _ _ => "C_NEW"
  | .cNewPh _ => "C_NEW_PH"
  | .cCrypt _ _ => "C_CRYPT"
  | .rxLoad _ => "RX_LOAD"
  | .hdrPeek => "HDR_PEEK"
  | .frmDecode => "FRM_DECODE"
  | .cmdDecode => "CMD_DECODE"
  | .frmEncode _ _ => "FRM_ENCODE"
  | .cmdEncode _ => "CMD_ENCODE"
  | .kiDecode _ => "KI_DECODE"
  | .kiEncode _ => "KI_ENCODE"
  | .cacheBlock _ => "CACHE_BLOCK"
  | .tokPack _ => "TOK_PACK"
  | .tokUnpack _ => "TOK_UNPACK"

/-! ### Words of the opcode table -/

/-- The bytes of a table word of the `FRAME` format (R72: `H = le(frame[0..5))`), lowest first, followed by the payload of
zeros its length field declares, up to the 276 bytes of the longest fixed layout of R78. -/
def tableFrame (nbits w : Nat) : Bytes :=
  let header := Machine.leBytes (nbits / 8) w
  header ++ List.replicate (min (4 + w % 4294967296) 281 - header.length) 0

/-- The presentation of a table word: 8 bits are an `OPSEL` with operands of zeros, more are a frame (R72, R90). -/
def tableCode (nbits w : Nat) : Code :=
  if nbits ≤ 8 then .op ⟨BitVec.ofNat 8 w, zeroOperands⟩ else .frame (tableFrame nbits w)

/-- The instruction the decoder reads from a word numbered as spec/opcode_table.json numbers it. -/
def decodeTableWord (nbits w : Nat) : Option Instr :=
  match decode (tableCode nbits w) with
  | .ok i => some i
  | .error _ => none

end Sys2Proof
end

