-- ==== Sys2Proof/Machine/Fetch.lean ====
section
/-! DEFINITION. Fetching: the wire command that lies at the frame cursor (spec/10_state.md R27, "the block's program
counter"), and which instruction a host request makes the block run. -/

namespace Sys2Proof.Machine

/-- The bytes of the frame at `CUR`, as far as IBUF holds them: the header, and at most `total - 1` bytes of payload. -/
def frameBytesAt (s : State) : Except Stop Bytes := do
  let h ← readHeader s s.cur
  memRead s.ibuf s.cur (min (5 + (h.1.toNat - 1)) (s.ilen - s.cur))

/-- The wire command at `CUR`, if the bytes there decode to one. -/
def fetchFrame (s : State) : Option Instr :=
  match frameBytesAt s with
  | .error _ => none
  | .ok bytes =>
    match decodeFrame bytes with
    | .ok i => some i
    | .error _ => none

/-- The instruction a decoded host operation makes the block run: CMD_DECODE runs the wire command at the cursor where
there is one (R27), and is itself where there is none (a short header, an undocumented opcode); every other operation is
itself. -/
def resolve (i : Instr) (s : State) : Instr :=
  match i with
  | .cmdDecode =>
    match fetchFrame s with
    | some f => f
    | none => .cmdDecode
  | other => other

end Sys2Proof.Machine
end

