-- ==== Sys2Proof/Machine/Step.lean ====
section
/-! DEFINITION. One step of the block: the oldest thing the host does at the interface (spec/20_memory.md R59, R62). -/

namespace Sys2Proof.Machine

/-- A host operation: BadOperation for an `OPSEL` outside R90 (R91), else the instruction the request resolves to. -/
def stepOp (r : Request) (s : State) : Host.Outcome State Fault Refusal :=
  match decodeOp r with
  | .error _ => .next (s.raise false .badOperation)
  | .ok i => exec (resolve i s) s

/-- One step. With nothing pending "the block waits" (R311): the state stays. Reset (R310) leaves what the host has yet to
do; a register read (R22) changes only the read port. -/
def step (s : State) : Host.Outcome State Fault Refusal :=
  match s.host with
  | [] => .next s
  | .reset :: rest => .next { State.reset with host := rest }
  | .read r :: rest => .next ({ s with host := rest }.read r)
  | .op r :: rest => stepOp r { s with host := rest }

/-- `s` with a word of the opcode table where the step fetches its next instruction: an `OPSEL` word becomes the next host
request; a frame becomes the contents of IBUF with the cursor on it and CMD_DECODE as the next host request. -/
def State.withFetchWord (s : State) (nbits w : Nat) : State :=
  match tableCode nbits w with
  | .op r => { s with host := .op r :: s.host }
  | .frame bytes =>
    { s with
      ibuf := Memory.load bytes, ilen := bytes.length, cur := 0,
      host := .op (bytesRequest 0x33 []) :: s.host }

end Sys2Proof.Machine
end

