-- ==== Sys2Proof/Safety.lean ====
section
/-! DEFINITION. What counts as a safe state and a safe step, and the terms the statements use. -/

namespace Sys2Proof.Machine

/-! ### The invariant -/

/-- IBUF lists exactly the offsets `0 .. ILEN-1`, in order (R30: "of which bytes `0 .. ILEN-1` are valid"). -/
abbrev State.IbufValid (s : State) : Prop := s.ibuf.map Prod.fst = List.range s.ilen

/-- Every value 0..255 occurs exactly once (R36). -/
abbrev tableIsPermutation (t : Vector Byte 256) : Prop := ∀ v : Byte, t.toList.count v = 1

/-- A context that is keyed holds a permutation (R36). -/
abbrev contextValid (c : Option CipherState) : Prop := ∀ k, c = some k → tableIsPermutation k.table

/-- The STATUS rules of R23: bits 7:4 are 0, RXV and TXV copy the contexts' `valid` bits. -/
abbrev State.StatusValid (s : State) : Prop :=
  s.status &&& 0xF0#8 = 0#8 ∧ s.flag .rxv = s.ctxRx.isSome ∧ s.flag .txv = s.ctxTx.isSome

/-- The header registers (R25): while HDRV = 1, `LEN >= 1`; a `CNT` that has been written is 4 more than a length of 1 to
2^32 - 1. -/
abbrev State.HeaderValid (s : State) : Prop :=
  (s.flag .hdrv = true → 1 ≤ s.len.toNat) ∧
    (s.cntWritten = true → 5 ≤ s.cnt.toNat ∧ s.cnt.toNat ≤ 4 + 4294967295)

/-- The invariant of the block: R23, R25, R28 (`CUR <= ILEN <= IBUF_MAX`), R30, R36, R271 (ERR is a code 0..11). -/
structure State.Inv (s : State) : Prop where
  status  : s.StatusValid
  header  : s.HeaderValid
  cursor  : s.cur ≤ s.ilen
  extent  : Config.ibufFits s.ilen = true
  ibuf    : s.IbufValid
  rx      : contextValid s.ctxRx
  tx      : contextValid s.ctxTx
  errCode : s.err.toNat ≤ 11

/-- A step that goes on: it ends in a next state, in no fault and no refusal of the model. -/
abbrev State.SafeStep (s : State) : Prop := ∃ t, step s = .next t

/-! ### Outcomes, written out from R270, R280 and R281 -/

/-- Success of an operation that changes nothing but ERR and the result port. -/
def State.succeeds (s : State) (r : Result) : State := { s with err := 0, result := r }

/-- An error or refusal that latches nothing: only ERR is written, no result is delivered (R280, R281). -/
def State.failsWith (s : State) (code : Byte) : State := { s with err := code, result := .none }

/-- An error of HDR_PEEK, FRM_DECODE or CMD_DECODE: ERR and RXDEAD, bit 0 of STATUS, are written (R23, R280). -/
def State.diesWith (s : State) (code : Byte) : State :=
  { s with err := code, status := s.status ||| 0x01#8, result := .none }

/-- What a successful full decode of a frame writes (R153, R154): LEN, OPC, HDRV (bit 3 of STATUS), CNT, CUR, ERR. -/
def State.afterFrame (s : State) (total : U32) (op : Byte) (r : Result) : State :=
  { s with
    len := total, opc := op, status := s.status ||| 0x08#8,
    cnt := BitVec.ofNat 33 (4 + total.toNat), cntWritten := true, cur := s.cur + (4 + total.toNat),
    err := 0, result := r }

/-- The receive path is live and a frame of this length lies wholly in IBUF at the cursor (R155, steps 1 to 4). -/
abbrev State.Receivable (s : State) (total : U32) : Prop :=
  s.flag .rxDead = false ∧ 1 ≤ total.toNat ∧ s.cur + (4 + total.toNat) ≤ s.ilen

/-- The frame of an opcode and a payload, `total_length` first (R60, R70). -/
def frameOf (op : Byte) (p : Bytes) : Bytes := leU32 (BitVec.ofNat 32 (1 + p.length)) ++ [op] ++ p

/-! ### The receive buffer as bytes -/

/-- The bytes IBUF lists, in order. -/
def State.ibufBytes (s : State) : Bytes := s.ibuf.map Prod.snd

/-- The bytes from the cursor on. -/
def State.ahead (s : State) : Bytes := s.ibufBytes.drop s.cur

/-- A receive buffer the rules speak of: IBUF lists its `ILEN` bytes and the cursor is within them (R28, R30). -/
abbrev State.BufferValid (s : State) : Prop := s.IbufValid ∧ s.cur ≤ s.ilen

/-- The value of four little-endian length bytes (R50). -/
def lengthOf (b0 b1 b2 b3 : Byte) : Nat := b0.toNat + 256 * b1.toNat + 65536 * b2.toNat + 16777216 * b3.toNat

/-! ### Texts -/

/-- "0123456789abcdef" (R100). -/
def hexAlphabet : Bytes :=
  [0x30, 0x31, 0x32, 0x33, 0x34, 0x35, 0x36, 0x37, 0x38, 0x39, 0x61, 0x62, 0x63, 0x64, 0x65, 0x66]

/-- "ABCDEF", the upper-case digits HEX_DEC also accepts (R101). -/
def upperHexDigits : Bytes := [0x41, 0x42, 0x43, 0x44, 0x45, 0x46]

/-- A hex digit of either case (R101). -/
abbrev IsHexChar (c : Byte) : Prop := c ∈ hexAlphabet ∨ c ∈ upperHexDigits

/-- `lower(t)` on one character (R101). -/
def lowerHexChar (c : Byte) : Byte := if c ∈ upperHexDigits then c + 0x20 else c

/-- A part of a dotted quad that ADDR2B accepts: one to three digits, at most 255 (R105). -/
abbrev IsOctetText (p : Bytes) : Prop :=
  1 ≤ p.length ∧ p.length ≤ 3 ∧ (∀ c ∈ p, 0x30 ≤ c.toNat ∧ c.toNat ≤ 0x39) ∧ decimalValue p ≤ 255

/-- Four parts joined with `.` (R105, R106). -/
def joinDots (p0 p1 p2 p3 : Bytes) : Bytes := p0 ++ [0x2E] ++ p1 ++ [0x2E] ++ p2 ++ [0x2E] ++ p3

/-- A dotted quad of four accepted parts (R105). -/
abbrev IsDottedQuad (t : Bytes) : Prop :=
  ∃ p0 p1 p2 p3, t = joinDots p0 p1 p2 p3 ∧ IsOctetText p0 ∧ IsOctetText p1 ∧ IsOctetText p2 ∧ IsOctetText p3

/-- The decimal text of an octet with no leading zeros (R106). -/
abbrev IsDecimalOf (p : Bytes) (o : Byte) : Prop :=
  IsOctetText p ∧ decimalValue p = o.toNat ∧ (p.head? = some 0x30 → p = [0x30])

/-! ### Records on the wire -/

/-- `b` is `f` up to its first zero byte, or all of `f` if it has none (R74, R102). -/
abbrev IsCutAtZero (b f : Bytes) : Prop := b <+: f ∧ 0 ∉ b ∧ (b = f ∨ f[b.length]? = some 0)

/-- The size of the KeyInfo record that `r` begins with, `59 + name_len + bbs_sig_len` (R79, R225), if `r` holds all of it:
the name's length stands at offset 32, the signature's at `46 + name_len`. -/
def recordSize (r : Bytes) : Option Nat :=
  match r[32]? with
  | none => none
  | some nl =>
    match r[46 + nl.toNat]? with
    | none => none
    | some bl => if 59 + nl.toNat + bl.toNat ≤ r.length then some (59 + nl.toNat + bl.toNat) else none

/-- The offset in `p` after `n` KeyInfo records laid out from offset `o` on, if `p` holds all of them (R221). -/
def recordsEnd (p : Bytes) : Nat → Nat → Option Nat
  | 0, o => some o
  | n + 1, o =>
    match recordSize (p.drop o) with
    | none => none
    | some m => recordsEnd p n (o + m)

/-- `k` is the KeyInfo record that `r` begins with, field by field (R79, R225): the padded strings cut at their first zero
byte, the name deciphered under the first checksum byte alone, the checksum as it stands, any non-zero flag byte true. -/
structure KeyInfoAt (r : Bytes) (k : KeyInfo) : Prop where
  endpoints  : [k.sharingAddr.a, k.sharingAddr.b, k.sharingAddr.c, k.sharingAddr.d] ++ leU16 k.sharingPort
      ++ [k.bbsAddr.a, k.bbsAddr.b, k.bbsAddr.c, k.bbsAddr.d] ++ leU16 k.bbsPort ++ leU32 k.fileSize = r.take 16
  fileHash   : IsCutAtZero k.fileHash ((r.drop 16).take 16)
  nameLen    : (r[32]?).map BitVec.toNat = some k.name.length
  nameSum    : leU16 k.nameSum = (r.drop 33).take 2
  name       : k.name = cryptFresh ((r.drop 33).take 1) ((r.drop 35).take k.name.length)
  sharingSig : IsCutAtZero k.sharingSig ((r.drop (35 + k.name.length)).take 11)
  bbsSigLen  : (r[46 + k.name.length]?).map BitVec.toNat = some k.bbsSig.length
  bbsSig     : k.bbsSig = (r.drop (47 + k.name.length)).take k.bbsSig.length
  numbers    : leU16 k.ttl ++ leU32 k.blockSize ++ leU32 k.mtime =
      (r.drop (47 + k.name.length + k.bbsSig.length)).take 10
  ignore     : (r[57 + k.name.length + k.bbsSig.length]?).map (fun v => decide (v ≠ 0)) = some k.ignore
  version    : r[58 + k.name.length + k.bbsSig.length]? = some k.version

end Sys2Proof.Machine

namespace Sys2Proof

/-! ### Kinds of instruction -/

/-- The three receive decodes, whose errors latch RXDEAD (R280, R283); a wire command is run by CMD_DECODE. -/
def Instr.receives : Instr → Bool
  | .hdrPeek => true
  | .frmDecode => true
  | .cmdDecode => true
  | .protocolHeader _ _ => true
  | .speed _ _ => true
  | .connectionType _ _ => true
  | .nodeDetails _ _ => true
  | .anotherNode _ _ => true
  | .bbsPort _ _ => true
  | .diffusionRequest _ _ => true
  | .fileRequest _ _ => true
  | .conditionalDiffusionRequest _ _ => true
  | .query _ _ => true
  | .fileResponse _ _ => true
  | .close _ _ => true
  | .connectedLimitation _ _ => true
  | .wrongListeningPort _ _ => true
  | .reject _ _ => true
  | .slow _ _ => true
  | .liar _ _ => true
  | .lowVersion _ _ => true
  | _ => false

/-- The receive path of R68: RX_LOAD, the receive decodes, and C_* on RX. -/
def Instr.onReceivePath : Instr → Bool
  | .rxLoad _ => true
  | .cNew d _ => decide (d = .rx)
  | .cNewPh d => decide (d = .rx)
  | .cCrypt d _ => decide (d = .rx)
  | i => i.receives

/-- The transmit path of R68: FRM_ENCODE, CMD_ENCODE, and C_* on TX. -/
def Instr.onTransmitPath : Instr → Bool
  | .frmEncode _ _ => true
  | .cmdEncode _ => true
  | .cNew d _ => decide (d = .tx)
  | .cNewPh d => decide (d = .tx)
  | .cCrypt d _ => decide (d = .tx)
  | _ => false

/-- The stateless operations of R42: they "touch no state but ERR". -/
def Instr.stateless : Instr → Bool
  | .hexEnc _ => true
  | .hexDec _ => true
  | .truncNul _ => true
  | .u32Le _ => true
  | .leUint _ => true
  | .addr2b _ => true
  | .b2addr _ => true
  | .sum8 _ => true
  | .sum16 _ => true
  | .sum32 _ => true
  | .frmEncode _ _ => true
  | .kiDecode _ => true
  | .kiEncode _ => true
  | .cacheBlock _ => true
  | .tokPack _ => true
  | .tokUnpack _ => true
  | _ => false

/-- A Command whose KeyInfos carry the checksum of their names: what the decoder returns for an encoded value (R199,
R228). -/
def Command.withNameSums : Command → Command
  | .query r f ds bb q kw sg via keys =>
    .query r f ds bb q kw sg via (keys.map fun k => { k with nameSum := Machine.sumU16 k.name })
  | v => v

end Sys2Proof
end

