-- ==== Sys2Proof/Certificates/Slice0/Obligations.lean ====
section
/-! DEFINITION. The statements for the provers. Each `exec … = .next …` equation says the whole next state: every field of
State it does not name is as before, IBUF's bytes among them. -/

open Sys2Proof Sys2Proof.Machine

/-! ### Encoding, fetching, the step -/

/-- Decoding an encoded instruction gives it back, for every well-formed instruction (R60, R70, R78, R90). -/
def Obligations.DecodeOfEncodeIsIdentity : Prop :=
  ∀ i : Instr, i.wellFormed = true → decode (encode i) = .ok i

/-- The opcode map and the least payload lengths of R78, and no other opcode has a variant (R82). -/
def Obligations.OpcodeMapAsTabled : Prop :=
  ([(0, 4, .protocolHeader), (1, 4, .speed), (2, 4, .connectionType), (3, 12, .nodeDetails), (4, 20, .anotherNode),
    (5, 4, .bbsPort), (10, 0, .diffusionRequest), (11, 32, .fileRequest), (12, 276, .conditionalDiffusionRequest),
    (13, 23, .query), (21, 24, .fileResponse), (31, 0, .close), (32, 0, .connectedLimitation),
    (33, 0, .wrongListeningPort), (34, 0, .reject), (35, 0, .slow), (36, 0, .liar), (97, 0, .lowVersion)]
      : List (Nat × Nat × Variant)).all
      (fun r => decide (variantOf (BitVec.ofNat 8 r.1) = some r.2.2 ∧ minPayload r.2.2 = r.2.1)) = true ∧
  ∀ op : Byte, (variantOf op).isSome = true →
    op.toNat ∈ [0, 1, 2, 3, 4, 5, 10, 11, 12, 13, 21, 31, 32, 33, 34, 35, 36, 97]

/-- A few words decode to the instruction they stand for (R78, R90, and the examples of R173, R192). -/
def Obligations.SampleWordsDecode : Prop :=
  decodeFrame [0x05, 0, 0, 0, 0x01, 0x00, 0x00, 0xf0, 0x42] = .ok (.speed 5 [0x00, 0x00, 0xf0, 0x42]) ∧
  decodeFrame [0x01, 0, 0, 0, 0x1f] = .ok (.close 1 []) ∧
  decodeFrame [0x01, 0, 0, 0, 0x06] = .error (.unknownOpcode 6) ∧
  decodeOp ⟨0x33, zeroOperands⟩ = .ok .cmdDecode ∧
  decodeOp ⟨0x22, { zeroOperands with dir := .tx, bytes := [0x41] }⟩ = .ok (.cCrypt .tx [0x41])

/-- One step runs the oldest host operation (R62): the operation the request decodes to, with the request taken off the
queue; for CMD_DECODE the wire command at the cursor, if there is one, and itself if not. That requests stand in a queue of
State and that CMD_DECODE runs a wire command as an instruction are the model's choices (log entries 1, 10). -/
def Obligations.StepRunsTheDecodedInstruction : Prop :=
  ∀ (s : State) (r : Request) (rest : List HostEvent) (i : Instr), s.host = .op r :: rest → decodeOp r = .ok i →
    (i ≠ .cmdDecode → step s = exec i { s with host := rest }) ∧
    (i = .cmdDecode → ∀ f, fetchFrame s = some f → step s = exec f { s with host := rest }) ∧
    (i = .cmdDecode → fetchFrame s = none → step s = exec .cmdDecode { s with host := rest })

/-- The step fetches the wire command that the bytes from the cursor on decode to (R27, R70), and running it is what
CMD_DECODE does there (R154): the fetch of the step changes nothing. The fetch is the model's choice (log entry 10). -/
def Obligations.CmdDecodeRunsTheFrameAtTheCursor : Prop :=
  (∀ s : State, s.BufferValid →
    (∀ i : Instr, decodeFrame s.ahead = .ok i → fetchFrame s = some i) ∧
    (∀ e : DecodeError, decodeFrame s.ahead = .error e → fetchFrame s = none)) ∧
  ∀ (s : State) (i : Instr), fetchFrame s = some i → exec .cmdDecode s = exec i s

/-- "An `OPSEL` value not in rule R90 is refused with BadOperation (code 11); no state changes except `ERR`" (R91). -/
def Obligations.UnknownOpselIsRefused : Prop :=
  ∀ (s : State) (r : Request) (rest : List HostEvent), s.host = .op r :: rest →
    r.opsel.toNat ∉ [0x01, 0x02, 0x03, 0x04, 0x05, 0x06, 0x07, 0x10, 0x11, 0x12, 0x20, 0x21, 0x22, 0x30, 0x31, 0x32,
      0x33, 0x38, 0x39, 0x3C, 0x3D, 0x3E, 0x40, 0x41] →
    step s = .next ({ s with host := rest }.failsWith 11)

/-- Reset (R310, R311): the flags, ERR, CUR and ILEN are 0, no byte of IBUF is valid, both contexts are unkeyed, and LEN,
OPC and CNT hold no value, no full decode having written CNT. That the requests still to come stay queued is the model's choice (log entry 15). -/
def Obligations.ResetLeavesTheTabledState : Prop :=
  ∀ (s : State) (rest : List HostEvent), s.host = .reset :: rest →
    ∃ t, step s = .next t ∧ t.status = 0 ∧ t.err = 0 ∧ t.cur = 0 ∧ t.ilen = 0 ∧ (∀ a, t.ibuf.read a = none) ∧
      t.ctxRx = none ∧ t.ctxTx = none ∧ t.cntWritten = false ∧ t.readReg .len = none ∧ t.readReg .opc = none ∧ t.readReg .cnt = none ∧
      t.host = rest

/-- The host reads any register between any two operations (R22), and nothing of the block changes: a register that holds a
value gives it; STATUS bits 7:4 read as 0 (R23). LEN, OPC and CNT hold no value while HDRV is 0, and CNT none while HDRV is 1
but no full decode has written it since reset (R25: HDR_PEEK alone): that read is refused without a number and the run goes
on. A read is an event of the model's host queue, and what it gives, a refusal too, goes to the model's read port (log
entry 3). -/
def Obligations.RegisterReads : Prop :=
  ∀ (s : State) (rest : List HostEvent),
    (s.host = .read .status :: rest → step s = .next { s with host := rest, regOut := .value (s.status.toNat % 16) }) ∧
    (s.host = .read .err :: rest → step s = .next { s with host := rest, regOut := .value s.err.toNat }) ∧
    (s.host = .read .cur :: rest → step s = .next { s with host := rest, regOut := .value s.cur }) ∧
    (s.host = .read .ilen :: rest → step s = .next { s with host := rest, regOut := .value s.ilen }) ∧
    (s.flag .hdrv = true →
      (s.host = .read .len :: rest → step s = .next { s with host := rest, regOut := .value s.len.toNat }) ∧
      (s.host = .read .opc :: rest → step s = .next { s with host := rest, regOut := .value s.opc.toNat }) ∧
      (s.host = .read .cnt :: rest → s.cntWritten = true →
        step s = .next { s with host := rest, regOut := .value s.cnt.toNat }) ∧
      (s.host = .read .cnt :: rest → s.cntWritten = false →
        step s = .next { s with host := rest, regOut := .refused .cnt })) ∧
    (s.flag .hdrv = false → ∀ r ∈ [Reg.len, Reg.opc, Reg.cnt], s.host = .read r :: rest →
      step s = .next { s with host := rest, regOut := .refused r })

/-! ### The whole machine -/

/-- The invariant holds after reset (R311), LEN, OPC and CNT at the model's 0 (log entry 4). -/
def Obligations.ResetMeetsTheInvariant : Prop := State.Inv State.reset

/-- Every step keeps the invariant: the STATUS copies (R23), the header registers (R25), `CUR <= ILEN <= IBUF_MAX` (R28),
IBUF's extent (R30), permutations in keyed contexts (R36), ERR a code of R271. -/
def Obligations.StepKeepsTheInvariant : Prop :=
  ∀ s t : State, s.Inv → step s = .next t → t.Inv

/-- From every state of the invariant the step goes on, whatever the host does: no rule reads a byte of IBUF that holds no
value (R30, R200), so the model's own fault (log entry 6) is not reached, and no step ends in a refusal of the model, since
the spec's refusals are next states (R281) and so is a register read (R22). -/
def Obligations.NoFaultFromTheInvariant : Prop :=
  ∀ s : State, s.Inv → s.SafeStep

/-- R280 to R282, for every instruction: an outcome with ERR other than 0 has changed nothing but ERR, delivered nothing,
and written STATUS only in RXDEAD, only for a receive decode, and for an error (codes 1 to 8) and not a refusal. -/
def Obligations.FailuresChangeNothingElse : Prop :=
  ∀ (i : Instr) (s t : State), exec i s = .next t → t.err ≠ 0 →
    (t = s.failsWith t.err ∧ (i.receives = true → 9 ≤ t.err.toNat)) ∨
    (t = s.diesWith t.err ∧ i.receives = true ∧ t.err.toNat ≤ 8)

/-- The dead-receive latch (R283): it is set by every error of a receive decode and by nothing else; while it is set RX_LOAD
and the receive decodes are refused with RxDead; only reset clears it. -/
def Obligations.RxDeadLatch : Prop :=
  (∀ (i : Instr) (s t : State), s.flag .rxDead = false → exec i s = .next t →
    (t.flag .rxDead = true ↔ i.receives = true ∧ 1 ≤ t.err.toNat ∧ t.err.toNat ≤ 8)) ∧
  (∀ (i : Instr) (s : State), s.flag .rxDead = true → (i.receives = true ∨ ∃ b, i = .rxLoad b) →
    exec i s = .next (s.failsWith 10)) ∧
  ∀ s t : State, s.flag .rxDead = true → step s = .next t → t.flag .rxDead = true ∨ ∃ rest, s.host = .reset :: rest

/-- R22, R34, R42: which instructions write which state; CMD_DECODE writes `CTX[RX]` "for opcode 0 only". -/
def Obligations.StateIsWrittenOnlyByItsOwners : Prop :=
  ∀ (i : Instr) (s t : State), exec i s = .next t →
    (t.len ≠ s.len ∨ t.opc ≠ s.opc → i.receives = true ∧ t.err = 0) ∧
    (t.cnt ≠ s.cnt ∨ t.cntWritten ≠ s.cntWritten → i.receives = true ∧ i ≠ .hdrPeek ∧ t.err = 0) ∧
    (t.cur ≠ s.cur → (i.receives = true ∧ i ≠ .hdrPeek ∨ ∃ b, i = .rxLoad b) ∧ t.err = 0) ∧
    (t.ilen ≠ s.ilen ∨ t.ibuf ≠ s.ibuf → (∃ b, i = .rxLoad b) ∧ t.err = 0) ∧
    (t.ctxRx ≠ s.ctxRx → t.err = 0 ∧
      ((∃ k, i = .cNew .rx k) ∨ i = .cNewPh .rx ∨ (∃ b, i = .cCrypt .rx b) ∨ (∃ n p, i = .protocolHeader n p) ∨
        i = .cmdDecode ∧ t.opc = 0)) ∧
    (t.ctxTx ≠ s.ctxTx → t.err = 0 ∧
      ((∃ k, i = .cNew .tx k) ∨ i = .cNewPh .tx ∨ (∃ b, i = .cCrypt .tx b) ∨
        ∃ n m, i = .cmdEncode (.protocolHeader n m))) ∧
    t.host = s.host ∧ t.regOut = s.regOut

/-- R42: a stateless operation touches no state but ERR (and the model's result port), from every state, and its outcome
does not depend on the state. -/
def Obligations.StatelessOperationsTouchOnlyErr : Prop :=
  ∀ i : Instr, i.stateless = true → ∃ (e : Byte) (r : Result), ∀ s : State,
    exec i s = .next { s with err := e, result := r }

/-- R37, R68: a receive-path operation and a transmit-path operation commute but for ERR and the result port, and each
gives the error and result it gives alone. -/
def Obligations.ReceiveAndTransmitPathsCommute : Prop :=
  ∀ (i j : Instr) (s si sj sij sji : State), i.onReceivePath = true → j.onTransmitPath = true →
    exec i s = .next si → exec j s = .next sj → exec j si = .next sij → exec i sj = .next sji →
    { sij with err := 0, result := .none } = { sji with err := 0, result := .none } ∧
    sij.err = sj.err ∧ sij.result = sj.result ∧ sji.err = si.err ∧ sji.result = si.result

/-! ### Primitives (R100 to R106) -/

/-- HEX_ENC (R100): two lower-case hex digits a byte, high nibble first. -/
def Obligations.HexEncGivesTwoDigitsAByte : Prop :=
  (∀ a : Operands, decodeOp ⟨0x01, a⟩ = .ok (.hexEnc a.bytes)) ∧
  ∀ (b : Bytes) (s : State), ∃ t : Bytes,
    exec (.hexEnc b) s = .next (s.succeeds (.bytes t)) ∧ t.length = 2 * b.length ∧
    ∀ (i : Nat) (v : Byte), b[i]? = some v →
      t[2 * i]? = hexAlphabet[v.toNat / 16]? ∧ t[2 * i + 1]? = hexAlphabet[v.toNat % 16]?

/-- HEX_DEC (R101): the bytes `b` with `HexEnc(b) = lower(t)`, or EncodingError (4) on odd length or a byte that is no hex
digit. -/
def Obligations.HexDecInvertsOrEncodingError : Prop :=
  (∀ a : Operands, decodeOp ⟨0x02, a⟩ = .ok (.hexDec a.bytes)) ∧
  ∀ (t : Bytes) (s : State),
    (t.length % 2 = 0 ∧ (∀ c ∈ t, IsHexChar c) →
      ∃ b : Bytes, exec (.hexDec t) s = .next (s.succeeds (.bytes b)) ∧ hexEnc b = t.map lowerHexChar) ∧
    (t.length % 2 = 1 ∨ (∃ c ∈ t, ¬ IsHexChar c) → exec (.hexDec t) s = .next (s.failsWith 4))

/-- TRUNC_NUL (R102): the prefix before the first zero byte, or the whole input if there is none. -/
def Obligations.TruncNulStopsAtTheFirstZero : Prop :=
  (∀ a : Operands, decodeOp ⟨0x03, a⟩ = .ok (.truncNul a.bytes)) ∧
  ∀ (b : Bytes) (s : State), ∃ p : Bytes,
    exec (.truncNul b) s = .next (s.succeeds (.bytes p)) ∧ p <+: b ∧ 0 ∉ p ∧ (p = b ∨ b[p.length]? = some 0)

/-- U32_LE (R103): `[n[7:0], n[15:8], n[23:16], n[31:24]]`; LE_UINT (R104): the sum of `b[i] * 256^i`, never truncated, and
FieldRangeError (2) on the empty operand. -/
def Obligations.LittleEndianIntegers : Prop :=
  (∀ a : Operands, decodeOp ⟨0x04, a⟩ = .ok (.u32Le a.word)) ∧
  (∀ a : Operands, decodeOp ⟨0x05, a⟩ = .ok (.leUint a.bytes)) ∧
  (∀ (n : U32) (s : State), exec (.u32Le n) s = .next (s.succeeds (.bytes
    [n.extractLsb' 0 8, n.extractLsb' 8 8, n.extractLsb' 16 8, n.extractLsb' 24 8]))) ∧
  ∀ (b : Bytes) (s : State),
    (b ≠ [] → exec (.leUint b) s = .next (s.succeeds (.nat (∑ i : Fin b.length, (b.get i).toNat * 256 ^ i.val)))) ∧
    (b = [] → exec (.leUint b) s = .next (s.failsWith 2))

/-- ADDR2B (R105): a dotted quad of parts of one to three digits, each at most 255, gives their values; every other text is
AddressFormatError (5). -/
def Obligations.Addr2bParsesDottedQuads : Prop :=
  (∀ a : Operands, decodeOp ⟨0x06, a⟩ = .ok (.addr2b a.bytes)) ∧
  ∀ s : State,
    (∀ p0 p1 p2 p3 : Bytes, IsOctetText p0 → IsOctetText p1 → IsOctetText p2 → IsOctetText p3 →
      exec (.addr2b (joinDots p0 p1 p2 p3)) s = .next (s.succeeds (.bytes
        [BitVec.ofNat 8 (decimalValue p0), BitVec.ofNat 8 (decimalValue p1), BitVec.ofNat 8 (decimalValue p2),
          BitVec.ofNat 8 (decimalValue p3)]))) ∧
    ∀ t : Bytes, ¬ IsDottedQuad t → exec (.addr2b t) s = .next (s.failsWith 5)

/-- B2ADDR (R106): four decimal octets without leading zeros joined by `.`, 7 to 15 characters, which ADDR2B reads back;
FieldRangeError (2) unless there are exactly four bytes. -/
def Obligations.B2addrJoinsAndAddr2bReadsBack : Prop :=
  (∀ a : Operands, decodeOp ⟨0x07, a⟩ = .ok (.b2addr a.bytes)) ∧
  (∀ (a b c d : Byte) (s : State), ∃ p0 p1 p2 p3 : Bytes,
    IsDecimalOf p0 a ∧ IsDecimalOf p1 b ∧ IsDecimalOf p2 c ∧ IsDecimalOf p3 d ∧
    exec (.b2addr [a, b, c, d]) s = .next (s.succeeds (.bytes (joinDots p0 p1 p2 p3))) ∧
    7 ≤ (joinDots p0 p1 p2 p3).length ∧ (joinDots p0 p1 p2 p3).length ≤ 15 ∧
    exec (.addr2b (joinDots p0 p1 p2 p3)) s = .next (s.succeeds (.bytes [a, b, c, d]))) ∧
  ∀ (o : Bytes) (s : State), o.length ≠ 4 → exec (.b2addr o) s = .next (s.failsWith 2)

/-! ### Checksums (R120 to R123) -/

/-- SUM8, SUM16, SUM32 (R120, R121, R122): the loop that reduces modulo 2^N at every step; `sum16 == sum32 & 0xFFFF`, and
SUM8 is SUM32 modulo 256. -/
def Obligations.ChecksumsFollowTheLoops : Prop :=
  (∀ a : Operands, decodeOp ⟨0x10, a⟩ = .ok (.sum8 a.bytes) ∧ decodeOp ⟨0x11, a⟩ = .ok (.sum16 a.bytes) ∧
    decodeOp ⟨0x12, a⟩ = .ok (.sum32 a.bytes)) ∧
  (∀ (b : Bytes) (s : State),
    exec (.sum8 b) s = .next (s.succeeds (.u8 (BitVec.ofNat 8 (b.foldl (fun a v => (a + v.toNat) % 256) 0)))) ∧
    exec (.sum16 b) s = .next (s.succeeds (.u16 (BitVec.ofNat 16 (b.foldl (fun a v => (a + v.toNat) % 65536) 0)))) ∧
    exec (.sum32 b) s =
      .next (s.succeeds (.u32 (BitVec.ofNat 32 (b.foldl (fun a v => (a + v.toNat) % 4294967296) 0))))) ∧
  ∀ b : Bytes, (sumU16 b).toNat = (sumU32 b).toNat % 65536 ∧ (sumU8 b).toNat = (sumU32 b).toNat % 256 ∧
    (sumU8 b).toNat = (sumU16 b).toNat % 256

/-- R123: summing the naturals and reducing once is the sum the operations give, sums of concatenations add, and changing
one byte changes SUM8 by the difference, which is not 0. -/
def Obligations.ChecksumLaws : Prop :=
  (∀ b : Bytes, (sumU8 b).toNat = (b.map BitVec.toNat).sum % 256 ∧ (sumU16 b).toNat = (b.map BitVec.toNat).sum % 65536 ∧
    (sumU32 b).toNat = (b.map BitVec.toNat).sum % 4294967296) ∧
  (∀ a b : Bytes, sumU8 (a ++ b) = sumU8 a + sumU8 b ∧ sumU16 (a ++ b) = sumU16 a + sumU16 b ∧
    sumU32 (a ++ b) = sumU32 a + sumU32 b) ∧
  ∀ (a c : Bytes) (v w : Byte), sumU8 (a ++ w :: c) - sumU8 (a ++ v :: c) = w - v ∧
    (w ≠ v → sumU8 (a ++ w :: c) ≠ sumU8 (a ++ v :: c))

/-! ### The cipher engine (R131 to R140) -/

/-- `KeySchedule` (R132, R133): an empty truncated key gives the identity table; any other the table after the 256 rounds
`j <- j + S[i] + k[i mod n]; swap S[i], S[j]` from the identity; `x = y = 0` either way. The spec took the update of `j`
and the starting indices from general knowledge (log entry 13) and chose the identity for the empty key (log entry 14). -/
def Obligations.KeyScheduleFollowsTheRounds : Prop :=
  ∀ key : Bytes,
    (truncNul key = [] →
      (keySchedule key).x = 0 ∧ (keySchedule key).y = 0 ∧
      ∀ (i : Nat) (h : i < 256), (keySchedule key).table[i] = BitVec.ofNat 8 i) ∧
    (truncNul key ≠ [] → ∃ (S : Nat → Vector Byte 256) (j : Nat → Byte),
      (∀ (i : Nat) (h : i < 256), (S 0)[i] = BitVec.ofNat 8 i) ∧ j 0 = 0 ∧
      (∀ (i : Nat) (h : i < 256),
        j (i + 1) = j i + (S i)[i] + (truncNul key).getD (i % (truncNul key).length) 0 ∧
        S (i + 1) = (S i).swap i (j (i + 1)).toNat h (j (i + 1)).isLt) ∧
      keySchedule key = ⟨S 256, 0, 0⟩)

/-- `Crypt` (R135): `x <- x + 1; y <- y + S[x]; swap S[x], S[y]; out = data xor S[S[x] + S[y]]` for each byte.
The spec took the update of `y` from general knowledge (log entry 13). -/
def Obligations.CryptFollowsTheGenerator : Prop :=
  ∀ (c : CipherState) (data : Bytes), ∃ (S : Nat → Vector Byte 256) (x y : Nat → Byte),
    S 0 = c.table ∧ x 0 = c.x ∧ y 0 = c.y ∧
    (∀ t : Nat, x (t + 1) = x t + 1 ∧ y (t + 1) = y t + tableAt (S t) (x (t + 1)) ∧
      S (t + 1) = (S t).swap (x (t + 1)).toNat (y (t + 1)).toNat (x (t + 1)).isLt (y (t + 1)).isLt) ∧
    (∀ (t : Nat) (v : Byte), data[t]? = some v →
      (crypt c data).1[t]? = some (v ^^^
        tableAt (S (t + 1)) (tableAt (S (t + 1)) (x (t + 1)) + tableAt (S (t + 1)) (y (t + 1))))) ∧
    (crypt c data).1.length = data.length ∧
    (crypt c data).2 = ⟨S data.length, x data.length, y data.length⟩

/-- C_NEW and C_NEW_PH (R131, R138): the context is keyed, RXV (bit 1) or TXV (bit 2) set, ERR 0, and nothing else
changes. -/
def Obligations.KeyingSetsOneContext : Prop :=
  (∀ a : Operands, decodeOp ⟨0x20, a⟩ = .ok (.cNew a.dir a.bytes) ∧ decodeOp ⟨0x21, a⟩ = .ok (.cNewPh a.dir)) ∧
  ∀ (key : Bytes) (s : State),
    exec (.cNew .rx key) s =
      .next { s with ctxRx := some (keySchedule key), status := s.status ||| 0x02#8, err := 0, result := .none } ∧
    exec (.cNew .tx key) s =
      .next { s with ctxTx := some (keySchedule key), status := s.status ||| 0x04#8, err := 0, result := .none } ∧
    exec (.cNewPh .rx) s =
      .next { s with ctxRx := some (keySchedule Config.phKey), status := s.status ||| 0x02#8, err := 0, result := .none } ∧
    exec (.cNewPh .tx) s =
      .next { s with ctxTx := some (keySchedule Config.phKey), status := s.status ||| 0x04#8, err := 0, result := .none }

/-- C_CRYPT (R134): the same number of bytes out, the context advanced, nothing else; ContextNotKeyed (9) otherwise. -/
def Obligations.CCryptUsesOneContext : Prop :=
  (∀ a : Operands, decodeOp ⟨0x22, a⟩ = .ok (.cCrypt a.dir a.bytes)) ∧
  ∀ (d : Dir) (data : Bytes) (s : State),
    (∀ c, s.ctx d = some c → ∃ out : Bytes, out.length = data.length ∧
      exec (.cCrypt d data) s = .next ((s.setCtx d (some (crypt c data).2)).succeeds (.bytes out)) ∧
      out = (crypt c data).1) ∧
    (s.ctx d = none → exec (.cCrypt d data) s = .next (s.failsWith 9)) ∧
    (∀ c, s.ctx d = some c → exec (.cCrypt d []) s = .next (s.succeeds (.bytes [])))

/-- R137: ciphering `a` then `b` on one context is ciphering `a ++ b`: the same bytes and the same state. -/
def Obligations.CipherContinuation : Prop :=
  ∀ (d : Dir) (a b : Bytes) (s : State), (s.ctx d).isSome = true → ∃ (s1 s2 : State) (o1 o2 : Bytes),
    exec (.cCrypt d a) s = .next s1 ∧ s1.result = .bytes o1 ∧
    exec (.cCrypt d b) s1 = .next s2 ∧ s2.result = .bytes o2 ∧
    exec (.cCrypt d (a ++ b)) s = .next (s2.succeeds (.bytes (o1 ++ o2)))

/-- R136: two contexts in the same state undo each other and stay in step, across blocks and directions. -/
def Obligations.CipherSelfInverse : Prop :=
  ∀ (d e : Dir) (c : CipherState) (data : Bytes) (s t : State), s.ctx d = some c → t.ctx e = some c →
    ∃ (s' t' : State) (o : Bytes), exec (.cCrypt d data) s = .next s' ∧ s'.result = .bytes o ∧
      exec (.cCrypt e o) t = .next t' ∧ t'.result = .bytes data ∧ t'.ctx e = s'.ctx d

/-! ### The envelope (R150 to R158) -/

/-- RX_LOAD (R150): IBUF holds exactly the operand, CUR 0, HDRV (bit 3) cleared; FieldRangeError (2) without latch when
over IBUF_MAX; refused (10) while RXDEAD. -/
def Obligations.RxLoadReplacesTheBuffer : Prop :=
  (∀ a : Operands, decodeOp ⟨0x30, a⟩ = .ok (.rxLoad a.bytes)) ∧
  ∀ (b : Bytes) (s : State),
    (s.flag .rxDead = true → exec (.rxLoad b) s = .next (s.failsWith 10)) ∧
    (s.flag .rxDead = false → ∃ m : Memory, m.wf = true ∧ (∀ a : Nat, m.read a = b[a]?) ∧
      exec (.rxLoad b) s = .next
        (if Config.ibufFits b.length = true then
          { s with ibuf := m, ilen := b.length, cur := 0, status := s.status &&& 0xF7#8, err := 0, result := .none }
        else s.failsWith 2))

/-- HDR_PEEK (R151, R152): FramingError with latch below five bytes or for length 0, else LEN, OPC and HDRV and nothing
else. -/
def Obligations.HdrPeekReadsTheHeader : Prop :=
  (∀ a : Operands, decodeOp ⟨0x31, a⟩ = .ok .hdrPeek) ∧
  ∀ s : State, s.BufferValid →
    (s.flag .rxDead = true → exec .hdrPeek s = .next (s.failsWith 10)) ∧
    (s.flag .rxDead = false → s.ahead.length < 5 → exec .hdrPeek s = .next (s.diesWith 1)) ∧
    ∀ (b0 b1 b2 b3 op : Byte) (rest : Bytes), s.flag .rxDead = false → s.ahead = b0 :: b1 :: b2 :: b3 :: op :: rest →
      (lengthOf b0 b1 b2 b3 = 0 → exec .hdrPeek s = .next (s.diesWith 1)) ∧
      (lengthOf b0 b1 b2 b3 ≠ 0 → exec .hdrPeek s = .next { s with
        len := BitVec.ofNat 32 (lengthOf b0 b1 b2 b3), opc := op, status := s.status ||| 0x08#8, err := 0,
        result := .header (BitVec.ofNat 32 (lengthOf b0 b1 b2 b3)) op })

/-- FRM_DECODE (R153): the payload as it stands, for every opcode; FramingError with latch for a bad header or a payload
not wholly in IBUF. -/
def Obligations.FrmDecodeSlicesTheFrame : Prop :=
  (∀ a : Operands, decodeOp ⟨0x32, a⟩ = .ok .frmDecode) ∧
  ∀ s : State, s.BufferValid →
    (s.flag .rxDead = true → exec .frmDecode s = .next (s.failsWith 10)) ∧
    (s.flag .rxDead = false → s.ahead.length < 5 → exec .frmDecode s = .next (s.diesWith 1)) ∧
    ∀ (b0 b1 b2 b3 op : Byte) (rest : Bytes), s.flag .rxDead = false → s.ahead = b0 :: b1 :: b2 :: b3 :: op :: rest →
      (lengthOf b0 b1 b2 b3 = 0 ∨ rest.length + 1 < lengthOf b0 b1 b2 b3 →
        exec .frmDecode s = .next (s.diesWith 1)) ∧
      ∀ p more : Bytes, rest = p ++ more → lengthOf b0 b1 b2 b3 = 1 + p.length →
        exec .frmDecode s = .next (s.afterFrame (BitVec.ofNat 32 (1 + p.length)) op (.frame op p))

/-- CMD_DECODE (R154, R155): the checks in their order, the variant's own error with latch, and on success the Command with
everything FRM_DECODE writes. -/
def Obligations.CmdDecodeChecksInOrder : Prop :=
  (∀ a : Operands, decodeOp ⟨0x33, a⟩ = .ok .cmdDecode) ∧
  ∀ s : State, s.BufferValid →
    (s.flag .rxDead = true → exec .cmdDecode s = .next (s.failsWith 10)) ∧
    (s.flag .rxDead = false → s.ahead.length < 5 → exec .cmdDecode s = .next (s.diesWith 1)) ∧
    ∀ (b0 b1 b2 b3 op : Byte) (rest : Bytes), s.flag .rxDead = false → s.ahead = b0 :: b1 :: b2 :: b3 :: op :: rest →
      (lengthOf b0 b1 b2 b3 = 0 ∨ rest.length + 1 < lengthOf b0 b1 b2 b3 →
        exec .cmdDecode s = .next (s.diesWith 1)) ∧
      ∀ p more : Bytes, rest = p ++ more → lengthOf b0 b1 b2 b3 = 1 + p.length →
        (variantOf op = none → exec .cmdDecode s = .next (s.diesWith 8)) ∧
        (op = 0 → s.ctxRx = none → exec .cmdDecode s = .next (s.failsWith 9)) ∧
        ∀ v : Variant, variantOf op = some v → (op = 0 → s.ctxRx.isSome = true) →
          (p.length < minPayload v ∨ op = 12 ∧ p.length ≠ 276 → exec .cmdDecode s = .next (s.diesWith 1)) ∧
          (∀ k : ErrKind, decodePayload v p s.ctxRx = .error k → exec .cmdDecode s = .next (s.diesWith k.code)) ∧
          ∀ (cmd : Command) (rx : Option CipherState), decodePayload v p s.ctxRx = .ok (cmd, rx) →
            exec .cmdDecode s = .next
              { s.afterFrame (BitVec.ofNat 32 (1 + p.length)) op (.command cmd) with ctxRx := rx }

/-- FRM_ENCODE (R156): `le_4(1 + len(P)) ++ [op] ++ P` for every opcode; FieldRangeError when the length does not fit. -/
def Obligations.FrmEncodePrependsTheHeader : Prop :=
  (∀ a : Operands, decodeOp ⟨0x38, a⟩ = .ok (.frmEncode a.code a.bytes)) ∧
  ∀ (op : Byte) (p : Bytes) (s : State),
    (1 + p.length ≤ 4294967295 → ∃ b0 b1 b2 b3 : Byte, lengthOf b0 b1 b2 b3 = 1 + p.length ∧
      exec (.frmEncode op p) s = .next (s.succeeds (.bytes (b0 :: b1 :: b2 :: b3 :: op :: p)))) ∧
    (4294967295 < 1 + p.length → exec (.frmEncode op p) s = .next (s.failsWith 2))

/-- R158, first sentence: loading FRM_ENCODE(op, P) and issuing FRM_DECODE returns (op, P) and advances CUR by
`5 + len(P)`. -/
def Obligations.FrameRoundTrip : Prop :=
  ∀ (op : Byte) (p : Bytes) (s : State), p.length ≤ 4294967294 → Config.ibufFits (5 + p.length) = true →
    s.flag .rxDead = false → ∃ (f : Bytes) (s1 s2 s3 : State),
      exec (.frmEncode op p) s = .next s1 ∧ s1.result = .bytes f ∧ exec (.rxLoad f) s1 = .next s2 ∧
      exec .frmDecode s2 = .next s3 ∧ s3.result = .frame op p ∧ s3.err = 0 ∧ s3.cur = s2.cur + (5 + p.length)

/-- R158, R199: for every legal Command but a ProtocolHeader, a block with CMD_ENCODE(v) at its cursor, whatever follows,
decodes it to `v`, each KeyInfo with the checksum of its name (R228), and consumes the whole frame. -/
def Obligations.CommandRoundTrip : Prop :=
  ∀ (v : Command) (s : State), legalCommand v = true → (∀ m j, v ≠ .protocolHeader m j) →
    ∃ f : Bytes, exec (.cmdEncode v) s = .next (s.succeeds (.bytes f)) ∧
      ∀ (r : State) (more : Bytes), r.BufferValid → r.flag .rxDead = false → r.ahead = f ++ more →
        ∃ total : U32, 4 + total.toNat = f.length ∧ exec .cmdDecode r =
          .next (r.afterFrame total (opcodeOf (variantOfCommand v)) (.command v.withNameSums))

/-- R158 for ProtocolHeader: a block whose CTX[RX] is in the state the sender's CTX[TX] was in decodes what was encoded, and
the two contexts end equal (R136, R172). -/
def Obligations.ProtocolHeaderRoundTrip : Prop :=
  ∀ (m : U32) (j : Bytes) (c : CipherState) (s : State), j.length ≤ 4294967290 → s.ctxTx = some c →
    ∃ (f : Bytes) (s1 : State), exec (.cmdEncode (.protocolHeader m j)) s = .next s1 ∧ s1.result = .bytes f ∧
      s1.err = 0 ∧ s1.ctxRx = s.ctxRx ∧ f.length = 9 + j.length ∧
      ∀ (r : State) (more : Bytes), r.BufferValid → r.flag .rxDead = false → r.ahead = f ++ more → r.ctxRx = some c →
        ∃ total : U32, 4 + total.toNat = f.length ∧ exec .cmdDecode r =
          .next { r.afterFrame total 0 (.command (.protocolHeader m j)) with ctxRx := s1.ctxTx }

/-- CMD_ENCODE (R157, R170): a legal value is framed with its payload and nothing but CTX[TX] of a ProtocolHeader changes;
FieldRangeError (2) for an illegal value, whatever the context; ContextNotKeyed (9) for a legal ProtocolHeader while
CTX[TX] is not keyed. -/
def Obligations.CmdEncodeFramesThePayload : Prop :=
  (∀ a : Operands, decodeOp ⟨0x39, a⟩ = .ok (.cmdEncode a.command)) ∧
  ∀ s : State,
    (∀ v : Command, legalCommand v = false → exec (.cmdEncode v) s = .next (s.failsWith 2)) ∧
    (∀ (m : U32) (j : Bytes), j.length ≤ 4294967290 → s.ctxTx = none →
      exec (.cmdEncode (.protocolHeader m j)) s = .next (s.failsWith 9)) ∧
    ∀ (v : Command) (p : Bytes) (tx : Option CipherState), encodePayload v s.ctxTx = .ok (p, tx) →
      exec (.cmdEncode v) s =
        .next ({ s with ctxTx := tx }.succeeds (.bytes (frameOf (opcodeOf (variantOfCommand v)) p))) ∧
      ((∀ m j, v ≠ .protocolHeader m j) → tx = s.ctxTx)

/-- CACHE_BLOCK (R191): the operand followed by zeros to exactly 65536 bytes; FieldRangeError for a longer one. -/
def Obligations.CacheBlockPadsTo65536 : Prop :=
  (∀ a : Operands, decodeOp ⟨0x3E, a⟩ = .ok (.cacheBlock a.bytes)) ∧
  ∀ (d : Bytes) (s : State),
    (d.length ≤ 65536 → ∃ z : Bytes, (∀ v ∈ z, v = 0) ∧ (d ++ z).length = 65536 ∧
      exec (.cacheBlock d) s = .next (s.succeeds (.bytes (d ++ z)))) ∧
    (65536 < d.length → exec (.cacheBlock d) s = .next (s.failsWith 2))

/-! ### The wire commands (R170 to R198, R221) -/

/-- R155, R170, R274: a wire command not wholly in IBUF, of length 0, or with a payload below its variant's minimum is
FramingError with latch. -/
def Obligations.ShortFramesAreFramingErrors : Prop :=
  ∀ (v : Variant) (total : U32) (p : Bytes) (s : State), s.flag .rxDead = false →
    (total = 0 ∨ s.ilen < s.cur + (4 + total.toNat) → exec (frameInstr v total p) s = .next (s.diesWith 1)) ∧
    (s.Receivable total → p.length < minPayload v → (v = .protocolHeader → s.ctxRx.isSome = true) →
      exec (frameInstr v total p) s = .next (s.diesWith 1))

/-- ProtocolHeader (R171, R172): decode deciphers the whole payload with CTX[RX], encode enciphers it whole with CTX[TX];
the context advances exactly when the operation succeeds, and while it is not keyed the operation is refused with
ContextNotKeyed (9). -/
def Obligations.ProtocolHeaderUsesTheDirectionsContext : Prop :=
  (∀ (total : U32) (p : Bytes) (s : State), s.Receivable total →
    (s.ctxRx = none → exec (.protocolHeader total p) s = .next (s.failsWith 9)) ∧
    (s.ctxRx ≠ none → p.length < 4 → exec (.protocolHeader total p) s = .next (s.diesWith 1)) ∧
    ∀ (c : CipherState) (m : U32) (j : Bytes), s.ctxRx = some c → (crypt c p).1 = leU32 m ++ j →
      exec (.protocolHeader total p) s = .next
        { s.afterFrame total 0 (.command (.protocolHeader m j)) with ctxRx := some (crypt c p).2 }) ∧
  (∀ (c : CipherState) (m : U32) (j : Bytes) (s : State), s.ctxTx = some c →
    (j.length ≤ 4294967290 → exec (.cmdEncode (.protocolHeader m j)) s =
      .next ({ s with ctxTx := some (crypt c (leU32 m ++ j)).2 }.succeeds
        (.bytes (frameOf 0 (crypt c (leU32 m ++ j)).1)))) ∧
    (4294967290 < j.length → exec (.cmdEncode (.protocolHeader m j)) s = .next (s.failsWith 2))) ∧
  ∀ (m : U32) (j : Bytes) (s : State), s.ctxTx = none → j.length ≤ 4294967290 →
    exec (.cmdEncode (.protocolHeader m j)) s = .next (s.failsWith 9)

/-- Speed and BBSPort (R173, R174, R181): the first four bytes as they stand in both directions, whatever the 32 bits;
trailing bytes are ignored. -/
def Obligations.SpeedAndBbsPort : Prop :=
  (∀ (total w : U32) (rest : Bytes) (s : State), s.Receivable total →
    exec (.speed total (leU32 w ++ rest)) s = .next (s.afterFrame total 1 (.command (.speed w))) ∧
    exec (.bbsPort total (leU32 w ++ rest)) s = .next (s.afterFrame total 5 (.command (.bbsPort w)))) ∧
  (∀ (total : U32) (p : Bytes) (s : State), s.Receivable total → p.length < 4 →
    exec (.speed total p) s = .next (s.diesWith 1) ∧ exec (.bbsPort total p) s = .next (s.diesWith 1)) ∧
  ∀ (w : U32) (s : State),
    exec (.cmdEncode (.speed w)) s = .next (s.succeeds (.bytes (frameOf 1 (leU32 w)))) ∧
    exec (.cmdEncode (.bbsPort w)) s = .next (s.succeeds (.bytes (frameOf 5 (leU32 w))))

/-- ConnectionType (R175): link types 0, 1, 2, any non-zero flag byte is true and true is written as 1; another link type is
FieldRangeError with latch. -/
def Obligations.ConnectionTypeFields : Prop :=
  ∀ s : State,
    (∀ (total : U32) (t b1 b2 b3 : Byte) (rest : Bytes), s.Receivable total →
      (∀ p ∈ [((0 : Byte), LinkType.search), (1, LinkType.transfer), (2, LinkType.bbsSearch)], t = p.1 →
        exec (.connectionType total (t :: b1 :: b2 :: b3 :: rest)) s = .next (s.afterFrame total 2
          (.command (.connectionType p.2 (decide (b1 ≠ 0)) (decide (b2 ≠ 0)) (decide (b3 ≠ 0)))))) ∧
      (2 < t.toNat → exec (.connectionType total (t :: b1 :: b2 :: b3 :: rest)) s = .next (s.diesWith 2))) ∧
    (∀ (total : U32) (p : Bytes), s.Receivable total → p.length < 4 →
      exec (.connectionType total p) s = .next (s.diesWith 1)) ∧
    ∀ f g h : Bool, ∀ p ∈ [((0 : Byte), LinkType.search), (1, LinkType.transfer), (2, LinkType.bbsSearch)],
      exec (.cmdEncode (.connectionType p.2 f g h)) s = .next (s.succeeds (.bytes (frameOf 2
        [p.1, if f then 1 else 0, if g then 1 else 0, if h then 1 else 0])))

/-- NodeDetails (R177): the four lengths, then the four strings, not cut at a zero byte; TruncatedRecord (3) with latch when
they do not fit; FieldRangeError on encode for a string over 255 bytes. -/
def Obligations.NodeDetailsFields : Prop :=
  ∀ (port : U32) (a b c d : Byte) (s : State),
    (∀ (total : U32) (hl l0 l1 l2 : Byte) (rest : Bytes), s.Receivable total →
      (∀ h w0 w1 w2 more : Bytes, rest = h ++ w0 ++ w1 ++ w2 ++ more → h.length = hl.toNat → w0.length = l0.toNat →
        w1.length = l1.toNat → w2.length = l2.toNat →
        exec (.nodeDetails total ([a, b, c, d] ++ leU32 port ++ [hl, l0, l1, l2] ++ rest)) s =
          .next (s.afterFrame total 3 (.command (.nodeDetails ⟨a, b, c, d⟩ port h w0 w1 w2)))) ∧
      (rest.length < hl.toNat + l0.toNat + l1.toNat + l2.toNat →
        exec (.nodeDetails total ([a, b, c, d] ++ leU32 port ++ [hl, l0, l1, l2] ++ rest)) s = .next (s.diesWith 3))) ∧
    (∀ (total : U32) (p : Bytes), s.Receivable total → p.length < 12 →
      exec (.nodeDetails total p) s = .next (s.diesWith 1)) ∧
    ∀ h w0 w1 w2 : Bytes,
      (h.length ≤ 255 ∧ w0.length ≤ 255 ∧ w1.length ≤ 255 ∧ w2.length ≤ 255 →
        exec (.cmdEncode (.nodeDetails ⟨a, b, c, d⟩ port h w0 w1 w2)) s = .next (s.succeeds (.bytes (frameOf 3
          ([a, b, c, d] ++ leU32 port ++ [BitVec.ofNat 8 h.length, BitVec.ofNat 8 w0.length, BitVec.ofNat 8 w1.length,
            BitVec.ofNat 8 w2.length] ++ h ++ w0 ++ w1 ++ w2))))) ∧
      (255 < h.length ∨ 255 < w0.length ∨ 255 < w1.length ∨ 255 < w2.length →
        exec (.cmdEncode (.nodeDetails ⟨a, b, c, d⟩ port h w0 w1 w2)) s = .next (s.failsWith 2))

/-- AnotherNode (R179): no host string, `speed` a plain u32; TruncatedRecord (3) with latch when the words do not fit;
FieldRangeError on encode for a word over 255 bytes. -/
def Obligations.AnotherNodeFields : Prop :=
  ∀ (sp bp speed : U32) (a b c d : Byte) (s : State),
    (∀ (total : U32) (n l0 l1 l2 : Byte) (rest : Bytes), s.Receivable total →
      (∀ w0 w1 w2 more : Bytes, rest = w0 ++ w1 ++ w2 ++ more → w0.length = l0.toNat → w1.length = l1.toNat →
        w2.length = l2.toNat →
        exec (.anotherNode total
          ([a, b, c, d] ++ leU32 sp ++ leU32 bp ++ [n] ++ leU32 speed ++ [l0, l1, l2] ++ rest)) s =
          .next (s.afterFrame total 4
            (.command (.anotherNode ⟨a, b, c, d⟩ sp bp (decide (n ≠ 0)) speed w0 w1 w2)))) ∧
      (rest.length < l0.toNat + l1.toNat + l2.toNat →
        exec (.anotherNode total
          ([a, b, c, d] ++ leU32 sp ++ leU32 bp ++ [n] ++ leU32 speed ++ [l0, l1, l2] ++ rest)) s =
          .next (s.diesWith 3))) ∧
    (∀ (total : U32) (p : Bytes), s.Receivable total → p.length < 20 →
      exec (.anotherNode total p) s = .next (s.diesWith 1)) ∧
    ∀ (f : Bool) (w0 w1 w2 : Bytes),
      (w0.length ≤ 255 ∧ w1.length ≤ 255 ∧ w2.length ≤ 255 →
        exec (.cmdEncode (.anotherNode ⟨a, b, c, d⟩ sp bp f speed w0 w1 w2)) s = .next (s.succeeds (.bytes (frameOf 4
          ([a, b, c, d] ++ leU32 sp ++ leU32 bp ++ [if f then 1 else 0] ++ leU32 speed
            ++ [BitVec.ofNat 8 w0.length, BitVec.ofNat 8 w1.length, BitVec.ofNat 8 w2.length]
            ++ w0 ++ w1 ++ w2))))) ∧
      (255 < w0.length ∨ 255 < w1.length ∨ 255 < w2.length →
        exec (.cmdEncode (.anotherNode ⟨a, b, c, d⟩ sp bp f speed w0 w1 w2)) s = .next (s.failsWith 2))

/-- FileRequest (R185) and FileResponse (R189): the hash is raw, zero bytes in it are kept; the file data is the rest of the
payload, at most 65536 bytes of it; FieldRangeError on encode for a hash that is not 16 bytes or data over 65536. -/
def Obligations.FileCommands : Prop :=
  ∀ (w x y z : U32) (hash : Bytes) (s : State),
    (∀ (total : U32) (rest : Bytes), s.Receivable total → hash.length = 16 →
      exec (.fileRequest total (leU32 w ++ leU32 x ++ leU32 y ++ hash ++ leU32 z ++ rest)) s =
        .next (s.afterFrame total 11 (.command (.fileRequest w x y hash z))) ∧
      exec (.fileResponse total (leU32 w ++ leU32 x ++ hash ++ rest)) s =
        .next (s.afterFrame total 21 (.command (.fileResponse w x hash (rest.take 65536))))) ∧
    (∀ (total : U32) (p : Bytes), s.Receivable total →
      (p.length < 32 → exec (.fileRequest total p) s = .next (s.diesWith 1)) ∧
      (p.length < 24 → exec (.fileResponse total p) s = .next (s.diesWith 1))) ∧
    (hash.length = 16 → exec (.cmdEncode (.fileRequest w x y hash z)) s = .next (s.succeeds (.bytes (frameOf 11
      (leU32 w ++ leU32 x ++ leU32 y ++ hash ++ leU32 z))))) ∧
    (hash.length ≠ 16 → exec (.cmdEncode (.fileRequest w x y hash z)) s = .next (s.failsWith 2)) ∧
    ∀ data : Bytes,
      (hash.length = 16 → data.length ≤ 65536 → exec (.cmdEncode (.fileResponse w x hash data)) s =
        .next (s.succeeds (.bytes (frameOf 21 (leU32 w ++ leU32 x ++ hash ++ data))))) ∧
      (hash.length ≠ 16 ∨ 65536 < data.length →
        exec (.cmdEncode (.fileResponse w x hash data)) s = .next (s.failsWith 2))

/-- ConditionalDiffusionRequest (R187): exactly 276 bytes, the two strings cut at their first zero byte on decode and
zero-padded on encode; any other length, shorter or longer, is FramingError with latch; FieldRangeError on encode for an
over-long string or one with a zero byte. -/
def Obligations.ConditionalDiffusionRequestFields : Prop :=
  ∀ (q : U32) (keyword sign : Bytes) (s : State),
    (∀ total : U32, s.Receivable total →
      (keyword.length = 255 → sign.length = 17 →
        exec (.conditionalDiffusionRequest total (keyword ++ sign ++ leU32 q)) s =
          .next (s.afterFrame total 12
            (.command (.conditionalDiffusionRequest (truncNul keyword) (truncNul sign) q)))) ∧
      ∀ p : Bytes, p.length ≠ 276 → exec (.conditionalDiffusionRequest total p) s = .next (s.diesWith 1)) ∧
    (keyword.length ≤ 255 ∧ 0 ∉ keyword ∧ sign.length ≤ 17 ∧ 0 ∉ sign →
      exec (.cmdEncode (.conditionalDiffusionRequest keyword sign q)) s = .next (s.succeeds (.bytes (frameOf 12
        (keyword ++ List.replicate (255 - keyword.length) 0 ++ sign ++ List.replicate (17 - sign.length) 0
          ++ leU32 q))))) ∧
    (255 < keyword.length ∨ 0 ∈ keyword ∨ 17 < sign.length ∨ 0 ∈ sign →
      exec (.cmdEncode (.conditionalDiffusionRequest keyword sign q)) s = .next (s.failsWith 2))

/-- Query (R221): the fields in wire order, each record as the KeyInfo and ViaNode codecs read it, bytes after the last one
ignored; encode writes the same layout, or is FieldRangeError for an over-long string, a signature with a zero byte, too many
records, or a KeyInfo that is not legal (R228). -/
def Obligations.QueryFields : Prop :=
  ∀ (q : U32) (f0 f1 f2 f3 : Bool) (keyword sign : Bytes) (via : List ViaNode) (keys : List KeyInfo) (s : State),
    (keyword.length ≤ 255 → sign.length ≤ 11 → 0 ∉ sign → via.length ≤ 255 → keys.length ≤ 65535 →
      (∀ k ∈ keys, k.fileHash.length ≤ 16 ∧ 0 ∉ k.fileHash ∧ k.name.length ≤ 255 ∧ k.sharingSig.length ≤ 11 ∧
        0 ∉ k.sharingSig ∧ k.bbsSig.length ≤ 255) →
      (∀ (total : U32) (b0 b1 b2 b3 : Byte) (pad rest : Bytes), s.Receivable total →
        decide (b0 ≠ 0) = f0 → decide (b1 ≠ 0) = f1 → decide (b2 ≠ 0) = f2 → decide (b3 ≠ 0) = f3 →
        sign.length + pad.length = 11 → (pad = [] ∨ pad.head? = some 0) →
        exec (.query total ([b0, b1, b2, b3] ++ leU32 q ++ [BitVec.ofNat 8 keyword.length] ++ keyword ++ sign ++ pad
            ++ [BitVec.ofNat 8 via.length]
            ++ via.flatMap (fun n => [n.addr.a, n.addr.b, n.addr.c, n.addr.d] ++ leU16 n.port)
            ++ leU16 (BitVec.ofNat 16 keys.length) ++ keys.flatMap encodeKeyInfo ++ rest)) s =
          .next (s.afterFrame total 13 (.command (.query f0 f1 f2 f3 q keyword sign via
            (keys.map fun k => { k with nameSum := sumU16 k.name }))))) ∧
      exec (.cmdEncode (.query f0 f1 f2 f3 q keyword sign via keys)) s = .next (s.succeeds (.bytes (frameOf 13
        ([if f0 then 1 else 0, if f1 then 1 else 0, if f2 then 1 else 0, if f3 then 1 else 0] ++ leU32 q
          ++ [BitVec.ofNat 8 keyword.length] ++ keyword ++ sign ++ List.replicate (11 - sign.length) 0
          ++ [BitVec.ofNat 8 via.length]
          ++ via.flatMap (fun n => [n.addr.a, n.addr.b, n.addr.c, n.addr.d] ++ leU16 n.port)
          ++ leU16 (BitVec.ofNat 16 keys.length) ++ keys.flatMap encodeKeyInfo))))) ∧
    (255 < keyword.length ∨ 11 < sign.length ∨ 0 ∈ sign ∨ 255 < via.length ∨ 65535 < keys.length ∨
      (∃ k ∈ keys, 16 < k.fileHash.length ∨ 0 ∈ k.fileHash ∨ 255 < k.name.length ∨ 11 < k.sharingSig.length ∨
        0 ∈ k.sharingSig ∨ 255 < k.bbsSig.length) →
      exec (.cmdEncode (.query f0 f1 f2 f3 q keyword sign via keys)) s = .next (s.failsWith 2))

/-- Query (R221, R274, R275): once the payload has its 23 bytes the command is delivered whole, every field and every record
tied to the bytes where the layout has it, or it is TruncatedRecord (3) with latch, exactly when a declared field does not
fit: the keyword, the signature or `vianode_count`; the ViaNodes or `keyinfo_count`; a KeyInfo record. -/
def Obligations.QueryIsWholeOrTruncated : Prop :=
  ∀ (total : U32) (p : Bytes) (s : State) (kl : Byte), s.Receivable total → 23 ≤ p.length → p[8]? = some kl →
    (p.length ≤ 20 + kl.toNat → exec (.query total p) s = .next (s.diesWith 3)) ∧
    ∀ vc : Byte, p[20 + kl.toNat]? = some vc →
      (p.length < 23 + kl.toNat + 6 * vc.toNat → exec (.query total p) s = .next (s.diesWith 3)) ∧
      ∀ c0 c1 : Byte, p[21 + kl.toNat + 6 * vc.toNat]? = some c0 → p[22 + kl.toNat + 6 * vc.toNat]? = some c1 →
        (recordsEnd p (c0.toNat + 256 * c1.toNat) (23 + kl.toNat + 6 * vc.toNat) = none →
          exec (.query total p) s = .next (s.diesWith 3)) ∧
        ∀ e : Nat, recordsEnd p (c0.toNat + 256 * c1.toNat) (23 + kl.toNat + 6 * vc.toNat) = some e → e ≤ p.length ∧
          ∃ (f0 f1 f2 f3 : Bool) (q : U32) (keyword sign : Bytes) (via : List ViaNode) (keys : List KeyInfo),
            exec (.query total p) s =
              .next (s.afterFrame total 13 (.command (.query f0 f1 f2 f3 q keyword sign via keys))) ∧
            [f0, f1, f2, f3] = (p.take 4).map (fun v => decide (v ≠ 0)) ∧ leU32 q = (p.drop 4).take 4 ∧
            keyword = (p.drop 9).take kl.toNat ∧ IsCutAtZero sign ((p.drop (9 + kl.toNat)).take 11) ∧
            via.length = vc.toNat ∧
            (∀ (i : Nat) (n : ViaNode), via[i]? = some n → [n.addr.a, n.addr.b, n.addr.c, n.addr.d] ++ leU16 n.port =
              (p.drop (21 + kl.toNat + 6 * i)).take 6) ∧
            keys.length = c0.toNat + 256 * c1.toNat ∧
            ∀ (i : Nat) (k : KeyInfo), keys[i]? = some k →
              ∃ o : Nat, recordsEnd p i (23 + kl.toNat + 6 * vc.toNat) = some o ∧ KeyInfoAt (p.drop o) k

/-- DiffusionRequest and the seven close variants (R183, R192 to R198): any payload is tolerated and ignored on decode, the
payload is empty on encode, and the block attaches no other behaviour to them. -/
def Obligations.EmptyCommands : Prop :=
  ∀ (total : U32) (p : Bytes) (s : State),
    ∀ r ∈ [(Instr.diffusionRequest total p, Command.diffusionRequest, (10 : Byte)), (.close total p, .close, 31),
        (.connectedLimitation total p, .connectedLimitation, 32), (.wrongListeningPort total p, .wrongListeningPort, 33),
        (.reject total p, .reject, 34), (.slow total p, .slow, 35), (.liar total p, .liar, 36),
        (.lowVersion total p, .lowVersion, 97)],
      (s.Receivable total → exec r.1 s = .next (s.afterFrame total r.2.2 (.command r.2.1))) ∧
      exec (.cmdEncode r.2.1) s = .next (s.succeeds (.bytes [1, 0, 0, 0, r.2.2]))

/-! ### KeyInfo (R225 to R230) -/

/-- KI_ENCODE and KI_DECODE (R228, R229, R230): a legal record has `59 + len(name) + len(bbs_sig)` bytes, and decoding them,
whatever follows, returns it with the checksum of its name and consumes exactly them; an illegal one is FieldRangeError. -/
def Obligations.KeyInfoRoundTrip : Prop :=
  (∀ a : Operands, decodeOp ⟨0x3D, a⟩ = .ok (.kiEncode a.keyInfo)) ∧
  ∀ (k : KeyInfo) (s t : State),
    (k.fileHash.length ≤ 16 ∧ 0 ∉ k.fileHash ∧ k.name.length ≤ 255 ∧ k.sharingSig.length ≤ 11 ∧ 0 ∉ k.sharingSig ∧
      k.bbsSig.length ≤ 255 → ∃ b : Bytes, exec (.kiEncode k) s = .next (s.succeeds (.bytes b)) ∧
      b.length = 59 + k.name.length + k.bbsSig.length ∧
      ∀ rest : Bytes, exec (.kiDecode (b ++ rest)) t =
        .next (t.succeeds (.keyInfo { k with nameSum := sumU16 k.name } b.length))) ∧
    (16 < k.fileHash.length ∨ 0 ∈ k.fileHash ∨ 255 < k.name.length ∨ 11 < k.sharingSig.length ∨ 0 ∈ k.sharingSig ∨
      255 < k.bbsSig.length → exec (.kiEncode k) s = .next (s.failsWith 2))

/-- The KeyInfo layout (R79, R227): the record KI_ENCODE writes, the name enciphered under the low byte of its checksum
(R226). -/
def Obligations.KeyInfoLayout : Prop :=
  ∀ (k : KeyInfo) (s : State), legalKeyInfo k = true → ∃ cs0 cs1 : Byte,
    cs0.toNat + 256 * cs1.toNat = (sumU16 k.name).toNat ∧
    exec (.kiEncode k) s = .next (s.succeeds (.bytes
      ([k.sharingAddr.a, k.sharingAddr.b, k.sharingAddr.c, k.sharingAddr.d] ++ leU16 k.sharingPort
        ++ [k.bbsAddr.a, k.bbsAddr.b, k.bbsAddr.c, k.bbsAddr.d] ++ leU16 k.bbsPort ++ leU32 k.fileSize
        ++ k.fileHash ++ List.replicate (16 - k.fileHash.length) 0
        ++ [BitVec.ofNat 8 k.name.length, cs0, cs1] ++ cryptFresh [cs0] k.name
        ++ k.sharingSig ++ List.replicate (11 - k.sharingSig.length) 0
        ++ [BitVec.ofNat 8 k.bbsSig.length] ++ k.bbsSig ++ leU16 k.ttl ++ leU32 k.blockSize ++ leU32 k.mtime
        ++ [if k.ignore then 1 else 0, k.version])))

/-- KI_DECODE (R225, R229) on any bytes, whether KI_ENCODE wrote them or not: with the name's length at offset 32 and the
signature's at `46 + name_len`, the record of `59 + name_len + bbs_sig_len` bytes is delivered, field by field, with that
count, if the operand holds all of it, and only otherwise the outcome is TruncatedRecord (3), without latch. A checksum that
does not match the name is no error (R225, R231). -/
def Obligations.KiDecodeReadsOneRecord : Prop :=
  (∀ a : Operands, decodeOp ⟨0x3C, a⟩ = .ok (.kiDecode a.bytes)) ∧
  ∀ (b : Bytes) (s : State),
    (∀ nl bl : Byte, b[32]? = some nl → b[46 + nl.toNat]? = some bl → 59 + nl.toNat + bl.toNat ≤ b.length →
      ∃ k : KeyInfo, KeyInfoAt b k ∧
        exec (.kiDecode b) s = .next (s.succeeds (.keyInfo k (59 + nl.toNat + bl.toNat)))) ∧
    ((∀ nl bl : Byte, b[32]? = some nl → b[46 + nl.toNat]? = some bl → b.length < 59 + nl.toNat + bl.toNat) →
      exec (.kiDecode b) s = .next (s.failsWith 3))

/-! ### Tokens (R251 to R258) -/

/-- TOK_PACK (R251): `@`, then the hex text of the checksum byte and the text enciphered under `[c] ++ "piewf6ascxlv"`,
a constant the spec took from general knowledge (log entry 13). -/
def Obligations.TokPackBuildsTheToken : Prop :=
  (∀ a : Operands, decodeOp ⟨0x40, a⟩ = .ok (.tokPack a.bytes)) ∧
  ∀ (a : Bytes) (s : State), ∃ t : Bytes, exec (.tokPack a) s = .next (s.succeeds (.bytes t)) ∧
    t.length = 3 + 2 * a.length ∧ t.head? = some 0x40 ∧ (∀ c ∈ t.drop 1, c ∈ hexAlphabet) ∧
    hexDec (t.drop 1) = .ok (sumU8 a ::
      (crypt (keySchedule [sumU8 a, 0x70, 0x69, 0x65, 0x77, 0x66, 0x36, 0x61, 0x73, 0x63, 0x78, 0x6c, 0x76]) a).1)

/-- TOK_UNPACK (R253): the text if it passes the checksum, and the errors in their order of test. The key holds the constant
of log entry 13. -/
def Obligations.TokUnpackErrorsInOrder : Prop :=
  (∀ a : Operands, decodeOp ⟨0x41, a⟩ = .ok (.tokUnpack a.bytes)) ∧
  ∀ (t : Bytes) (s : State),
    (t.length < 20 ∨ t.head? ≠ some 0x40 → exec (.tokUnpack t) s = .next (s.failsWith 6)) ∧
    (20 ≤ t.length → t.head? = some 0x40 → t.length % 2 = 0 ∨ (∃ c ∈ t.drop 1, ¬ IsHexChar c) →
      exec (.tokUnpack t) s = .next (s.failsWith 4)) ∧
    ∀ (c : Byte) (enc : Bytes), 20 ≤ t.length → t.head? = some 0x40 → hexDec (t.drop 1) = .ok (c :: enc) →
      (sumU8 (cryptFresh (tokenKey c) enc) = c →
        exec (.tokUnpack t) s = .next (s.succeeds (.bytes (cryptFresh (tokenKey c) enc)))) ∧
      (sumU8 (cryptFresh (tokenKey c) enc) ≠ c → exec (.tokUnpack t) s = .next (s.failsWith 7))

/-- R256: `TOK_UNPACK(TOK_PACK(a)) = a` for every text of 9 bytes or more, and TokenFormatError (6) below, under the
cipher of log entry 13. -/
def Obligations.TokenRoundTrip : Prop :=
  ∀ (a : Bytes) (s : State), ∃ (t : Bytes) (s1 : State), exec (.tokPack a) s = .next s1 ∧ s1.result = .bytes t ∧
    (9 ≤ a.length → exec (.tokUnpack t) s1 = .next (s1.succeeds (.bytes a))) ∧
    (a.length < 9 → exec (.tokUnpack t) s1 = .next (s1.failsWith 6))

/-- R258, the part that is true of the algorithm: one character of a packed token replaced makes TOK_UNPACK fail, the `@`
with TokenFormatError, a digit by a byte that is no digit with EncodingError, a digit of the ciphertext by a digit of
another value with ChecksumMismatch. -/
def Obligations.DamagedTokensAreCaught : Prop :=
  ∀ (a t : Bytes) (s s1 : State) (p : Nat) (c old : Byte), 9 ≤ a.length → exec (.tokPack a) s = .next s1 →
    s1.result = .bytes t → t[p]? = some old →
    (p = 0 → c ≠ old → exec (.tokUnpack (t.set p c)) s1 = .next (s1.failsWith 6)) ∧
    (1 ≤ p → ¬ IsHexChar c → exec (.tokUnpack (t.set p c)) s1 = .next (s1.failsWith 4)) ∧
    (3 ≤ p → IsHexChar c → hexValue c ≠ hexValue old → exec (.tokUnpack (t.set p c)) s1 = .next (s1.failsWith 7))

/-! ### Straight after reset (R312) -/

/-- R312: after reset the receive decodes raise FramingError and latch, C_CRYPT and both directions of ProtocolHeader are
refused with ContextNotKeyed. -/
def Obligations.StraightAfterReset : Prop :=
  (∀ i ∈ [Instr.hdrPeek, Instr.frmDecode, Instr.cmdDecode], exec i State.reset = .next (State.reset.diesWith 1)) ∧
  (∀ (d : Dir) (b : Bytes), exec (.cCrypt d b) State.reset = .next (State.reset.failsWith 9)) ∧
  (∀ (m : U32) (j : Bytes), j.length ≤ 4294967290 →
    exec (.cmdEncode (.protocolHeader m j)) State.reset = .next (State.reset.failsWith 9)) ∧
  ∀ (total : U32) (p f : Bytes) (s : State), total.toNat = 1 + p.length →
    Config.ibufFits (5 + p.length) = true → f = leU32 total ++ [0] ++ p → exec (.rxLoad f) State.reset = .next s →
    exec .cmdDecode s = .next (s.failsWith 9)

/-! ### Names (R88) -/

/-- R88, its last sentences, with the names of R78 and R90: every instruction has the tabled name of its opcode or `OPSEL`;
two instructions have one name exactly when they have one opcode or one `OPSEL`; and the seven close commands are seven: no
two are delivered alike or encoded alike. -/
def Obligations.EveryNameDenotesOneCode : Prop :=
  (∀ i : Instr, (selector (encode i), mnemonic i) ∈
    ([(0, "ProtocolHeader"), (1, "Speed"), (2, "ConnectionType"), (3, "NodeDetails"), (4, "AnotherNode"),
    (5, "BBSPort"), (10, "DiffusionRequest"), (11, "FileRequest"), (12, "ConditionalDiffusionRequest"), (13, "Query"),
    (21, "FileResponse"), (31, "Close"), (32, "ConnectedLimitation"), (33, "WrongListeningPort"), (34, "Reject"),
    (35, "Slow"), (36, "Liar"), (97, "LowVersion")].map
      fun (r : Byte × String) => ((Format.frame, some r.1), r.2)) ++
    ([(0x01, "HEX_ENC"), (0x02, "HEX_DEC"), (0x03, "TRUNC_NUL"), (0x04, "U32_LE"), (0x05, "LE_UINT"), (0x06, "ADDR2B"),
    (0x07, "B2ADDR"), (0x10, "SUM8"), (0x11, "SUM16"), (0x12, "SUM32"), (0x20, "C_NEW"), (0x21, "C_NEW_PH"),
    (0x22, "C_CRYPT"), (0x30, "RX_LOAD"), (0x31, "HDR_PEEK"), (0x32, "FRM_DECODE"), (0x33, "CMD_DECODE"),
    (0x38, "FRM_ENCODE"), (0x39, "CMD_ENCODE"), (0x3C, "KI_DECODE"), (0x3D, "KI_ENCODE"), (0x3E, "CACHE_BLOCK"),
    (0x40, "TOK_PACK"), (0x41, "TOK_UNPACK")].map
      fun (r : Byte × String) => ((Format.hostop, some r.1), r.2))) ∧
  (∀ i j : Instr, mnemonic i = mnemonic j ↔ selector (encode i) = selector (encode j)) ∧
  ∀ v ∈ [Variant.close, .connectedLimitation, .wrongListeningPort, .reject, .slow, .liar, .lowVersion],
    ∀ w ∈ [Variant.close, .connectedLimitation, .wrongListeningPort, .reject, .slow, .liar, .lowVersion],
      ∀ (total : U32) (p : Bytes) (s : State), s.Receivable total → v ≠ w →
        ∃ (c d : Command) (b e : Bytes), c ≠ d ∧ b ≠ e ∧
          exec (frameInstr v total p) s = .next (s.afterFrame total (opcodeOf v) (.command c)) ∧
          exec (frameInstr w total p) s = .next (s.afterFrame total (opcodeOf w) (.command d)) ∧
          exec (.cmdEncode c) s = .next (s.succeeds (.bytes b)) ∧ exec (.cmdEncode d) s = .next (s.succeeds (.bytes e))
end

