-- ==== Sys2Proof/Laws/Cipher.lean ====
section
/-! SUPPORT. The cipher engine and the token codec: the table stays a permutation, the generator ignores the data, and
what the hex text reads back as. -/

namespace Sys2Proof.Machine

/-! ### The table -/

theorem tableSwap_perm (t : Vector Byte 256) (i j : Byte) (h : tableIsPermutation t) :
    tableIsPermutation (tableSwap t i j) := by
  intro v
  rw [← h v]
  have hp : (tableSwap t i j).Perm t := Vector.swap_perm _ _
  exact hp.toArray.toList.count_eq v

theorem identityTable_perm : tableIsPermutation identityTable := by
  have h1 : identityTable.toList = (List.finRange 256).map fun i => BitVec.ofNat 8 i.val := by
    rw [identityTable, Vector.toList_ofFn, List.ofFn_eq_map]
  intro v
  rw [h1]
  apply List.count_eq_one_of_mem
  · refine (List.nodup_finRange 256).map ?_
    intro a b hab
    have := congrArg BitVec.toNat hab
    simp only [BitVec.toNat_ofNat] at this
    rw [Nat.mod_eq_of_lt a.isLt, Nat.mod_eq_of_lt b.isLt] at this
    exact Fin.ext this
  · refine List.mem_map.2 ⟨⟨v.toNat, v.isLt⟩, List.mem_finRange _, ?_⟩
    simp

theorem ksaRound_perm (k : Bytes) (acc : Vector Byte 256 × Byte) (i : Nat) (h : tableIsPermutation acc.1) :
    tableIsPermutation (ksaRound k acc i).1 := tableSwap_perm _ _ _ h

theorem ksaTable_perm (k : Bytes) : tableIsPermutation (ksaTable k) := by
  have : ∀ (l : List Nat) (acc : Vector Byte 256 × Byte), tableIsPermutation acc.1 →
      tableIsPermutation (l.foldl (ksaRound k) acc).1 := by
    intro l
    induction l with
    | nil => exact fun _ h => h
    | cons a l ih => exact fun acc h => ih _ (ksaRound_perm k acc a h)
  exact this _ _ identityTable_perm

/-- Every key schedule, under either reading of the empty key, leaves a permutation (R36). -/
theorem keyScheduleWith_perm (rule : EmptyKeyRule) (key : Bytes) :
    tableIsPermutation (keyScheduleWith rule key).table := by
  unfold keyScheduleWith
  split
  · cases rule
    · exact identityTable_perm
    · exact ksaTable_perm _
  · exact ksaTable_perm _

theorem keystreamStep_perm (c : CipherState) (h : tableIsPermutation c.table) :
    tableIsPermutation (keystreamStep c).2.table := tableSwap_perm _ _ _ h

/-- Ciphering keeps the table a permutation (R36). -/
theorem crypt_perm (data : Bytes) (c : CipherState) (h : tableIsPermutation c.table) :
    tableIsPermutation (crypt c data).2.table := by
  induction data generalizing c with
  | nil => exact h
  | cons d rest ih => exact ih _ (keystreamStep_perm c h)

/-! ### The generator -/

@[simp] theorem crypt_length (c : CipherState) (data : Bytes) : (crypt c data).1.length = data.length := by
  induction data generalizing c with
  | nil => rfl
  | cons d rest ih => simp [crypt, ih]

/-- The advanced context depends on the number of bytes only (R135). -/
theorem crypt_state_eq (c : CipherState) (a b : Bytes) (h : a.length = b.length) : (crypt c a).2 = (crypt c b).2 := by
  induction a generalizing b c with
  | nil => cases b with
    | nil => rfl
    | cons => simp at h
  | cons x a ih => cases b with
    | nil => simp at h
    | cons y b => exact ih _ _ (by simpa using h)

/-- Ciphering twice from one context gives the data back (R136). -/
theorem crypt_crypt (c : CipherState) (data : Bytes) : (crypt c (crypt c data).1).1 = data := by
  induction data generalizing c with
  | nil => rfl
  | cons d rest ih =>
    simp only [crypt, ih, List.cons.injEq, and_true]
    rw [BitVec.xor_assoc, BitVec.xor_self, BitVec.xor_zero]

theorem crypt_append (c : CipherState) (a b : Bytes) :
    crypt c (a ++ b) = ((crypt c a).1 ++ (crypt (crypt c a).2 b).1, (crypt (crypt c a).2 b).2) := by
  induction a generalizing c with
  | nil => rfl
  | cons d rest ih => simp only [List.cons_append, crypt, ih]

@[simp] theorem cryptFresh_length (key data : Bytes) : (cryptFresh key data).length = data.length := crypt_length _ _

@[simp] theorem cryptFresh_cryptFresh (key data : Bytes) : cryptFresh key (cryptFresh key data) = data :=
  crypt_crypt _ _

/-! ### Hexadecimal text -/

@[simp] theorem hexEnc_length (b : Bytes) : (hexEnc b).length = 2 * b.length := by
  induction b with
  | nil => rfl
  | cons a rest ih => simp [hexEnc, ih]; omega

theorem hexDigit_mem (n : Nat) (h : n < 16) : hexDigit n ∈ hexAlphabet := by
  interval_cases n <;> decide

theorem hexValue_hexDigit (n : Nat) (h : n < 16) : hexValue (hexDigit n) = some n := by
  interval_cases n <;> decide

theorem hexPairs_hexEnc (b : Bytes) : hexPairs (hexEnc b) = .ok b := by
  induction b with
  | nil => rfl
  | cons a rest ih =>
    have := a.isLt
    simp only [hexEnc, hexPairs, hexValue_hexDigit _ (show a.toNat / 16 < 16 by omega),
      hexValue_hexDigit _ (Nat.mod_lt _ (by omega)), ih, bind, Except.bind, pure, Except.pure,
      Nat.div_add_mod]
    simp

/-- Hex text reads back (R101). -/
theorem hexDec_hexEnc (b : Bytes) : hexDec (hexEnc b) = .ok b := by
  simp [hexDec, hexPairs_hexEnc]

/-- A byte has a hex value exactly when it is a hex digit of either case (R101). -/
theorem hexValue_isSome (c : Byte) : (hexValue c).isSome = true ↔ IsHexChar c := by
  revert c; decide

theorem hexPairs_append (a b c : Bytes) (ha : hexPairs a = .ok b) : hexPairs (a ++ c) = (hexPairs c).map (b ++ ·) := by
  induction a using hexPairs.induct generalizing b with
  | case1 => cases ha; cases h : hexPairs c <;> simp [h, Except.map]
  | case2 => cases ha
  | case3 hi lo rest h l hh hl ih =>
    simp only [hexPairs, hh, hl, bind, Except.bind, pure, Except.pure] at ha
    split at ha
    · cases ha
    · next bs hb =>
      cases ha
      simp only [List.cons_append, hexPairs, hh, hl, ih bs hb, bind, Except.bind, pure, Except.pure]
      cases hexPairs c <;> rfl
  | case4 hi lo rest hn =>
    simp [hexPairs] at ha

end Sys2Proof.Machine
end

