-- ==== Sys2Proof/Laws/Codec.lean ====
section
/-! SUPPORT. The operand forms: what each field reader gives on the bytes its writer makes, and when it stops. -/

namespace Sys2Proof.Machine

/-! ### Little-endian integers -/

@[simp] theorem leBytes_length (n v : Nat) : (leBytes n v).length = n := by
  induction n generalizing v with
  | zero => rfl
  | succ n ih => simp [leBytes, ih]

@[simp] theorem leU16_length (v : U16) : (leU16 v).length = 2 := leBytes_length 2 _
@[simp] theorem leU32_length (v : U32) : (leU32 v).length = 4 := leBytes_length 4 _

theorem leNat_lt (b : Bytes) : leNat b < 256 ^ b.length := by
  induction b with
  | nil => simp [leNat]
  | cons a rest ih =>
    have := a.isLt
    simp only [leNat, List.length_cons, pow_succ]
    omega

/-- The value of the written bytes (R17). -/
theorem leNat_leBytes (n v : Nat) : leNat (leBytes n v) = v % 256 ^ n := by
  induction n generalizing v with
  | zero => simp [leBytes, leNat, Nat.mod_one]
  | succ n ih =>
    simp only [leBytes, leNat, ih, BitVec.toNat_ofNat]
    rw [show 256 ^ (n + 1) = 256 * 256 ^ n by rw [Nat.pow_succ, Nat.mul_comm], Nat.mod_mul]

/-- The bytes of the value read (R17). -/
theorem leBytes_leNat (b : Bytes) : leBytes b.length (leNat b) = b := by
  induction b with
  | nil => rfl
  | cons a rest ih =>
    have := a.isLt
    have hd : (a.toNat + 256 * leNat rest) / 256 = leNat rest := by omega
    simp only [List.length_cons, leBytes, leNat, hd, ih, List.cons.injEq, and_true]
    apply BitVec.eq_of_toNat_eq
    simp; omega

@[simp] theorem ofNat_leNat_leU16 (v : U16) : BitVec.ofNat 16 (leNat (leU16 v)) = v := by
  rw [leU16, leNat_leBytes]; apply BitVec.eq_of_toNat_eq; simpa using v.isLt

@[simp] theorem ofNat_leNat_leU32 (v : U32) : BitVec.ofNat 32 (leNat (leU32 v)) = v := by
  rw [leU32, leNat_leBytes]; apply BitVec.eq_of_toNat_eq; simpa using v.isLt

/-- Every four bytes are those of a u32. -/
theorem leU32_ofNat_leNat (b : Bytes) (h : b.length = 4) : leU32 (BitVec.ofNat 32 (leNat b)) = b := by
  have hl := leNat_lt b
  rw [h] at hl
  have : leBytes 4 (leNat b) = b := by rw [← h]; exact leBytes_leNat b
  rw [leU32, BitVec.toNat_ofNat, Nat.mod_eq_of_lt (by omega), this]

/-- Every two bytes are those of a u16. -/
theorem leU16_ofNat_leNat (b : Bytes) (h : b.length = 2) : leU16 (BitVec.ofNat 16 (leNat b)) = b := by
  have hl := leNat_lt b
  rw [h] at hl
  have : leBytes 2 (leNat b) = b := by rw [← h]; exact leBytes_leNat b
  rw [leU16, BitVec.toNat_ofNat, Nat.mod_eq_of_lt (by omega), this]

/-! ### Taking fields -/

theorem takeField_append (e : ErrKind) (a rest : Bytes) (n : Nat) (h : a.length = n) :
    takeField n e (a ++ rest) = .ok (a, rest) := by
  subst h
  simp [takeField]

theorem takeField_short (e : ErrKind) (p : Bytes) (n : Nat) (h : p.length < n) : takeField n e p = .error e := by
  simp [takeField, h]

@[simp] theorem takeByte_cons (e : ErrKind) (b : Byte) (rest : Bytes) : takeByte e (b :: rest) = .ok (b, rest) := rfl
@[simp] theorem takeByte_nil (e : ErrKind) : takeByte e [] = .error e := rfl

@[simp] theorem takeBool_cons (e : ErrKind) (b : Byte) (rest : Bytes) :
    takeBool e (b :: rest) = .ok (boolOf b, rest) := rfl
@[simp] theorem takeBool_nil (e : ErrKind) : takeBool e [] = .error e := rfl

@[simp] theorem takeAddr_cons (e : ErrKind) (a b c d : Byte) (rest : Bytes) :
    takeAddr e (a :: b :: c :: d :: rest) = .ok (⟨a, b, c, d⟩, rest) := rfl

theorem takeAddr_append (e : ErrKind) (o : Addr) (rest : Bytes) : takeAddr e (addrBytes o ++ rest) = .ok (o, rest) := rfl

theorem takeU16_append (e : ErrKind) (v : U16) (rest : Bytes) : takeU16 e (leU16 v ++ rest) = .ok (v, rest) := by
  simp [takeU16, takeField_append, bind, Except.bind, pure, Except.pure]

theorem takeU32_append (e : ErrKind) (v : U32) (rest : Bytes) : takeU32 e (leU32 v ++ rest) = .ok (v, rest) := by
  simp [takeU32, takeField_append, bind, Except.bind, pure, Except.pure]

theorem takeU16_short (e : ErrKind) (p : Bytes) (h : p.length < 2) : takeU16 e p = .error e := by
  simp [takeU16, takeField_short _ _ _ h, bind, Except.bind]

theorem takeU32_short (e : ErrKind) (p : Bytes) (h : p.length < 4) : takeU32 e p = .error e := by
  simp [takeU32, takeField_short _ _ _ h, bind, Except.bind]

/-- What a successful take says: the bytes taken are in front of the rest. -/
theorem takeField_ok {e : ErrKind} {n : Nat} {p a rest : Bytes} (h : takeField n e p = .ok (a, rest)) :
    p = a ++ rest ∧ a.length = n := by
  unfold takeField at h
  split at h
  · cases h
  · cases h
    exact ⟨(List.take_append_drop n p).symm, by simp; omega⟩

theorem takeByte_ok {e : ErrKind} {p rest : Bytes} {b : Byte} (h : takeByte e p = .ok (b, rest)) : p = b :: rest := by
  cases p with
  | nil => cases h
  | cons => cases h; rfl

/-! ### Booleans -/

@[simp] theorem boolOf_byteOf (f : Bool) : boolOf (byteOf f) = f := by cases f <;> rfl

theorem boolOf_eq (b : Byte) : boolOf b = decide (b ≠ 0) := by
  by_cases h : b = 0
  · subst h; rfl
  · exact (bne_iff_ne.2 h).trans (decide_eq_true h).symm

theorem lenByte_toNat (n : Nat) (h : n ≤ 255) : (lenByte n).toNat = n := by
  simp [lenByte, Nat.mod_eq_of_lt (show n < 256 by omega)]

/-! ### Strings -/

theorem truncNul_append_zero (b z : Bytes) (h : 0 ∉ b) (hz : z = [] ∨ z.head? = some 0) : truncNul (b ++ z) = b := by
  induction b with
  | nil =>
    cases z with
    | nil => rfl
    | cons c r => simp at hz; simp [truncNul, hz]
  | cons c r ih =>
    simp only [List.mem_cons, not_or] at h
    simp only [List.cons_append, truncNul, if_neg (Ne.symm h.1), ih h.2]

theorem truncNul_of_not_mem (b : Bytes) (h : 0 ∉ b) : truncNul b = b := by
  simpa using truncNul_append_zero b [] h (.inl rfl)

theorem pad_length (b : Bytes) (w : Nat) (h : b.length ≤ w) : (pad b w).length = w := by simp [pad]; omega

theorem truncNul_pad (b : Bytes) (w : Nat) (h : 0 ∉ b) : truncNul (pad b w) = b := by
  apply truncNul_append_zero b _ h
  cases w - b.length with
  | zero => exact .inl rfl
  | succ n => exact .inr rfl

theorem fwLegal_iff (b : Bytes) (w : Nat) : fwLegal b w = true ↔ b.length ≤ w ∧ 0 ∉ b := by
  simp [fwLegal]

theorem lpLegal_iff (b : Bytes) : lpLegal b = true ↔ b.length ≤ 255 := by simp [lpLegal]

/-- A form-(b) field reads back (R110). -/
theorem fwDec_pad (e : ErrKind) (b rest : Bytes) (w : Nat) (h : fwLegal b w = true) :
    fwDec w e (pad b w ++ rest) = .ok (b, rest) := by
  rw [fwLegal_iff] at h
  simp [fwDec, takeField_append _ _ _ _ (pad_length b w h.1), truncNul_pad b w h.2, bind, Except.bind, pure, Except.pure]

theorem fwDec_append (e : ErrKind) (f rest : Bytes) (w : Nat) (h : f.length = w) :
    fwDec w e (f ++ rest) = .ok (truncNul f, rest) := by
  simp [fwDec, takeField_append _ _ _ _ h, bind, Except.bind, pure, Except.pure]

/-- Records written one after another read back (R221). -/
theorem takeMany_flatMap {α β : Type} (record : Bytes → Except ErrKind (β × Bytes)) (enc : α → Bytes) (img : α → β)
    (xs : List α) (rest : Bytes) (h : ∀ x ∈ xs, ∀ r, record (enc x ++ r) = .ok (img x, r)) :
    takeMany record xs.length (xs.flatMap enc ++ rest) = .ok (xs.map img, rest) := by
  induction xs with
  | nil => rfl
  | cons x xs ih =>
    simp only [List.flatMap_cons, List.append_assoc, List.length_cons, takeMany]
    rw [h x (by simp)]
    simp only [bind, Except.bind]
    rw [ih fun y hy => h y (by simp [hy])]
    rfl

/-! ### Link types and opcodes -/

@[simp] theorem linkOf_linkCode (l : LinkType) : linkOf (linkCode l) = .ok l := by cases l <;> rfl

@[simp] theorem variantOf_opcodeOf (v : Variant) : variantOf (opcodeOf v) = some v := by cases v <;> rfl

theorem opcodeOf_of_variantOf (op : Byte) (v : Variant) (h : variantOf op = some v) : opcodeOf v = op := by
  revert h
  unfold variantOf
  split <;> intro h <;> cases h <;> (apply BitVec.eq_of_toNat_eq; simp_all [opcodeOf])

end Sys2Proof.Machine
end

