-- ==== Sys2Proof/Laws/State.lean ====
section
/-! SUPPORT. One lemma per field per update of State, so that no later proof unfolds a record update. -/

namespace Sys2Proof.Machine

section
variable (s : State) (f : StatusBit) (v : Bool)

@[simp] theorem State.setFlag_status : (s.setFlag f v).status = statusPut s.status f v := rfl
@[simp] theorem State.setFlag_err : (s.setFlag f v).err = s.err := rfl
@[simp] theorem State.setFlag_len : (s.setFlag f v).len = s.len := rfl
@[simp] theorem State.setFlag_opc : (s.setFlag f v).opc = s.opc := rfl
@[simp] theorem State.setFlag_cnt : (s.setFlag f v).cnt = s.cnt := rfl
@[simp] theorem State.setFlag_cntWritten : (s.setFlag f v).cntWritten = s.cntWritten := rfl
@[simp] theorem State.setFlag_cur : (s.setFlag f v).cur = s.cur := rfl
@[simp] theorem State.setFlag_ilen : (s.setFlag f v).ilen = s.ilen := rfl
@[simp] theorem State.setFlag_ibuf : (s.setFlag f v).ibuf = s.ibuf := rfl
@[simp] theorem State.setFlag_ctxRx : (s.setFlag f v).ctxRx = s.ctxRx := rfl
@[simp] theorem State.setFlag_ctxTx : (s.setFlag f v).ctxTx = s.ctxTx := rfl
@[simp] theorem State.setFlag_result : (s.setFlag f v).result = s.result := rfl
@[simp] theorem State.setFlag_regOut : (s.setFlag f v).regOut = s.regOut := rfl
@[simp] theorem State.setFlag_host : (s.setFlag f v).host = s.host := rfl

end

section
variable (s : State) (r : Result)

@[simp] theorem State.deliver_status : (s.deliver r).status = s.status := rfl
@[simp] theorem State.deliver_err : (s.deliver r).err = 0 := rfl
@[simp] theorem State.deliver_len : (s.deliver r).len = s.len := rfl
@[simp] theorem State.deliver_opc : (s.deliver r).opc = s.opc := rfl
@[simp] theorem State.deliver_cnt : (s.deliver r).cnt = s.cnt := rfl
@[simp] theorem State.deliver_cntWritten : (s.deliver r).cntWritten = s.cntWritten := rfl
@[simp] theorem State.deliver_cur : (s.deliver r).cur = s.cur := rfl
@[simp] theorem State.deliver_ilen : (s.deliver r).ilen = s.ilen := rfl
@[simp] theorem State.deliver_ibuf : (s.deliver r).ibuf = s.ibuf := rfl
@[simp] theorem State.deliver_ctxRx : (s.deliver r).ctxRx = s.ctxRx := rfl
@[simp] theorem State.deliver_ctxTx : (s.deliver r).ctxTx = s.ctxTx := rfl
@[simp] theorem State.deliver_result : (s.deliver r).result = r := rfl
@[simp] theorem State.deliver_regOut : (s.deliver r).regOut = s.regOut := rfl
@[simp] theorem State.deliver_host : (s.deliver r).host = s.host := rfl

end

section
variable (s : State) (l : U32) (o : Byte)

@[simp] theorem State.setHeader_status : (s.setHeader l o).status = statusPut s.status .hdrv true := rfl
@[simp] theorem State.setHeader_err : (s.setHeader l o).err = s.err := rfl
@[simp] theorem State.setHeader_len : (s.setHeader l o).len = l := rfl
@[simp] theorem State.setHeader_opc : (s.setHeader l o).opc = o := rfl
@[simp] theorem State.setHeader_cnt : (s.setHeader l o).cnt = s.cnt := rfl
@[simp] theorem State.setHeader_cntWritten : (s.setHeader l o).cntWritten = s.cntWritten := rfl
@[simp] theorem State.setHeader_cur : (s.setHeader l o).cur = s.cur := rfl
@[simp] theorem State.setHeader_ilen : (s.setHeader l o).ilen = s.ilen := rfl
@[simp] theorem State.setHeader_ibuf : (s.setHeader l o).ibuf = s.ibuf := rfl
@[simp] theorem State.setHeader_ctxRx : (s.setHeader l o).ctxRx = s.ctxRx := rfl
@[simp] theorem State.setHeader_ctxTx : (s.setHeader l o).ctxTx = s.ctxTx := rfl
@[simp] theorem State.setHeader_result : (s.setHeader l o).result = s.result := rfl
@[simp] theorem State.setHeader_regOut : (s.setHeader l o).regOut = s.regOut := rfl
@[simp] theorem State.setHeader_host : (s.setHeader l o).host = s.host := rfl

end

section
variable (s : State) (l : U32) (o : Byte)

@[simp] theorem State.consumeFrame_status : (s.consumeFrame l o).status = statusPut s.status .hdrv true := rfl
@[simp] theorem State.consumeFrame_err : (s.consumeFrame l o).err = s.err := rfl
@[simp] theorem State.consumeFrame_len : (s.consumeFrame l o).len = l := rfl
@[simp] theorem State.consumeFrame_opc : (s.consumeFrame l o).opc = o := rfl
@[simp] theorem State.consumeFrame_cnt : (s.consumeFrame l o).cnt = BitVec.ofNat 33 (4 + l.toNat) := rfl
@[simp] theorem State.consumeFrame_cntWritten : (s.consumeFrame l o).cntWritten = true := rfl
@[simp] theorem State.consumeFrame_cur : (s.consumeFrame l o).cur = s.cur + 4 + l.toNat := rfl
@[simp] theorem State.consumeFrame_ilen : (s.consumeFrame l o).ilen = s.ilen := rfl
@[simp] theorem State.consumeFrame_ibuf : (s.consumeFrame l o).ibuf = s.ibuf := rfl
@[simp] theorem State.consumeFrame_ctxRx : (s.consumeFrame l o).ctxRx = s.ctxRx := rfl
@[simp] theorem State.consumeFrame_ctxTx : (s.consumeFrame l o).ctxTx = s.ctxTx := rfl
@[simp] theorem State.consumeFrame_result : (s.consumeFrame l o).result = s.result := rfl
@[simp] theorem State.consumeFrame_regOut : (s.consumeFrame l o).regOut = s.regOut := rfl
@[simp] theorem State.consumeFrame_host : (s.consumeFrame l o).host = s.host := rfl

end

section
variable (s : State) (d : Dir) (c : Option CipherState)

@[simp] theorem State.setCtx_status : (s.setCtx d c).status = s.status := by cases d <;> rfl
@[simp] theorem State.setCtx_err : (s.setCtx d c).err = s.err := by cases d <;> rfl
@[simp] theorem State.setCtx_len : (s.setCtx d c).len = s.len := by cases d <;> rfl
@[simp] theorem State.setCtx_opc : (s.setCtx d c).opc = s.opc := by cases d <;> rfl
@[simp] theorem State.setCtx_cnt : (s.setCtx d c).cnt = s.cnt := by cases d <;> rfl
@[simp] theorem State.setCtx_cntWritten : (s.setCtx d c).cntWritten = s.cntWritten := by cases d <;> rfl
@[simp] theorem State.setCtx_cur : (s.setCtx d c).cur = s.cur := by cases d <;> rfl
@[simp] theorem State.setCtx_ilen : (s.setCtx d c).ilen = s.ilen := by cases d <;> rfl
@[simp] theorem State.setCtx_ibuf : (s.setCtx d c).ibuf = s.ibuf := by cases d <;> rfl
@[simp] theorem State.setCtx_result : (s.setCtx d c).result = s.result := by cases d <;> rfl
@[simp] theorem State.setCtx_regOut : (s.setCtx d c).regOut = s.regOut := by cases d <;> rfl
@[simp] theorem State.setCtx_host : (s.setCtx d c).host = s.host := by cases d <;> rfl
@[simp] theorem State.setCtx_rx_ctxRx : (s.setCtx .rx c).ctxRx = c := rfl
@[simp] theorem State.setCtx_rx_ctxTx : (s.setCtx .rx c).ctxTx = s.ctxTx := rfl
@[simp] theorem State.setCtx_tx_ctxRx : (s.setCtx .tx c).ctxRx = s.ctxRx := rfl
@[simp] theorem State.setCtx_tx_ctxTx : (s.setCtx .tx c).ctxTx = c := rfl
@[simp] theorem State.ctx_setCtx : (s.setCtx d c).ctx d = c := by cases d <;> rfl
@[simp] theorem State.ctx_rx : s.ctx .rx = s.ctxRx := rfl
@[simp] theorem State.ctx_tx : s.ctx .tx = s.ctxTx := rfl

end

section
variable (s : State) (receive : Bool) (k : ErrKind)

@[simp] theorem State.raise_err : (s.raise receive k).err = k.code := rfl
@[simp] theorem State.raise_len : (s.raise receive k).len = s.len := rfl
@[simp] theorem State.raise_opc : (s.raise receive k).opc = s.opc := rfl
@[simp] theorem State.raise_cnt : (s.raise receive k).cnt = s.cnt := rfl
@[simp] theorem State.raise_cntWritten : (s.raise receive k).cntWritten = s.cntWritten := rfl
@[simp] theorem State.raise_cur : (s.raise receive k).cur = s.cur := rfl
@[simp] theorem State.raise_ilen : (s.raise receive k).ilen = s.ilen := rfl
@[simp] theorem State.raise_ibuf : (s.raise receive k).ibuf = s.ibuf := rfl
@[simp] theorem State.raise_ctxRx : (s.raise receive k).ctxRx = s.ctxRx := rfl
@[simp] theorem State.raise_ctxTx : (s.raise receive k).ctxTx = s.ctxTx := rfl
@[simp] theorem State.raise_result : (s.raise receive k).result = .none := rfl
@[simp] theorem State.raise_regOut : (s.raise receive k).regOut = s.regOut := rfl
@[simp] theorem State.raise_host : (s.raise receive k).host = s.host := rfl

/-- R281, R283: only an error (not a refusal) of a receive decode writes STATUS, and then only RXDEAD. -/
theorem State.raise_status :
    (s.raise receive k).status = if receive && !k.isRefusal then statusPut s.status .rxDead true else s.status := by
  simp [State.raise, Config.rxSticky]

@[simp] theorem State.raise_false_status : (s.raise false k).status = s.status := rfl

end

/-! ### STATUS fields -/

theorem StatusBit.index_lt (f : StatusBit) : f.index < 8 := by cases f <;> decide

theorem StatusBit.index_inj (f g : StatusBit) (h : f.index = g.index) : f = g := by
  revert h; cases f <;> cases g <;> decide

theorem StatusBit.getLsbD_mask (f : StatusBit) (i : Nat) : f.mask.getLsbD i = decide (i = f.index) := by
  have := f.index_lt
  rcases Nat.lt_or_ge i 8 with h | h
  · revert i; cases f <;> decide
  · rw [BitVec.getLsbD_of_ge _ _ h]
    exact (decide_eq_false (by omega)).symm

/-- Every bit of a STATUS word after one field is written. -/
theorem statusPut_getLsbD (w : Byte) (f : StatusBit) (v : Bool) (i : Nat) :
    (statusPut w f v).getLsbD i = if i = f.index then v else w.getLsbD i := by
  have := f.index_lt
  unfold statusPut
  by_cases h : i = f.index
  · subst h; cases v <;> simp [StatusBit.getLsbD_mask]
  · cases v
    · simp only [Bool.false_eq_true, ↓reduceIte, BitVec.getLsbD_and, BitVec.getLsbD_not, StatusBit.getLsbD_mask, h,
        decide_false, Bool.not_false, Bool.and_true, Bool.and_eq_left_iff_imp, decide_eq_true_eq]
      exact BitVec.lt_of_getLsbD
    · simp [StatusBit.getLsbD_mask, h]

theorem statusGet_put_same (w : Byte) (f : StatusBit) (v : Bool) : statusGet (statusPut w f v) f = v := by
  rw [statusGet, statusPut_getLsbD, if_pos rfl]

theorem statusGet_put_other (w : Byte) (f g : StatusBit) (v : Bool) (h : f ≠ g) :
    statusGet (statusPut w f v) g = statusGet w g := by
  rw [statusGet, statusPut_getLsbD, if_neg fun e => h (StatusBit.index_inj _ _ e.symm)]
  rfl

/-- Bits 7:4 are never written (R23). -/
theorem statusPut_high (w : Byte) (f : StatusBit) (v : Bool) : statusPut w f v &&& 0xF0#8 = w &&& 0xF0#8 := by
  apply BitVec.eq_of_getLsbD_eq
  intro i _
  simp only [BitVec.getLsbD_and, statusPut_getLsbD]
  split
  · next h => subst h; cases f <;> simp [StatusBit.index]
  · rfl

theorem statusPut_comm (w : Byte) (f g : StatusBit) (u v : Bool) (h : f ≠ g) :
    statusPut (statusPut w f u) g v = statusPut (statusPut w g v) f u := by
  have : ¬ f.index = g.index := fun e => h (StatusBit.index_inj _ _ e)
  apply BitVec.eq_of_getLsbD_eq
  intro i _
  simp only [statusPut_getLsbD]
  split <;> split <;> simp_all

@[simp] theorem State.flag_setFlag (s : State) (f : StatusBit) (v : Bool) : (s.setFlag f v).flag f = v :=
  statusGet_put_same _ _ _

theorem State.flag_setFlag_other (s : State) (f g : StatusBit) (v : Bool) (h : f ≠ g) :
    (s.setFlag f v).flag g = s.flag g :=
  statusGet_put_other _ _ _ _ h

@[simp] theorem State.flag_deliver (s : State) (r : Result) (f : StatusBit) : (s.deliver r).flag f = s.flag f := rfl

section
variable (s : State) (r : Reg)

@[simp] theorem State.read_status : (s.read r).status = s.status := by unfold State.read; split <;> rfl
@[simp] theorem State.read_err : (s.read r).err = s.err := by unfold State.read; split <;> rfl
@[simp] theorem State.read_len : (s.read r).len = s.len := by unfold State.read; split <;> rfl
@[simp] theorem State.read_opc : (s.read r).opc = s.opc := by unfold State.read; split <;> rfl
@[simp] theorem State.read_cnt : (s.read r).cnt = s.cnt := by unfold State.read; split <;> rfl
@[simp] theorem State.read_cntWritten : (s.read r).cntWritten = s.cntWritten := by unfold State.read; split <;> rfl
@[simp] theorem State.read_cur : (s.read r).cur = s.cur := by unfold State.read; split <;> rfl
@[simp] theorem State.read_ilen : (s.read r).ilen = s.ilen := by unfold State.read; split <;> rfl
@[simp] theorem State.read_ibuf : (s.read r).ibuf = s.ibuf := by unfold State.read; split <;> rfl
@[simp] theorem State.read_ctxRx : (s.read r).ctxRx = s.ctxRx := by unfold State.read; split <;> rfl
@[simp] theorem State.read_ctxTx : (s.read r).ctxTx = s.ctxTx := by unfold State.read; split <;> rfl
@[simp] theorem State.read_result : (s.read r).result = s.result := by unfold State.read; split <;> rfl
@[simp] theorem State.read_host : (s.read r).host = s.host := by unfold State.read; split <;> rfl

end

end Sys2Proof.Machine
end

