-- ==== Sys2Proof/Laws/Ops.lean ====
section
/-! SUPPORT. What each shared operation can do, said once: the receive buffer's storage, the outcomes of an operation, and
reading a frame at the cursor. -/

namespace Sys2Proof.Machine

/-! ### The receive buffer -/

theorem Memory.read_cellsFrom (bs : Bytes) (a x : Nat) :
    (Memory.cellsFrom a bs).read x = if x < a then none else bs[x - a]? := by
  induction bs generalizing a with
  | nil => simp [Memory.cellsFrom, Memory.read]
  | cons b rest ih =>
    simp only [Memory.cellsFrom, Memory.read, ih]
    rcases lt_trichotomy x a with h | h | h
    · simp [h, h.ne, Nat.lt_succ_of_lt h]
    · simp [h]
    · have : x - a = (x - (a + 1)) + 1 := by omega
      simp [this, h.ne', show ¬ x < a + 1 by omega, show ¬ x < a by omega]

/-- Reading a loaded buffer. -/
theorem Memory.read_load (bs : Bytes) (x : Nat) : (Memory.load bs).read x = bs[x]? := by
  simp [Memory.load, Memory.read_cellsFrom]

theorem Memory.le_of_mem_cellsFrom (bs : Bytes) (a : Nat) : ∀ c ∈ Memory.cellsFrom a bs, a ≤ c.1 := by
  induction bs generalizing a with
  | nil => simp [Memory.cellsFrom]
  | cons b rest ih =>
    intro c hc
    rcases List.mem_cons.1 hc with rfl | hc
    · exact Nat.le_refl a
    · exact Nat.le_of_succ_le (ih (a + 1) c hc)

theorem Memory.wf_cellsFrom (bs : Bytes) (a : Nat) : (Memory.cellsFrom a bs).wf = true := by
  induction bs generalizing a with
  | nil => rfl
  | cons b rest ih =>
    simp only [Memory.cellsFrom, Memory.wf, ih, Bool.and_true, List.all_eq_true, decide_eq_true_eq]
    exact fun c hc => Memory.le_of_mem_cellsFrom rest (a + 1) c hc

/-- The canonical form: the one operation that writes IBUF builds it. -/
theorem Memory.wf_load (bs : Bytes) : (Memory.load bs).wf = true := Memory.wf_cellsFrom bs 0

/-- The canonical form holds at reset. -/
theorem Memory.wf_reset : State.reset.ibuf.wf = true := rfl

theorem Memory.fst_cellsFrom (bs : Bytes) (a : Nat) :
    (Memory.cellsFrom a bs).map Prod.fst = List.range' a bs.length := by
  induction bs generalizing a with
  | nil => rfl
  | cons b rest ih => simp [Memory.cellsFrom, List.range'_succ, ih]

theorem Memory.snd_cellsFrom (bs : Bytes) (a : Nat) : (Memory.cellsFrom a bs).map Prod.snd = bs := by
  induction bs generalizing a with
  | nil => rfl
  | cons b rest ih => simp [Memory.cellsFrom, ih]

theorem Memory.fst_load (bs : Bytes) : (Memory.load bs).map Prod.fst = List.range bs.length := by
  rw [Memory.load, Memory.fst_cellsFrom, List.range_eq_range']

theorem Memory.snd_load (bs : Bytes) : (Memory.load bs).map Prod.snd = bs := Memory.snd_cellsFrom bs 0

theorem Memory.eq_cellsFrom (m : Memory) (a n : Nat) (h : m.map Prod.fst = List.range' a n) :
    m = Memory.cellsFrom a (m.map Prod.snd) := by
  induction m generalizing a n with
  | nil => rfl
  | cons c rest ih =>
    cases n with
    | zero => simp at h
    | succ n =>
      simp only [List.map_cons, List.range'_succ, List.cons.injEq] at h
      simp only [List.map_cons, Memory.cellsFrom]
      rw [← ih (a + 1) n h.2, ← h.1]

/-- A buffer that lists exactly the offsets below `ILEN` is the loaded buffer of its bytes. -/
theorem State.IbufValid.eq_load {s : State} (h : s.IbufValid) : s.ibuf = Memory.load s.ibufBytes :=
  Memory.eq_cellsFrom _ 0 s.ilen (by rw [← List.range_eq_range']; exact h)

theorem State.IbufValid.length_eq {s : State} (h : s.IbufValid) : s.ibufBytes.length = s.ilen := by
  have := congrArg List.length h
  simpa [State.ibufBytes] using this

theorem State.IbufValid.wf {s : State} (h : s.IbufValid) : s.ibuf.wf = true := by
  rw [h.eq_load]; exact Memory.wf_load _

/-- `MemRead` of a loaded buffer, within its extent. -/
theorem memRead_load (bs : Bytes) (n a : Nat) (h : a + n ≤ bs.length) :
    memRead (Memory.load bs) a n = .ok ((bs.drop a).take n) := by
  induction n generalizing a with
  | zero => simp [memRead]
  | succ n ih =>
    have ha : a < bs.length := by omega
    rw [memRead, Memory.read_load, List.getElem?_eq_getElem ha]
    simp only [ih (a + 1) (by omega)]
    rw [List.drop_eq_getElem_cons ha, List.take_succ_cons]

/-- `MemRead` within `ILEN` reads the bytes there. -/
theorem State.IbufValid.memRead {s : State} (h : s.IbufValid) (a n : Nat) (hn : a + n ≤ s.ilen) :
    memRead s.ibuf a n = .ok ((s.ibufBytes.drop a).take n) := by
  rw [h.eq_load]; exact memRead_load _ _ _ (by rw [h.length_eq]; exact hn)

/-- Whatever MemRead reads, it reads the asked number of bytes or stops in a fault of the model. -/
theorem memRead_length (m : Memory) (n a : Nat) (bs : Bytes) (h : memRead m a n = .ok bs) : bs.length = n := by
  induction n generalizing a bs with
  | zero => simp [memRead] at h; simp [← h]
  | succ n ih =>
    rw [memRead] at h
    split at h
    · cases h
    · split at h
      · cases h
      · next _ _ vs hv => cases h; simp [ih _ _ hv]

/-- A long read is a short one and the one after it. -/
theorem memRead_split (m : Memory) (n k a : Nat) (bs : Bytes) (h : memRead m a (n + k) = .ok bs) :
    memRead m a n = .ok (bs.take n) ∧ memRead m (a + n) k = .ok (bs.drop n) := by
  induction n generalizing a bs with
  | zero => rw [Nat.zero_add] at h; exact ⟨by simp [memRead], by simpa using h⟩
  | succ n ih =>
    rw [Nat.add_right_comm, memRead] at h
    rw [memRead]
    split at h
    · cases h
    · split at h
      · cases h
      · next _ _ _ vs hvs =>
        cases h
        have h1 := ih (a + 1) vs hvs
        rw [h1.1, show a + (n + 1) = a + 1 + n by omega]
        exact ⟨rfl, h1.2⟩

/-! ### Outcomes -/

/-- All a register read can do: the read port takes the register's value, or the refusal while there is none (R22, R25). -/
theorem State.read_of_readReg {s : State} {r : Reg} {n : Nat} (h : s.readReg r = some n) :
    s.read r = { s with regOut := .value n } := by
  simp only [State.read, h]

theorem State.read_of_noValue {s : State} {r : Reg} (h : s.readReg r = none) : s.read r = { s with regOut := .refused r } := by
  simp only [State.read, h]

/-- `raise` outside the receive decodes writes ERR alone. -/
theorem State.raise_false (s : State) (k : ErrKind) : s.raise false k = s.failsWith k.code := rfl

/-- A refusal writes ERR alone (R281). -/
theorem State.raise_refusal (s : State) (r : Bool) (k : ErrKind) (h : k.isRefusal = true) :
    s.raise r k = s.failsWith k.code := by
  simp [State.raise, State.failsWith, h]

/-- An error of a receive decode writes ERR and RXDEAD (R280). -/
theorem State.raise_error (s : State) (k : ErrKind) (h : k.isRefusal = false) :
    s.raise true k = s.diesWith k.code := by
  simp [State.raise, State.diesWith, h, Config.rxSticky, statusPut, StatusBit.mask, StatusBit.index]

theorem ErrKind.code_ne_zero (k : ErrKind) : k.code ≠ 0 := by cases k <;> decide

theorem ErrKind.code_le (k : ErrKind) : k.code.toNat ≤ 11 := by cases k <;> decide

theorem ErrKind.isRefusal_iff (k : ErrKind) : k.isRefusal = true ↔ 9 ≤ k.code.toNat := by cases k <;> decide

/-- Everything `settle` can do. -/
theorem settle_next {r : Bool} {s t : State} {body : Except Stop State} (h : settle r s body = .next t) :
    body = .ok t ∨ ∃ k, body = .error (.err k) ∧ t = s.raise r k := by
  unfold settle at h
  split at h
  · cases h; exact .inl rfl
  · cases h; exact .inr ⟨_, rfl, rfl⟩
  · cases h

/-- No body ends in a refusal of the model: an error or refusal of the block is a next state (R280, R281). -/
theorem settle_not_refused (r : Bool) (s : State) (body : Except Stop State) (e : Refusal) :
    settle r s body ≠ .refused e := by
  match body with
  | .ok _ => nofun
  | .error (.err _) => nofun
  | .error (.fault _) => nofun

@[simp] theorem settle_ok (r : Bool) (s t : State) : settle r s (.ok t) = .next t := rfl

@[simp] theorem settle_err (r : Bool) (s : State) (k : ErrKind) :
    settle r s (.error (.err k)) = .next (s.raise r k) := rfl

/-- A stateless operation answers a next state on everything, and it writes ERR and the result port alone (R42). -/
theorem pureOp_ok (s : State) (r : Result) : pureOp s (.ok r) = .next (s.succeeds r) := rfl

theorem pureOp_error (s : State) (k : ErrKind) : pureOp s (.error k) = .next (s.failsWith k.code) := rfl

theorem requireRxLive_ok {s : State} (h : s.flag .rxDead = false) : requireRxLive s = .ok () := by
  simp [requireRxLive, h]

theorem requireRxLive_dead {s : State} (h : s.flag .rxDead = true) : requireRxLive s = .error (.err .rxDead) := by
  simp [requireRxLive, h]

/-! ### The header and the frame at the cursor -/

theorem lengthOf_eq (b0 b1 b2 b3 : Byte) : leNat [b0, b1, b2, b3] = lengthOf b0 b1 b2 b3 := by
  simp [leNat, lengthOf]; omega

theorem lengthOf_lt (b0 b1 b2 b3 : Byte) : lengthOf b0 b1 b2 b3 < 4294967296 := by
  have := b0.isLt; have := b1.isLt; have := b2.isLt; have := b3.isLt
  simp only [lengthOf]; omega

theorem State.BufferValid.ahead_length {s : State} (h : s.BufferValid) : s.ahead.length = s.ilen - s.cur := by
  rw [State.ahead, List.length_drop, h.1.length_eq]

/-- Fewer than five bytes ahead (R151). -/
theorem readHeader_short {s : State} (hb : s.BufferValid) (h : s.ahead.length < 5) :
    readHeader s s.cur = .error (.err .framingError) := by
  rw [hb.ahead_length] at h
  simp [readHeader, h]

/-- The header of the bytes ahead (R151). -/
theorem readHeader_ahead {s : State} (hb : s.BufferValid) {b0 b1 b2 b3 op : Byte} {rest : Bytes}
    (h : s.ahead = b0 :: b1 :: b2 :: b3 :: op :: rest) :
    readHeader s s.cur = .ok (BitVec.ofNat 32 (lengthOf b0 b1 b2 b3), op) := by
  have hl := hb.ahead_length
  rw [h] at hl
  simp only [List.length_cons] at hl
  have h1 := hb.1.memRead s.cur 4 (by omega)
  have h2 := hb.1.memRead (s.cur + 4) 1 (by omega)
  have hd : s.ibufBytes.drop (s.cur + 4) = op :: rest := by
    rw [← List.drop_drop]
    change (s.ahead).drop 4 = _
    rw [h]; rfl
  have hd0 : s.ibufBytes.drop s.cur = b0 :: b1 :: b2 :: b3 :: op :: rest := h
  rw [hd] at h2
  rw [hd0] at h1
  simp only [readHeader, show ¬ s.ilen - s.cur < 5 by omega, if_false, h1, h2]
  simp [lengthOf_eq, bind, Except.bind, pure, Except.pure]

/-- ParseHeader of the bytes ahead (R151). -/
theorem parseHeader_ahead {s : State} (hb : s.BufferValid) {b0 b1 b2 b3 op : Byte} {rest : Bytes}
    (h : s.ahead = b0 :: b1 :: b2 :: b3 :: op :: rest) :
    parseHeader s s.cur =
      if lengthOf b0 b1 b2 b3 = 0 then .error (.err .framingError)
      else .ok (BitVec.ofNat 32 (lengthOf b0 b1 b2 b3), op) := by
  have hlt := lengthOf_lt b0 b1 b2 b3
  have h0 : BitVec.ofNat 32 (lengthOf b0 b1 b2 b3) = (0 : U32) ↔ lengthOf b0 b1 b2 b3 = 0 := by
    rw [← BitVec.toNat_inj]; simp [Nat.mod_eq_of_lt hlt]
  simp only [parseHeader, readHeader_ahead hb h, bind, Except.bind]
  by_cases hz : lengthOf b0 b1 b2 b3 = 0
  · rw [if_pos (h0.2 hz), if_pos hz]; rfl
  · rw [if_neg (fun e => hz (h0.1 e)), if_neg hz]; rfl

theorem parseHeader_short {s : State} (hb : s.BufferValid) (h : s.ahead.length < 5) :
    parseHeader s s.cur = .error (.err .framingError) := by
  simp only [parseHeader, readHeader_short hb h]; rfl

theorem parseFrame_short {s : State} (hb : s.BufferValid) (h : s.ahead.length < 5) :
    parseFrame s = .error (.err .framingError) := by
  simp only [parseFrame, parseHeader_short hb h]; rfl

/-- A zero length, or a frame that is not wholly in IBUF (R153). -/
theorem parseFrame_bad {s : State} (hb : s.BufferValid) {b0 b1 b2 b3 op : Byte} {rest : Bytes}
    (h : s.ahead = b0 :: b1 :: b2 :: b3 :: op :: rest)
    (hl : lengthOf b0 b1 b2 b3 = 0 ∨ rest.length + 1 < lengthOf b0 b1 b2 b3) :
    parseFrame s = .error (.err .framingError) := by
  have hlt := lengthOf_lt b0 b1 b2 b3
  have ha := hb.ahead_length
  rw [h] at ha
  simp only [List.length_cons] at ha
  simp only [parseFrame, parseHeader_ahead hb h]
  split
  · rfl
  · next h0 =>
    have : s.ilen - s.cur - 5 < (BitVec.ofNat 32 (lengthOf b0 b1 b2 b3)).toNat - 1 := by
      rw [BitVec.toNat_ofNat, Nat.mod_eq_of_lt hlt]; omega
    simp only [bind, Except.bind, this, if_true]; rfl

/-- A frame wholly in IBUF (R153). -/
theorem parseFrame_whole {s : State} (hb : s.BufferValid) {b0 b1 b2 b3 op : Byte} {p more : Bytes}
    (h : s.ahead = b0 :: b1 :: b2 :: b3 :: op :: (p ++ more)) (hl : lengthOf b0 b1 b2 b3 = 1 + p.length) :
    parseFrame s = .ok (BitVec.ofNat 32 (1 + p.length), op, p) := by
  have hlt := lengthOf_lt b0 b1 b2 b3
  have ha := hb.ahead_length
  rw [h] at ha
  simp only [List.length_cons, List.length_append] at ha
  have hn : (BitVec.ofNat 32 (1 + p.length)).toNat = 1 + p.length := by
    rw [BitVec.toNat_ofNat, Nat.mod_eq_of_lt (by omega)]
  have hm := hb.1.memRead (s.cur + 5) p.length (by omega)
  have hd : s.ibufBytes.drop (s.cur + 5) = p ++ more := by
    rw [← List.drop_drop]
    change (s.ahead).drop 5 = _
    rw [h]; rfl
  rw [hd, List.take_left'  rfl] at hm
  simp only [parseFrame, parseHeader_ahead hb h, hl, show ¬ 1 + p.length = 0 by omega, if_false, bind, Except.bind, hn,
    show 1 + p.length - 1 = p.length by omega, show ¬ s.ilen - s.cur - 5 < p.length by omega, hm]
  rfl

/-- What `afterFrame` says is what a full decode writes. -/
theorem State.consumeFrame_deliver (s : State) (total : U32) (op : Byte) (r : Result) :
    (s.consumeFrame total op).deliver r = s.afterFrame total op r := by
  simp [State.consumeFrame, State.deliver, State.afterFrame, State.setHeader, State.setFlag, statusPut, StatusBit.mask,
    StatusBit.index, Nat.add_assoc]

end Sys2Proof.Machine
end

