-- ==== Sys2Proof/Laws/Exec.lean ====
section
/-! SUPPORT. For each operation, everything it can do when it answers a next state. -/

namespace Sys2Proof.Machine

/-! ### Stateless operations -/

theorem pureOp_next {s t : State} {x : Except ErrKind Result} (h : pureOp s x = .next t) :
    (∃ r, x = .ok r ∧ t = s.succeeds r) ∨ ∃ k, x = .error k ∧ t = s.raise false k := by
  cases x with
  | ok r => cases h; exact .inl ⟨r, rfl, rfl⟩
  | error k => cases h; exact .inr ⟨k, rfl, rfl⟩

/-- A stateless operation is one fixed outcome, whatever the state (R42). -/
theorem exec_stateless (i : Instr) (h : i.stateless = true) :
    ∃ x : Except ErrKind Result, ∀ s, exec i s = pureOp s x := by
  cases i <;> first | cases h; done | exact ⟨_, fun _ => rfl⟩ | exact ⟨.ok _, fun _ => rfl⟩

/-- Every instruction is stateless, a wire command, or one of the eight host operations on the block's state. -/
theorem instr_kinds (i : Instr) :
    i.stateless = true ∨ (∃ v total p, i = frameInstr v total p) ∨ i = .hdrPeek ∨ i = .frmDecode ∨ i = .cmdDecode ∨
      (∃ b, i = .rxLoad b) ∨ (∃ v, i = .cmdEncode v) ∨ (∃ d k, i = .cNew d k) ∨ (∃ d, i = .cNewPh d) ∨
      ∃ d b, i = .cCrypt d b := by
  cases i <;> first
    | exact .inl rfl
    | exact .inr (.inl ⟨.protocolHeader, _, _, rfl⟩)
    | exact .inr (.inl ⟨.speed, _, _, rfl⟩)
    | exact .inr (.inl ⟨.connectionType, _, _, rfl⟩)
    | exact .inr (.inl ⟨.nodeDetails, _, _, rfl⟩)
    | exact .inr (.inl ⟨.anotherNode, _, _, rfl⟩)
    | exact .inr (.inl ⟨.bbsPort, _, _, rfl⟩)
    | exact .inr (.inl ⟨.diffusionRequest, _, _, rfl⟩)
    | exact .inr (.inl ⟨.fileRequest, _, _, rfl⟩)
    | exact .inr (.inl ⟨.conditionalDiffusionRequest, _, _, rfl⟩)
    | exact .inr (.inl ⟨.query, _, _, rfl⟩)
    | exact .inr (.inl ⟨.fileResponse, _, _, rfl⟩)
    | exact .inr (.inl ⟨.close, _, _, rfl⟩)
    | exact .inr (.inl ⟨.connectedLimitation, _, _, rfl⟩)
    | exact .inr (.inl ⟨.wrongListeningPort, _, _, rfl⟩)
    | exact .inr (.inl ⟨.reject, _, _, rfl⟩)
    | exact .inr (.inl ⟨.slow, _, _, rfl⟩)
    | exact .inr (.inl ⟨.liar, _, _, rfl⟩)
    | exact .inr (.inl ⟨.lowVersion, _, _, rfl⟩)
    | simp

theorem instr_receives_frameInstr (v : Variant) (total : U32) (p : Bytes) :
    (frameInstr v total p).receives = true := by cases v <;> rfl

theorem instr_receives_of_stateless (i : Instr) (h : i.stateless = true) : i.receives = false := by
  cases i <;> first | rfl | cases h

/-! ### The receive path -/

/-- The context after a decode: unchanged, but advanced over the whole payload for a ProtocolHeader (R170, R171). -/
theorem decodePayload_ok {v : Variant} {p : Bytes} {rx rx' : Option CipherState} {cmd : Command}
    (h : decodePayload v p rx = .ok (cmd, rx')) :
    checkLength v p = .ok () ∧
      ((v ≠ .protocolHeader ∧ rx' = rx ∧ decPlain v p = .ok cmd) ∨
        (v = .protocolHeader ∧ ∃ c, rx = some c ∧ rx' = some (crypt c p).2 ∧ decPlain v (crypt c p).1 = .ok cmd)) := by
  by_cases hv : v = .protocolHeader
  · subst hv
    cases rx with
    | none => cases h
    | some c =>
      simp only [decodePayload, bind, Except.bind] at h
      split at h
      · cases h
      · next hc =>
        split at h
        · cases h
        · next hd => cases h; exact ⟨hc, .inr ⟨rfl, c, rfl, rfl, hd⟩⟩
  · have h' : (do checkLength v p; let cmd ← decPlain v p; return (cmd, rx)) = Except.ok (cmd, rx') := by
      rw [← h]; cases v <;> first | rfl | exact absurd rfl hv
    simp only [bind, Except.bind] at h'
    split at h'
    · cases h'
    · next hc =>
      split at h'
      · cases h'
      · next hd => cases h'; exact ⟨hc, .inl ⟨hv, rfl, hd⟩⟩

theorem orErr_ok {α : Type} {x : Except ErrKind α} {a : α} : orErr x = .ok a ↔ x = .ok a := by
  cases x <;> simp [orErr]

theorem acceptCommand_eq (s : State) (v : Variant) (total : U32) (p : Bytes) :
    acceptCommand s v total p =
      match decodePayload v p s.ctxRx with
      | .error k => .error (.err k)
      | .ok r => .ok { s.afterFrame total (opcodeOf v) (.command r.1) with ctxRx := r.2 } := by
  simp only [acceptCommand]
  cases decodePayload v p s.ctxRx with
  | error k => rfl
  | ok r =>
    obtain ⟨cmd, rx⟩ := r
    have h := State.consumeFrame_deliver s total (opcodeOf v) (.command cmd)
    simp only [orErr, bind, Except.bind, pure, Except.pure, ← h]
    rfl

theorem acceptCommand_ok {s t : State} {v : Variant} {total : U32} {p : Bytes}
    (h : acceptCommand s v total p = .ok t) : ∃ cmd rx, decodePayload v p s.ctxRx = .ok (cmd, rx) ∧
      t = { s.afterFrame total (opcodeOf v) (.command cmd) with ctxRx := rx } := by
  rw [acceptCommand_eq] at h
  split at h
  · cases h
  · next r hr => cases h; exact ⟨r.1, r.2, hr, rfl⟩

/-- A wire command on a live receive path with its frame wholly in IBUF is its payload's decode (R155). -/
theorem receiveFrame_receivable {s : State} {total : U32} (h : s.Receivable total) (v : Variant) (p : Bytes) :
    receiveFrame v total p s = settle true s (acceptCommand s v total p) := by
  obtain ⟨h1, h2, h3⟩ := h
  have h0 : ¬ total = 0 := by rintro rfl; simp at h2
  simp only [receiveFrame, requireRxLive_ok h1, h0, show ¬ s.ilen < s.cur + 4 + total.toNat by omega, if_false]
  rfl

/-- Everything a wire command can do. -/
theorem receiveFrame_next {s t : State} {v : Variant} {total : U32} {p : Bytes}
    (h : receiveFrame v total p s = .next t) :
    (s.Receivable total ∧ ∃ cmd rx, decodePayload v p s.ctxRx = .ok (cmd, rx) ∧
      t = { s.afterFrame total (opcodeOf v) (.command cmd) with ctxRx := rx }) ∨
    ∃ k, t = s.raise true k := by
  by_cases hr : s.Receivable total
  · rw [receiveFrame_receivable hr] at h
    rcases settle_next h with h | ⟨k, -, h⟩
    · exact .inl ⟨hr, acceptCommand_ok h⟩
    · exact .inr ⟨k, h⟩
  · refine .inr ?_
    rcases settle_next h with h | ⟨k, -, h⟩
    · exfalso
      apply hr
      by_cases h1 : s.flag .rxDead = true
      · rw [requireRxLive_dead h1] at h; cases h
      · rw [Bool.not_eq_true] at h1
        rw [requireRxLive_ok h1] at h
        simp only [bind, Except.bind] at h
        split at h
        · cases h
        · next h0 =>
          split at h
          · cases h
          · next h2 =>
            refine ⟨h1, ?_, by omega⟩
            have : total.toNat ≠ 0 := fun e => h0 (BitVec.eq_of_toNat_eq e)
            omega
    · exact ⟨k, h⟩

theorem exec_frameInstr (v : Variant) (total : U32) (p : Bytes) (s : State) :
    exec (frameInstr v total p) s = receiveFrame v total p s := by cases v <;> rfl

theorem parseHeader_ok {s : State} {f : Nat} {total : U32} {op : Byte} (h : parseHeader s f = .ok (total, op)) :
    1 ≤ total.toNat ∧ f + 5 ≤ s.ilen := by
  simp only [parseHeader, bind, Except.bind] at h
  split at h
  · cases h
  · next hd hh =>
    split at h
    · cases h
    · next h0 =>
      cases h
      constructor
      · have : total.toNat ≠ 0 := fun e => h0 (BitVec.eq_of_toNat_eq e)
        omega
      · unfold readHeader at hh
        split at hh
        · cases hh
        · next hlt => omega

theorem parseFrame_ok {s : State} {total : U32} {op : Byte} {p : Bytes} (h : parseFrame s = .ok (total, op, p)) :
    parseHeader s s.cur = .ok (total, op) ∧ s.cur + (4 + total.toNat) ≤ s.ilen ∧
      memRead s.ibuf (s.cur + 5) (total.toNat - 1) = .ok p ∧ p.length + 1 = total.toNat := by
  simp only [parseFrame, bind, Except.bind] at h
  split at h
  · cases h
  · next hd hh =>
    obtain ⟨t', op'⟩ := hd
    dsimp only at h
    split at h
    · cases h
    · next hlt =>
      split at h
      · cases h
      · next p' hp =>
        cases h
        have h1 := parseHeader_ok hh
        have h2 := memRead_length _ _ _ _ hp
        exact ⟨hh, by omega, hp, by omega⟩

theorem execHdrPeek_next {s t : State} (h : execHdrPeek s = .next t) :
    (s.flag .rxDead = false ∧ ∃ total op, parseHeader s s.cur = .ok (total, op) ∧
      t = { s with len := total, opc := op, status := s.status ||| 0x08#8, err := 0, result := .header total op }) ∨
    ∃ k, t = s.raise true k := by
  rcases settle_next h with h | ⟨k, -, h⟩
  · left
    by_cases h1 : s.flag .rxDead = true
    · rw [requireRxLive_dead h1] at h; cases h
    · rw [Bool.not_eq_true] at h1
      rw [requireRxLive_ok h1] at h
      simp only [bind, Except.bind] at h
      split at h
      · cases h
      · next hd hh => cases h; exact ⟨h1, hd.1, hd.2, hh, rfl⟩
  · exact .inr ⟨k, h⟩

theorem execFrmDecode_next {s t : State} (h : execFrmDecode s = .next t) :
    (s.flag .rxDead = false ∧ ∃ total op p, parseFrame s = .ok (total, op, p) ∧
      t = s.afterFrame total op (.frame op p)) ∨
    ∃ k, t = s.raise true k := by
  rcases settle_next h with h | ⟨k, -, h⟩
  · left
    by_cases h1 : s.flag .rxDead = true
    · rw [requireRxLive_dead h1] at h; cases h
    · rw [Bool.not_eq_true] at h1
      rw [requireRxLive_ok h1] at h
      simp only [bind, Except.bind] at h
      split at h
      · cases h
      · next hd hh => cases h; exact ⟨h1, hd.1, hd.2.1, hd.2.2, hh, State.consumeFrame_deliver _ _ _ _⟩
  · exact .inr ⟨k, h⟩

theorem execCmdDecode_next {s t : State} (h : execCmdDecode s = .next t) :
    (s.flag .rxDead = false ∧ ∃ total v p cmd rx, parseFrame s = .ok (total, opcodeOf v, p) ∧
      decodePayload v p s.ctxRx = .ok (cmd, rx) ∧
      t = { s.afterFrame total (opcodeOf v) (.command cmd) with ctxRx := rx }) ∨
    ∃ k, t = s.raise true k := by
  rcases settle_next h with h | ⟨k, -, h⟩
  · left
    by_cases h1 : s.flag .rxDead = true
    · rw [requireRxLive_dead h1] at h; cases h
    · rw [Bool.not_eq_true] at h1
      rw [requireRxLive_ok h1] at h
      simp only [bind, Except.bind] at h
      split at h
      · cases h
      · next hd hh =>
        obtain ⟨total, op, p⟩ := hd
        dsimp only at h
        split at h
        · cases h
        · next v hv =>
          obtain ⟨cmd, rx, hc, ht⟩ := acceptCommand_ok h
          have := opcodeOf_of_variantOf op v hv
          subst this
          exact ⟨h1, total, v, p, cmd, rx, hh, hc, ht⟩
  · exact .inr ⟨k, h⟩

theorem execRxLoad_next {s t : State} {b : Bytes} (h : execRxLoad b s = .next t) :
    (s.flag .rxDead = false ∧ Config.ibufFits b.length = true ∧
      t = { s with ibuf := Memory.load b, ilen := b.length, cur := 0, status := s.status &&& 0xF7#8, err := 0,
                   result := .none }) ∨
    ∃ k, t = s.raise false k := by
  rcases settle_next h with h | ⟨k, -, h⟩
  · left
    by_cases h1 : s.flag .rxDead = true
    · rw [requireRxLive_dead h1] at h; cases h
    · rw [Bool.not_eq_true] at h1
      rw [requireRxLive_ok h1] at h
      simp only [bind, Except.bind] at h
      split at h
      · next hf => cases h; exact ⟨h1, hf, rfl⟩
      · cases h
  · exact .inr ⟨k, h⟩

/-! ### The transmit path -/

theorem encodePayload_ok {v : Command} {tx tx' : Option CipherState} {p : Bytes}
    (h : encodePayload v tx = .ok (p, tx')) :
    legalCommand v = true ∧
      (((∀ m j, v ≠ .protocolHeader m j) ∧ tx' = tx ∧ p = encPlain v) ∨
        ∃ m j c, v = .protocolHeader m j ∧ tx = some c ∧ p = (crypt c (leU32 m ++ j)).1 ∧
          tx' = some (crypt c (leU32 m ++ j)).2) := by
  unfold encodePayload at h
  split at h
  · next hl =>
    refine ⟨hl, ?_⟩
    split at h
    · next m j =>
      cases tx with
      | none => cases h
      | some c => cases h; exact .inr ⟨m, j, c, rfl, rfl, rfl, rfl⟩
    · next hne => cases h; exact .inl ⟨fun m j e => hne m j e, rfl, rfl⟩
  · cases h

theorem execCmdEncode_next {s t : State} {v : Command} (h : execCmdEncode v s = .next t) :
    (∃ p tx f, encodePayload v s.ctxTx = .ok (p, tx) ∧ frameBytes (opcodeOf (variantOfCommand v)) p = .ok f ∧
      t = { s with ctxTx := tx, err := 0, result := .bytes f }) ∨
    ∃ k, t = s.raise false k := by
  rcases settle_next h with h | ⟨k, -, h⟩
  · left
    rw [orErr_ok] at h
    simp only [bind, Except.bind] at h
    split at h
    · cases h
    · next pt hp =>
      split at h
      · cases h
      · next f hf => cases h; exact ⟨pt.1, pt.2, f, hp, hf, rfl⟩
  · exact .inr ⟨k, h⟩

/-! ### The cipher contexts -/

theorem execCCrypt_next {s t : State} {d : Dir} {data : Bytes} (h : execCCrypt d data s = .next t) :
    (∃ c, s.ctx d = some c ∧ t = (s.setCtx d (some (crypt c data).2)).succeeds (.bytes (crypt c data).1)) ∨
    (s.ctx d = none ∧ t = s.raise false .contextNotKeyed) := by
  unfold execCCrypt at h
  split at h
  · next hn => cases h; exact .inr ⟨hn, rfl⟩
  · next c hc => cases h; exact .inl ⟨c, hc, rfl⟩

/-! ### Every instruction -/

/-- No instruction ends in a refusal of the model. -/
theorem exec_not_refused (i : Instr) (s : State) (e : Refusal) : exec i s ≠ .refused e := by
  rcases instr_kinds i with h | ⟨v, n, p, rfl⟩ | rfl | rfl | rfl | ⟨b, rfl⟩ | ⟨v, rfl⟩ | ⟨d, k, rfl⟩ | ⟨d, rfl⟩ | ⟨d, b, rfl⟩
  · obtain ⟨x, hx⟩ := exec_stateless i h
    rw [hx]
    exact settle_not_refused _ _ _ e
  · rw [exec_frameInstr]
    exact settle_not_refused _ _ _ e
  all_goals first | exact settle_not_refused _ _ _ e | nofun

end Sys2Proof.Machine
end

