-- ==== Sys2Proof/Laws/Payload.lean ====
section
/-! SUPPORT. The record and payload codecs: what a written record reads back as, how long a payload is, which errors a
reader of records can give, and a wire command's outcome from its payload's. -/

namespace Sys2Proof.Machine

/-! ### Sequencing of outcomes -/

@[simp] theorem except_ok_bind {ε α β : Type} (a : α) (f : α → Except ε β) : (Except.ok a >>= f) = f a := rfl

@[simp] theorem except_error_bind {ε α β : Type} (e : ε) (f : α → Except ε β) : (Except.error e >>= f) = .error e := rfl

theorem except_bind_ok {ε α β : Type} {x : Except ε α} {f : α → Except ε β} {b : β} (h : (x >>= f) = .ok b) :
    ∃ a, x = .ok a ∧ f a = .ok b := by
  cases x with
  | ok a => exact ⟨a, rfl, h⟩
  | error e => cases h

theorem except_bind_error {ε α β : Type} {x : Except ε α} {f : α → Except ε β} {e : ε} (h : (x >>= f) = .error e) :
    x = .error e ∨ ∃ a, x = .ok a ∧ f a = .error e := by
  cases x with
  | ok a => exact .inr ⟨a, rfl, h⟩
  | error e' => cases h; exact .inl rfl

/-! ### KeyInfo and ViaNode -/

theorem legalKeyInfo_iff (k : KeyInfo) : legalKeyInfo k = true ↔
    k.fileHash.length ≤ 16 ∧ 0 ∉ k.fileHash ∧ k.name.length ≤ 255 ∧ k.sharingSig.length ≤ 11 ∧ 0 ∉ k.sharingSig ∧
      k.bbsSig.length ≤ 255 := by
  simp only [legalKeyInfo, Bool.and_eq_true, fwLegal_iff, lpLegal_iff, Config.hashW, Config.kiSigW]
  tauto

theorem decodeViaNode_encodeViaNode (n : ViaNode) (r : Bytes) : decodeViaNode (encodeViaNode n ++ r) = .ok (n, r) := by
  simp only [encodeViaNode, List.append_assoc, decodeViaNode, takeAddr_append, except_ok_bind, takeU16_append]; rfl

/-- A legal record reads back, with the checksum of its name (R228). -/
theorem decodeKeyInfo_encodeKeyInfo (k : KeyInfo) (rest : Bytes) (h : legalKeyInfo k = true) :
    decodeKeyInfo (encodeKeyInfo k ++ rest) = .ok ({ k with nameSum := sumU16 k.name }, rest) := by
  simp only [legalKeyInfo, Bool.and_eq_true] at h
  obtain ⟨⟨⟨h1, h2⟩, h3⟩, h4⟩ := h
  have h2' := (lpLegal_iff _).1 h2
  have h4' := (lpLegal_iff _).1 h4
  obtain ⟨c0, c1, hc⟩ : ∃ c0 c1, leU16 (sumU16 k.name) = [c0, c1] := ⟨_, _, rfl⟩
  have hc0 : BitVec.ofNat 8 (sumU16 k.name).toNat = c0 := by
    simp only [leU16, leBytes, List.cons.injEq] at hc
    exact hc.1
  have hsum : BitVec.ofNat 16 (leNat [c0, c1]) = sumU16 k.name := by rw [← hc]; simp
  simp only [encodeKeyInfo, nameField, hc, hc0, List.append_assoc, List.cons_append, List.nil_append, decodeKeyInfo,
    takeAddr_append, takeU16_append, takeU32_append, except_ok_bind, fwDec_pad _ _ _ _ h1, takeByte_cons]
  rw [takeField_append _ _ _ _ (by rw [cryptFresh_length, lenByte_toNat _ h2'])]
  simp only [except_ok_bind, fwDec_pad _ _ _ _ h3, takeByte_cons]
  rw [takeField_append _ _ _ _ (lenByte_toNat _ h4').symm]
  simp only [except_ok_bind, takeU16_append, takeU32_append, takeBool_cons, takeByte_cons, boolOf_byteOf,
    cryptFresh_cryptFresh, hsum]
  rfl

/-- The length of a legal record (R230). -/
theorem encodeKeyInfo_length (k : KeyInfo) (h : legalKeyInfo k = true) :
    (encodeKeyInfo k).length = 59 + k.name.length + k.bbsSig.length := by
  rw [legalKeyInfo_iff] at h
  have hp1 : (pad k.fileHash Config.hashW).length = 16 := pad_length _ _ h.1
  have hp3 : (pad k.sharingSig Config.kiSigW).length = 11 := pad_length _ _ h.2.2.2.1
  simp only [encodeKeyInfo, List.length_append, addrBytes, leU16_length, leU32_length, hp1, hp3, nameField,
    cryptFresh_length, List.length_cons, List.length_nil]
  omega

/-! ### Payloads -/

theorem flatMap_length_le {α : Type} (f : α → Bytes) (l : List α) (m : Nat) (h : ∀ x ∈ l, (f x).length ≤ m) :
    (l.flatMap f).length ≤ l.length * m := by
  induction l with
  | nil => simp
  | cons a l ih =>
    have h1 := h a (by simp)
    have h2 := ih fun x hx => h x (by simp [hx])
    simp only [List.flatMap_cons, List.length_append, List.length_cons, Nat.add_mul]
    omega

/-- Every legal payload fits a frame. -/
theorem encPlain_length_le (v : Command) (h : legalCommand v = true) : 1 + (encPlain v).length ≤ 4294967295 := by
  cases v <;>
    simp only [legalCommand, Bool.and_eq_true, lpLegal_iff, fwLegal_iff, decide_eq_true_eq] at h <;>
    (try simp only [Config.hashW, Config.fileDataMax, Config.cdrKeywordW, Config.cdrSignW, Config.querySignW] at h) <;>
    simp only [encPlain, List.length_append, leU32_length, List.length_cons, List.length_nil, addrBytes, pad,
      List.length_replicate, leBytes_length, Config.cdrKeywordW, Config.cdrSignW, Config.querySignW] <;>
    try omega
  case query via keys =>
    have hv := flatMap_length_le encodeViaNode via 6 fun x _ => by simp [encodeViaNode, addrBytes]
    have hk := flatMap_length_le encodeKeyInfo keys 569 fun x hx => by
      have hl := List.all_eq_true.1 h.2 x hx
      have := (legalKeyInfo_iff x).1 hl
      rw [encodeKeyInfo_length x hl]; omega
    omega

theorem frameBytes_ok (op : Byte) (p : Bytes) (h : 1 + p.length ≤ 4294967295) :
    frameBytes op p = .ok (frameOf op p) := by
  simp only [frameBytes, show ¬ 4294967295 < 1 + p.length by omega, if_false, frameOf, leU32, BitVec.toNat_ofNat]
  rw [Nat.mod_eq_of_lt (by omega)]

theorem checkLength_ok (v : Variant) (p : Bytes) (h : minPayload v ≤ p.length)
    (hv : v = .conditionalDiffusionRequest → p.length = 276) : checkLength v p = .ok () := by
  unfold checkLength
  rw [if_neg (by omega), if_neg fun hc => hc.2 (hv hc.1)]

theorem checkLength_bad (v : Variant) (p : Bytes)
    (h : p.length < minPayload v ∨ v = .conditionalDiffusionRequest ∧ p.length ≠ 276) :
    checkLength v p = .error .framingError := by
  unfold checkLength
  by_cases h1 : p.length < minPayload v
  · rw [if_pos h1]
  · rw [if_neg h1, if_pos (h.resolve_left h1)]

/-! ### A wire command from its payload's decode -/

/-- A receivable wire command whose payload decodes completes. -/
theorem receiveFrame_ok {s : State} {total : U32} (h : s.Receivable total) {v : Variant} {p : Bytes} {cmd : Command}
    {rx : Option CipherState} (hd : decodePayload v p s.ctxRx = .ok (cmd, rx)) :
    receiveFrame v total p s = .next { s.afterFrame total (opcodeOf v) (.command cmd) with ctxRx := rx } := by
  rw [receiveFrame_receivable h, acceptCommand_eq, hd]; rfl

/-- A receivable wire command whose payload does not decode raises its error. -/
theorem receiveFrame_error {s : State} {total : U32} (h : s.Receivable total) {v : Variant} {p : Bytes} {k : ErrKind}
    (hd : decodePayload v p s.ctxRx = .error k) : receiveFrame v total p s = .next (s.raise true k) := by
  rw [receiveFrame_receivable h, acceptCommand_eq, hd]; rfl

/-- The payload of a variant that is not enciphered. -/
theorem decodePayload_plain {v : Variant} {p : Bytes} (rx : Option CipherState) (hv : v ≠ .protocolHeader)
    (hc : checkLength v p = .ok ()) : decodePayload v p rx = (decPlain v p).map fun cmd => (cmd, rx) := by
  cases v <;> first
    | exact absurd rfl hv
    | (simp only [decodePayload, hc, except_ok_bind]; cases decPlain _ p <;> rfl)

/-! ### The kinds of error a decoder raises -/

/-- A value, or an error of a kind that satisfies `P`. -/
def Raises (P : ErrKind → Prop) {α : Type} (x : Except ErrKind α) : Prop := ∀ k, x = .error k → P k

variable {P : ErrKind → Prop}

theorem raises_ok {α : Type} (a : α) : Raises P (.ok a : Except ErrKind α) := fun _ h => nomatch h
theorem raises_pure {α : Type} (a : α) : Raises P (pure a : Except ErrKind α) := fun _ h => nomatch h

theorem raises_error {α : Type} {k : ErrKind} (h : P k) : Raises P (.error k : Except ErrKind α) :=
  fun _ hk => Except.error.inj hk ▸ h

theorem raises_bind {α β : Type} {x : Except ErrKind α} {f : α → Except ErrKind β} (hx : Raises P x)
    (hf : ∀ a, Raises P (f a)) : Raises P (x >>= f) := by
  cases x with
  | error k => exact raises_error (hx k rfl)
  | ok a => exact hf a

theorem raises_mono {α : Type} {Q : ErrKind → Prop} {x : Except ErrKind α} (h : Raises P x) (hpq : ∀ k, P k → Q k) :
    Raises Q x := fun k hk => hpq k (h k hk)

theorem raises_takeField {e : ErrKind} (he : P e) (n : Nat) (p : Bytes) : Raises P (takeField n e p) := by
  unfold takeField; split
  · exact raises_error he
  · exact raises_ok _

theorem raises_takeByte {e : ErrKind} (he : P e) (p : Bytes) : Raises P (takeByte e p) := by
  cases p
  · exact raises_error he
  · exact raises_ok _

theorem raises_takeBool {e : ErrKind} (he : P e) (p : Bytes) : Raises P (takeBool e p) :=
  raises_bind (raises_takeByte he p) fun _ => raises_pure _

theorem raises_takeU16 {e : ErrKind} (he : P e) (p : Bytes) : Raises P (takeU16 e p) :=
  raises_bind (raises_takeField he 2 p) fun _ => raises_pure _

theorem raises_takeU32 {e : ErrKind} (he : P e) (p : Bytes) : Raises P (takeU32 e p) :=
  raises_bind (raises_takeField he 4 p) fun _ => raises_pure _

theorem raises_takeAddr {e : ErrKind} (he : P e) (p : Bytes) : Raises P (takeAddr e p) :=
  raises_bind (raises_takeByte he p) fun _ => raises_bind (raises_takeByte he _) fun _ =>
    raises_bind (raises_takeByte he _) fun _ => raises_bind (raises_takeByte he _) fun _ => raises_pure _

theorem raises_fwDec {e : ErrKind} (he : P e) (w : Nat) (p : Bytes) : Raises P (fwDec w e p) :=
  raises_bind (raises_takeField he w p) fun _ => raises_pure _

theorem raises_takeMany {α : Type} {record : Bytes → Except ErrKind (α × Bytes)} (h : ∀ p, Raises P (record p))
    (n : Nat) : ∀ p, Raises P (takeMany record n p) := by
  induction n with
  | zero => exact fun p => raises_ok _
  | succ n ih => exact fun p => raises_bind (h p) fun _ => raises_bind (ih _) fun _ => raises_pure _

theorem raises_linkOf (b : Byte) : Raises (· = .fieldRangeError) (linkOf b) := by
  unfold linkOf; split <;> first | exact raises_ok _ | exact raises_error (by rfl)

theorem raises_decodeViaNode (p : Bytes) : Raises (· = .truncatedRecord) (decodeViaNode p) :=
  raises_bind (raises_takeAddr (by rfl) p) fun _ => raises_bind (raises_takeU16 (by rfl) _) fun _ => raises_pure _

theorem raises_decodeKeyInfo (p : Bytes) : Raises (· = .truncatedRecord) (decodeKeyInfo p) := by
  unfold decodeKeyInfo
  repeat' (first | apply raises_pure | (refine raises_bind ?_ fun _ => ?_))
  all_goals first
    | exact raises_takeAddr (by rfl) _ | exact raises_takeU16 (by rfl) _ | exact raises_takeU32 (by rfl) _
    | exact raises_takeByte (by rfl) _ | exact raises_takeBool (by rfl) _ | exact raises_fwDec (by rfl) _ _
    | exact raises_takeField (by rfl) _ _

/-- A variant's own decoder raises errors, never a refusal (R271, R288). -/
theorem raises_decPlain (v : Variant) (p : Bytes) : Raises (·.isRefusal = false) (decPlain v p) := by
  cases v <;> simp only [decPlain] <;> try exact raises_ok _
  all_goals first
    | unfold decProtocolHeader | unfold decSpeed | unfold decConnectionType | unfold decNodeDetails | unfold decAnotherNode
    | unfold decBbsPort | unfold decFileRequest | unfold decConditionalDiffusionRequest | unfold decQuery
    | unfold decFileResponse
  all_goals repeat' (first | apply raises_pure | (refine raises_bind ?_ fun _ => ?_))
  all_goals first
    | exact raises_takeAddr (by rfl) _ | exact raises_takeU16 (by rfl) _ | exact raises_takeU32 (by rfl) _
    | exact raises_takeByte (by rfl) _ | exact raises_takeBool (by rfl) _ | exact raises_fwDec (by rfl) _ _
    | exact raises_takeField (by rfl) _ _ | exact raises_mono (P := (· = .fieldRangeError)) (raises_linkOf _) (by rintro _ rfl; rfl)
    | exact raises_mono (P := (· = .truncatedRecord)) (raises_takeMany raises_decodeViaNode _ _) (by rintro _ rfl; rfl)
    | exact raises_mono (P := (· = .truncatedRecord)) (raises_takeMany raises_decodeKeyInfo _ _) (by rintro _ rfl; rfl)

/-- DecodePayload refuses only a ProtocolHeader while `CTX[RX]` is not keyed (R170). -/
theorem raises_decodePayload (v : Variant) (p : Bytes) (rx : Option CipherState)
    (h : v = .protocolHeader → rx.isSome = true) : Raises (·.isRefusal = false) (decodePayload v p rx) := by
  have hc : Raises (·.isRefusal = false) (checkLength v p) := by
    unfold checkLength; split
    · exact raises_error (by rfl)
    · split
      · exact raises_error (by rfl)
      · exact raises_ok _
  cases v <;> try exact raises_bind hc fun _ => raises_bind (raises_decPlain _ _) fun _ => raises_pure _
  cases rx with
  | none => exact absurd (h rfl) (by simp)
  | some c => exact raises_bind hc fun _ => raises_bind (raises_decPlain _ _) fun _ => raises_pure _

end Sys2Proof.Machine
end

