-- ==== Sys2Proof/Laws/PerInstr.lean ====
section
/-! SUPPORT. A statement about every instruction as syntax, one lemma per constructor: the bits of its encoding that
spec/opcode_table.json matches on hold the row's value. -/

namespace Sys2Proof.Laws.EncodedOpcode

/-- The value each row of spec/opcode_table.json matches on: the opcode of R78, or the `OPSEL` of R90. -/
def rowValue : Instr → Byte
  | .protocolHeader _ _ => 0
  | .speed _ _ => 1
  | .connectionType _ _ => 2
  | .nodeDetails _ _ => 3
  | .anotherNode _ _ => 4
  | .bbsPort _ _ => 5
  | .diffusionRequest _ _ => 10
  | .fileRequest _ _ => 11
  | .conditionalDiffusionRequest _ _ => 12
  | .query _ _ => 13
  | .fileResponse _ _ => 21
  | .close _ _ => 31
  | .connectedLimitation _ _ => 32
  | .wrongListeningPort _ _ => 33
  | .reject _ _ => 34
  | .slow _ _ => 35
  | .liar _ _ => 36
  | .lowVersion _ _ => 97
  | .hexEnc _ => 1
  | .hexDec _ => 2
  | .truncNul _ => 3
  | .u32Le _ => 4
  | .leUint _ => 5
  | .addr2b _ => 6
  | .b2addr _ => 7
  | .sum8 _ => 16
  | .sum16 _ => 17
  | .sum32 _ => 18
  | .cNew _ _ => 32
  | .cNewPh _ => 33
  | .cCrypt _ _ => 34
  | .rxLoad _ => 48
  | .hdrPeek => 49
  | .frmDecode => 50
  | .cmdDecode => 51
  | .frmEncode _ _ => 56
  | .cmdEncode _ => 57
  | .kiDecode _ => 60
  | .kiEncode _ => 61
  | .cacheBlock _ => 62
  | .tokPack _ => 64
  | .tokUnpack _ => 65

/-- An instruction's encoding carries its row's value where the row matches. -/
def Statement (i : Instr) : Prop := (selector (encode i)).2 = some (rowValue i)

theorem protocolHeader : ∀ x y, Statement (.protocolHeader x y) := fun _ _ => rfl
theorem speed : ∀ x y, Statement (.speed x y) := fun _ _ => rfl
theorem connectionType : ∀ x y, Statement (.connectionType x y) := fun _ _ => rfl
theorem nodeDetails : ∀ x y, Statement (.nodeDetails x y) := fun _ _ => rfl
theorem anotherNode : ∀ x y, Statement (.anotherNode x y) := fun _ _ => rfl
theorem bbsPort : ∀ x y, Statement (.bbsPort x y) := fun _ _ => rfl
theorem diffusionRequest : ∀ x y, Statement (.diffusionRequest x y) := fun _ _ => rfl
theorem fileRequest : ∀ x y, Statement (.fileRequest x y) := fun _ _ => rfl
theorem conditionalDiffusionRequest : ∀ x y, Statement (.conditionalDiffusionRequest x y) := fun _ _ => rfl
theorem query : ∀ x y, Statement (.query x y) := fun _ _ => rfl
theorem fileResponse : ∀ x y, Statement (.fileResponse x y) := fun _ _ => rfl
theorem close : ∀ x y, Statement (.close x y) := fun _ _ => rfl
theorem connectedLimitation : ∀ x y, Statement (.connectedLimitation x y) := fun _ _ => rfl
theorem wrongListeningPort : ∀ x y, Statement (.wrongListeningPort x y) := fun _ _ => rfl
theorem reject : ∀ x y, Statement (.reject x y) := fun _ _ => rfl
theorem slow : ∀ x y, Statement (.slow x y) := fun _ _ => rfl
theorem liar : ∀ x y, Statement (.liar x y) := fun _ _ => rfl
theorem lowVersion : ∀ x y, Statement (.lowVersion x y) := fun _ _ => rfl
theorem hexEnc : ∀ x, Statement (.hexEnc x) := fun _ => rfl
theorem hexDec : ∀ x, Statement (.hexDec x) := fun _ => rfl
theorem truncNul : ∀ x, Statement (.truncNul x) := fun _ => rfl
theorem u32Le : ∀ x, Statement (.u32Le x) := fun _ => rfl
theorem leUint : ∀ x, Statement (.leUint x) := fun _ => rfl
theorem addr2b : ∀ x, Statement (.addr2b x) := fun _ => rfl
theorem b2addr : ∀ x, Statement (.b2addr x) := fun _ => rfl
theorem sum8 : ∀ x, Statement (.sum8 x) := fun _ => rfl
theorem sum16 : ∀ x, Statement (.sum16 x) := fun _ => rfl
theorem sum32 : ∀ x, Statement (.sum32 x) := fun _ => rfl
theorem cNew : ∀ x y, Statement (.cNew x y) := fun _ _ => rfl
theorem cNewPh : ∀ x, Statement (.cNewPh x) := fun _ => rfl
theorem cCrypt : ∀ x y, Statement (.cCrypt x y) := fun _ _ => rfl
theorem rxLoad : ∀ x, Statement (.rxLoad x) := fun _ => rfl
theorem hdrPeek : Statement .hdrPeek := rfl
theorem frmDecode : Statement .frmDecode := rfl
theorem cmdDecode : Statement .cmdDecode := rfl
theorem frmEncode : ∀ x y, Statement (.frmEncode x y) := fun _ _ => rfl
theorem cmdEncode : ∀ x, Statement (.cmdEncode x) := fun _ => rfl
theorem kiDecode : ∀ x, Statement (.kiDecode x) := fun _ => rfl
theorem kiEncode : ∀ x, Statement (.kiEncode x) := fun _ => rfl
theorem cacheBlock : ∀ x, Statement (.cacheBlock x) := fun _ => rfl
theorem tokPack : ∀ x, Statement (.tokPack x) := fun _ => rfl
theorem tokUnpack : ∀ x, Statement (.tokUnpack x) := fun _ => rfl

end Sys2Proof.Laws.EncodedOpcode
end

