-- ==== Sys2Proof/Laws/Records.lean ====
section
/-! SUPPORT. Reading records at an offset: what each take gives and when it fails, what a KeyInfo or ViaNode decode says of
the bytes it read (R222, R225), and a list of records one after another (R221). -/

namespace Sys2Proof.Machine

/-! ### Takes at an offset: from offset `n` to offset `n'` -/

variable (e : ErrKind) {p : Bytes} {n n' : Nat}

theorem takeField_drop {m : Nat} (hn : n + m = n') (h : n' ≤ p.length) :
    takeField m e (p.drop n) = .ok ((p.drop n).take m, p.drop n') := by
  unfold takeField
  rw [if_neg (by rw [List.length_drop]; omega), List.drop_drop, hn]

theorem takeByte_drop {b : Byte} (hn : n + 1 = n') (h : p[n]? = some b) :
    takeByte e (p.drop n) = .ok (b, p.drop n') := by
  obtain ⟨hl, hb⟩ := List.getElem?_eq_some_iff.1 h
  rw [List.drop_eq_getElem_cons hl, hb, hn]; rfl

theorem takeBool_drop {b : Byte} (hn : n + 1 = n') (h : p[n]? = some b) :
    takeBool e (p.drop n) = .ok (decide (b ≠ 0), p.drop n') := by
  unfold takeBool
  rw [takeByte_drop e hn h, ← boolOf_eq]; rfl

theorem takeU16_drop (hn : n + 2 = n') (h : n' ≤ p.length) :
    ∃ v : U16, takeU16 e (p.drop n) = .ok (v, p.drop n') ∧ leU16 v = (p.drop n).take 2 := by
  refine ⟨BitVec.ofNat 16 (leNat ((p.drop n).take 2)), ?_, ?_⟩
  · unfold takeU16; rw [takeField_drop e hn h]; rfl
  · exact leU16_ofNat_leNat _ (by rw [List.length_take, List.length_drop]; omega)

theorem takeU32_drop (hn : n + 4 = n') (h : n' ≤ p.length) :
    ∃ v : U32, takeU32 e (p.drop n) = .ok (v, p.drop n') ∧ leU32 v = (p.drop n).take 4 := by
  refine ⟨BitVec.ofNat 32 (leNat ((p.drop n).take 4)), ?_, ?_⟩
  · unfold takeU32; rw [takeField_drop e hn h]; rfl
  · exact leU32_ofNat_leNat _ (by rw [List.length_take, List.length_drop]; omega)

theorem getElem?_of_lt (h : n < p.length) : ∃ b, p[n]? = some b := ⟨p[n], List.getElem?_eq_getElem h⟩

theorem take_one_drop {b : Byte} (h : p[n]? = some b) : (p.drop n).take 1 = [b] := by
  obtain ⟨hl, rfl⟩ := List.getElem?_eq_some_iff.1 h
  rw [List.drop_eq_getElem_cons hl]; rfl

theorem take_succ_drop (m : Nat) {b : Byte} (h : p[n]? = some b) :
    (p.drop n).take (m + 1) = b :: (p.drop (n + 1)).take m := by
  obtain ⟨hl, rfl⟩ := List.getElem?_eq_some_iff.1 h
  rw [List.drop_eq_getElem_cons hl]; rfl

theorem take_add_drop (i j : Nat) : (p.drop n).take (i + j) = (p.drop n).take i ++ (p.drop (n + i)).take j := by
  rw [List.take_add, List.drop_drop]

theorem takeAddr_drop (hn : n + 4 = n') (h : n' ≤ p.length) :
    ∃ o : Addr, takeAddr e (p.drop n) = .ok (o, p.drop n') ∧ [o.a, o.b, o.c, o.d] = (p.drop n).take 4 := by
  obtain ⟨a, ha⟩ := getElem?_of_lt (show n < p.length by omega)
  obtain ⟨b, hb⟩ := getElem?_of_lt (show n + 1 < p.length by omega)
  obtain ⟨c, hc⟩ := getElem?_of_lt (show n + 2 < p.length by omega)
  obtain ⟨d, hd⟩ := getElem?_of_lt (show n + 3 < p.length by omega)
  refine ⟨⟨a, b, c, d⟩, ?_, ?_⟩
  · simp only [takeAddr, takeByte_drop e rfl ha, takeByte_drop e rfl hb, takeByte_drop e rfl hc, takeByte_drop e hn hd,
      except_ok_bind]
    rfl
  · rw [take_succ_drop 3 ha, take_succ_drop 2 hb, take_succ_drop 1 hc, take_one_drop hd]

theorem truncNul_isCutAtZero (f : Bytes) : IsCutAtZero (truncNul f) f := by
  induction f with
  | nil => exact ⟨List.prefix_refl _, by simp [truncNul], .inl rfl⟩
  | cons b r ih =>
    unfold truncNul
    by_cases hb : b = 0
    · rw [if_pos hb]
      exact ⟨List.nil_prefix, by simp, .inr (by simp [hb])⟩
    · rw [if_neg hb]
      obtain ⟨h1, h2, h3⟩ := ih
      refine ⟨List.cons_prefix_cons.2 ⟨rfl, h1⟩, fun h => (List.mem_cons.1 h).elim (fun h => hb h.symm) h2, ?_⟩
      rcases h3 with h3 | h3
      · exact .inl (by rw [h3])
      · exact .inr (by simpa using h3)

theorem fwDec_drop {w : Nat} (hn : n + w = n') (h : n' ≤ p.length) :
    ∃ b : Bytes, fwDec w e (p.drop n) = .ok (b, p.drop n') ∧ IsCutAtZero b ((p.drop n).take w) := by
  refine ⟨truncNul ((p.drop n).take w), ?_, truncNul_isCutAtZero _⟩
  unfold fwDec; rw [takeField_drop e hn h]; rfl

/-! ### What a successful take at an offset says -/

variable {e} {rest : Bytes}

theorem takeField_drop_ok {m : Nat} {a : Bytes} (h : takeField m e (p.drop n) = .ok (a, rest)) :
    n + m ≤ p.length ∨ m = 0 := by
  have h' := (takeField_ok h).1
  have hl := congrArg List.length h'
  rw [List.length_drop, List.length_append, (takeField_ok h).2] at hl
  omega

theorem takeField_drop_rest {m : Nat} {a : Bytes} (h : takeField m e (p.drop n) = .ok (a, rest)) :
    rest = p.drop (n + m) := by
  have h' := (takeField_ok h).1
  have ha := (takeField_ok h).2
  rw [← List.drop_drop, h', ← ha, List.drop_left]

theorem takeByte_drop_ok {b : Byte} (h : takeByte e (p.drop n) = .ok (b, rest)) :
    p[n]? = some b ∧ rest = p.drop (n + 1) := by
  have h' := takeByte_ok h
  have h0 : (p.drop n)[0]? = some b := by rw [h']; rfl
  refine ⟨by simpa using h0, ?_⟩
  rw [← List.drop_drop, h']; rfl

theorem takeBool_drop_ok {b : Bool} (h : takeBool e (p.drop n) = .ok (b, rest)) :
    n < p.length ∧ rest = p.drop (n + 1) := by
  obtain ⟨⟨a, r⟩, h1, h2⟩ := except_bind_ok h
  cases h2
  exact ⟨(List.getElem?_eq_some_iff.1 (takeByte_drop_ok h1).1).1, (takeByte_drop_ok h1).2⟩

theorem takeU16_drop_rest {v : U16} (h : takeU16 e (p.drop n) = .ok (v, rest)) :
    n + 2 ≤ p.length ∧ rest = p.drop (n + 2) := by
  obtain ⟨⟨a, r⟩, h1, h2⟩ := except_bind_ok h
  cases h2
  exact ⟨(takeField_drop_ok h1).resolve_right (by decide), takeField_drop_rest h1⟩

theorem takeU32_drop_rest {v : U32} (h : takeU32 e (p.drop n) = .ok (v, rest)) :
    n + 4 ≤ p.length ∧ rest = p.drop (n + 4) := by
  obtain ⟨⟨a, r⟩, h1, h2⟩ := except_bind_ok h
  cases h2
  exact ⟨(takeField_drop_ok h1).resolve_right (by decide), takeField_drop_rest h1⟩

theorem fwDec_drop_rest {w : Nat} {v : Bytes} (h : fwDec w e (p.drop n) = .ok (v, rest)) :
    rest = p.drop (n + w) := by
  obtain ⟨⟨a, r⟩, h1, h2⟩ := except_bind_ok h
  cases h2
  exact takeField_drop_rest h1

theorem takeAddr_drop_rest {o : Addr} (h : takeAddr e (p.drop n) = .ok (o, rest)) :
    n + 4 ≤ p.length ∧ rest = p.drop (n + 4) := by
  obtain ⟨⟨a, r1⟩, h1, h⟩ := except_bind_ok h
  obtain ⟨⟨b, r2⟩, h2, h⟩ := except_bind_ok h
  obtain ⟨⟨c, r3⟩, h3, h⟩ := except_bind_ok h
  obtain ⟨⟨d, r4⟩, h4, h⟩ := except_bind_ok h
  cases h
  obtain ⟨-, rfl⟩ := takeByte_drop_ok h1
  obtain ⟨-, rfl⟩ := takeByte_drop_ok h2
  obtain ⟨-, rfl⟩ := takeByte_drop_ok h3
  obtain ⟨hd, rfl⟩ := takeByte_drop_ok h4
  exact ⟨(List.getElem?_eq_some_iff.1 hd).1, rfl⟩

/-! ### KeyInfo records -/

theorem recordSize_eq_some {r : Bytes} {m : Nat} : recordSize r = some m ↔
    ∃ nl bl : Byte, r[32]? = some nl ∧ r[46 + nl.toNat]? = some bl ∧ m = 59 + nl.toNat + bl.toNat ∧ m ≤ r.length := by
  constructor
  · intro h
    unfold recordSize at h
    split at h
    · cases h
    · split at h
      · cases h
      · split at h
        · cases h; exact ⟨_, _, ‹_›, ‹_›, rfl, ‹_›⟩
        · cases h
  · rintro ⟨nl, bl, h1, h2, rfl, h3⟩
    simp only [recordSize, h1, h2, h3, if_true]

/-- A record that its bytes hold whole is decoded, field by field, and exactly its bytes are consumed (R225). -/
theorem decodeKeyInfo_of_fits {r : Bytes} {nl bl : Byte} (h1 : r[32]? = some nl) (h2 : r[46 + nl.toNat]? = some bl)
    (h3 : 59 + nl.toNat + bl.toNat ≤ r.length) :
    ∃ k : KeyInfo, decodeKeyInfo r = .ok (k, r.drop (59 + nl.toNat + bl.toNat)) ∧ KeyInfoAt r k := by
  obtain ⟨sa, t1, b1⟩ := takeAddr_drop .truncatedRecord (p := r) (n := 0) rfl (by omega)
  obtain ⟨sp, t2, b2⟩ := takeU16_drop .truncatedRecord (p := r) (n := 4) rfl (by omega)
  obtain ⟨ba, t3, b3⟩ := takeAddr_drop .truncatedRecord (p := r) (n := 6) rfl (by omega)
  obtain ⟨bp, t4, b4⟩ := takeU16_drop .truncatedRecord (p := r) (n := 10) rfl (by omega)
  obtain ⟨fs, t5, b5⟩ := takeU32_drop .truncatedRecord (p := r) (n := 12) rfl (by omega)
  obtain ⟨fh, t6, b6⟩ :=
    fwDec_drop .truncatedRecord (p := r) (n := 16) (n' := 32) (w := Config.hashW) rfl (by omega)
  have t7 := takeByte_drop .truncatedRecord rfl h1
  obtain ⟨c0, hc0⟩ := getElem?_of_lt (p := r) (n := 33) (by omega)
  obtain ⟨c1, hc1⟩ := getElem?_of_lt (p := r) (n := 34) (by omega)
  have t8 := takeByte_drop .truncatedRecord rfl hc0
  have t9 := takeByte_drop .truncatedRecord rfl hc1
  have t10 := takeField_drop .truncatedRecord (p := r) (n := 35) (m := nl.toNat) rfl (by omega)
  obtain ⟨sg, t11, b11⟩ := fwDec_drop .truncatedRecord (p := r) (n := 35 + nl.toNat) (n' := 46 + nl.toNat)
    (w := Config.kiSigW) (by simp only [Config.kiSigW]; omega) (by omega)
  have t12 := takeByte_drop .truncatedRecord (n' := 47 + nl.toNat) (by omega) h2
  have t13 := takeField_drop .truncatedRecord (p := r) (n := 47 + nl.toNat) (m := bl.toNat) rfl (by omega)
  obtain ⟨tt, t14, b14⟩ := takeU16_drop .truncatedRecord (p := r) (n := 47 + nl.toNat + bl.toNat)
    (n' := 49 + nl.toNat + bl.toNat) (by omega) (by omega)
  obtain ⟨bs, t15, b15⟩ := takeU32_drop .truncatedRecord (p := r) (n := 49 + nl.toNat + bl.toNat)
    (n' := 53 + nl.toNat + bl.toNat) (by omega) (by omega)
  obtain ⟨mt, t16, b16⟩ := takeU32_drop .truncatedRecord (p := r) (n := 53 + nl.toNat + bl.toNat)
    (n' := 57 + nl.toNat + bl.toNat) (by omega) (by omega)
  obtain ⟨ig, hig⟩ := getElem?_of_lt (p := r) (n := 57 + nl.toNat + bl.toNat) (by omega)
  obtain ⟨ver, hver⟩ := getElem?_of_lt (p := r) (n := 58 + nl.toNat + bl.toNat) (by omega)
  have t17 := takeBool_drop .truncatedRecord (n' := 58 + nl.toNat + bl.toNat) (by omega) hig
  have t18 := takeByte_drop .truncatedRecord (n' := 59 + nl.toNat + bl.toNat) (by omega) hver
  have hn : (cryptFresh [c0] ((r.drop 35).take nl.toNat)).length = nl.toNat := by
    rw [cryptFresh_length, List.length_take, List.length_drop]; omega
  have hb : ((r.drop (47 + nl.toNat)).take bl.toNat).length = bl.toNat := by
    rw [List.length_take, List.length_drop]; omega
  have hcs : (r.drop 33).take 2 = [c0, c1] := by rw [take_succ_drop 1 hc0, take_one_drop hc1]
  refine ⟨⟨sa, sp, ba, bp, fs, fh, cryptFresh [c0] ((r.drop 35).take nl.toNat), BitVec.ofNat 16 (leNat [c0, c1]), sg,
    (r.drop (47 + nl.toNat)).take bl.toNat, tt, bs, mt, decide (ig ≠ 0), ver⟩, ?_, ?_⟩
  · change decodeKeyInfo (r.drop 0) = _
    simp only [decodeKeyInfo, t1, t2, t3, t4, t5, t6, t7, t8, t9, t10, t11, t12, t13, t14, t15, t16, t17, t18,
      except_ok_bind]
    rfl
  · refine ⟨?_, b6, ?_, ?_, ?_, ?_, ?_, ?_, ?_, ?_, ?_⟩ <;> dsimp only
    · change _ = (r.drop 0).take (4 + 2 + 4 + 2 + 4)
      rw [take_add_drop (4 + 2 + 4 + 2), take_add_drop (4 + 2 + 4), take_add_drop (4 + 2), take_add_drop 4, b1, b2, b3, b4,
        b5]
    · rw [hn, h1]; rfl
    · rw [hcs]; exact leU16_ofNat_leNat _ rfl
    · rw [take_one_drop hc0, hn]
    · rw [hn]; exact b11
    · rw [hn, hb, h2]; rfl
    · rw [hn, hb]
    · change _ = (r.drop _).take (2 + 4 + 4)
      rw [hn, hb, take_add_drop (2 + 4), take_add_drop 2, b14, b15, b16,
        show 47 + nl.toNat + bl.toNat + 2 = 49 + nl.toNat + bl.toNat by omega,
        show 47 + nl.toNat + bl.toNat + (2 + 4) = 53 + nl.toNat + bl.toNat by omega]
    · rw [hn, hb, hig]; rfl
    · rw [hn, hb, hver]

/-- A record that is decoded lies whole in its bytes. -/
theorem decodeKeyInfo_fits {r rest : Bytes} {k : KeyInfo} (h : decodeKeyInfo r = .ok (k, rest)) :
    ∃ m, recordSize r = some m := by
  change decodeKeyInfo (r.drop 0) = _ at h
  obtain ⟨⟨v1, p1⟩, q, h⟩ := except_bind_ok h
  obtain ⟨-, rfl⟩ := takeAddr_drop_rest q
  obtain ⟨⟨v2, p2⟩, q, h⟩ := except_bind_ok h
  obtain ⟨-, rfl⟩ := takeU16_drop_rest q
  obtain ⟨⟨v3, p3⟩, q, h⟩ := except_bind_ok h
  obtain ⟨-, rfl⟩ := takeAddr_drop_rest q
  obtain ⟨⟨v4, p4⟩, q, h⟩ := except_bind_ok h
  obtain ⟨-, rfl⟩ := takeU16_drop_rest q
  obtain ⟨⟨v5, p5⟩, q, h⟩ := except_bind_ok h
  obtain ⟨-, rfl⟩ := takeU32_drop_rest q
  obtain ⟨⟨v6, p6⟩, q, h⟩ := except_bind_ok h
  obtain rfl := fwDec_drop_rest q
  obtain ⟨⟨nl, p7⟩, q, h⟩ := except_bind_ok h
  obtain ⟨hnl, rfl⟩ := takeByte_drop_ok q
  obtain ⟨⟨v8, p8⟩, q, h⟩ := except_bind_ok h
  obtain ⟨-, rfl⟩ := takeByte_drop_ok q
  obtain ⟨⟨v9, p9⟩, q, h⟩ := except_bind_ok h
  obtain ⟨-, rfl⟩ := takeByte_drop_ok q
  obtain ⟨⟨v10, p10⟩, q, h⟩ := except_bind_ok h
  obtain rfl := takeField_drop_rest q
  obtain ⟨⟨v11, p11⟩, q, h⟩ := except_bind_ok h
  obtain rfl := fwDec_drop_rest q
  obtain ⟨⟨bl, p12⟩, q, h⟩ := except_bind_ok h
  obtain ⟨hbl, rfl⟩ := takeByte_drop_ok q
  obtain ⟨⟨v13, p13⟩, q, h⟩ := except_bind_ok h
  obtain rfl := takeField_drop_rest q
  obtain ⟨⟨v14, p14⟩, q, h⟩ := except_bind_ok h
  obtain ⟨-, rfl⟩ := takeU16_drop_rest q
  obtain ⟨⟨v15, p15⟩, q, h⟩ := except_bind_ok h
  obtain ⟨-, rfl⟩ := takeU32_drop_rest q
  obtain ⟨⟨v16, p16⟩, q, h⟩ := except_bind_ok h
  obtain ⟨-, rfl⟩ := takeU32_drop_rest q
  obtain ⟨⟨v17, p17⟩, q, h⟩ := except_bind_ok h
  obtain ⟨-, rfl⟩ := takeBool_drop_ok q
  obtain ⟨⟨v18, p18⟩, q, h⟩ := except_bind_ok h
  obtain ⟨hv, -⟩ := takeByte_drop_ok q
  have hlen := (List.getElem?_eq_some_iff.1 hv).1
  simp only [Config.hashW, Config.kiSigW] at hlen hnl hbl
  exact ⟨_, recordSize_eq_some.2 ⟨nl, bl, hnl, by rw [← hbl]; congr 1; omega, rfl, by omega⟩⟩

/-- What a KeyInfo decode does on any bytes (R225, R229): the record, where the bytes hold all of it, else TruncatedRecord. -/
theorem decodeKeyInfo_some {r : Bytes} {m : Nat} (h : recordSize r = some m) :
    ∃ k : KeyInfo, decodeKeyInfo r = .ok (k, r.drop m) ∧ KeyInfoAt r k := by
  obtain ⟨nl, bl, h1, h2, rfl, h3⟩ := recordSize_eq_some.1 h
  exact decodeKeyInfo_of_fits h1 h2 h3

theorem decodeKeyInfo_none {r : Bytes} (h : recordSize r = none) : decodeKeyInfo r = .error .truncatedRecord := by
  cases hd : decodeKeyInfo r with
  | error k => rw [raises_decodeKeyInfo r k hd]
  | ok a =>
    obtain ⟨m, hm⟩ := decodeKeyInfo_fits hd
    rw [hm] at h; cases h

/-! ### Lists of records (R221) -/

/-- The KeyInfo records from offset `o` on: all of them, each where its predecessors end, or TruncatedRecord. -/
theorem takeKeyInfos (p : Bytes) (n o : Nat) :
    (∀ e, recordsEnd p n o = some e → ∃ keys : List KeyInfo, takeMany decodeKeyInfo n (p.drop o) = .ok (keys, p.drop e) ∧
      keys.length = n ∧ (o ≤ p.length → e ≤ p.length) ∧
      ∀ (i : Nat) (k : KeyInfo), keys[i]? = some k → ∃ q, recordsEnd p i o = some q ∧ KeyInfoAt (p.drop q) k) ∧
    (recordsEnd p n o = none → takeMany decodeKeyInfo n (p.drop o) = .error .truncatedRecord) := by
  induction n generalizing o with
  | zero =>
    refine ⟨fun e h => ?_, fun h => nomatch h⟩
    cases h
    exact ⟨[], rfl, rfl, id, fun i k h => by simp at h⟩
  | succ n ih =>
    cases hm : recordSize (p.drop o) with
    | none =>
      refine ⟨fun e h => ?_, fun _ => ?_⟩
      · simp only [recordsEnd, hm] at h; cases h
      · simp only [takeMany, decodeKeyInfo_none hm, except_error_bind]
    | some m =>
      obtain ⟨k, hk, hat⟩ := decodeKeyInfo_some hm
      rw [List.drop_drop] at hk
      simp only [recordsEnd, hm, takeMany, hk, except_ok_bind]
      refine ⟨fun e h => ?_, fun h => ?_⟩
      · obtain ⟨keys, h1, h2, h3, h4⟩ := (ih (o + m)).1 e h
        refine ⟨k :: keys, by rw [h1]; rfl, by rw [List.length_cons, h2], fun ho => h3 ?_, fun i k' hi => ?_⟩
        · obtain ⟨_, _, -, -, -, hl⟩ := recordSize_eq_some.1 hm
          rw [List.length_drop] at hl; omega
        · cases i with
          | zero => cases hi; exact ⟨o, rfl, hat⟩
          | succ i =>
            obtain ⟨q, hq, hqa⟩ := h4 i k' hi
            exact ⟨q, by simp only [recordsEnd, hm]; exact hq, hqa⟩
      · rw [(ih (o + m)).2 h]; rfl

theorem decodeViaNode_drop {p : Bytes} {o : Nat} (h : o + 6 ≤ p.length) :
    ∃ v : ViaNode, decodeViaNode (p.drop o) = .ok (v, p.drop (o + 6)) ∧
      [v.addr.a, v.addr.b, v.addr.c, v.addr.d] ++ leU16 v.port = (p.drop o).take 6 := by
  obtain ⟨a, t1, b1⟩ := takeAddr_drop .truncatedRecord (p := p) (n := o) rfl (by omega)
  obtain ⟨w, t2, b2⟩ := takeU16_drop .truncatedRecord (p := p) (n := o + 4) (n' := o + 6) rfl h
  refine ⟨⟨a, w⟩, by simp only [decodeViaNode, t1, t2, except_ok_bind]; rfl, ?_⟩
  rw [take_add_drop 4 2, b1, b2]

theorem decodeViaNode_short {p : Bytes} {o : Nat} (h : p.length < o + 6) :
    decodeViaNode (p.drop o) = .error .truncatedRecord := by
  cases hd : decodeViaNode (p.drop o) with
  | error k => rw [raises_decodeViaNode _ k hd]
  | ok a =>
    obtain ⟨⟨v1, p1⟩, q, hd⟩ := except_bind_ok hd
    obtain ⟨-, rfl⟩ := takeAddr_drop_rest q
    obtain ⟨⟨v2, p2⟩, q, hd⟩ := except_bind_ok hd
    have := (takeU16_drop_rest q).1
    omega

/-- The ViaNodes from offset `o` on, six bytes each: all of them, or TruncatedRecord. -/
theorem takeViaNodes (p : Bytes) (n o : Nat) (ho : o ≤ p.length) :
    (o + 6 * n ≤ p.length → ∃ via : List ViaNode, takeMany decodeViaNode n (p.drop o) = .ok (via, p.drop (o + 6 * n)) ∧
      via.length = n ∧ ∀ (i : Nat) (v : ViaNode), via[i]? = some v →
        [v.addr.a, v.addr.b, v.addr.c, v.addr.d] ++ leU16 v.port = (p.drop (o + 6 * i)).take 6) ∧
    (p.length < o + 6 * n → takeMany decodeViaNode n (p.drop o) = .error .truncatedRecord) := by
  induction n generalizing o with
  | zero => exact ⟨fun _ => ⟨[], rfl, rfl, fun i v h => by simp at h⟩, fun h => by omega⟩
  | succ n ih =>
    by_cases h6 : o + 6 ≤ p.length
    · obtain ⟨v, hv, hb⟩ := decodeViaNode_drop h6
      simp only [takeMany, hv, except_ok_bind]
      refine ⟨fun h => ?_, fun h => ?_⟩
      · obtain ⟨via, h1, h2, h3⟩ := (ih (o + 6) h6).1 (by omega)
        refine ⟨v :: via, by rw [h1, show o + 6 + 6 * n = o + 6 * (n + 1) by omega]; rfl,
          by rw [List.length_cons, h2], fun i w hi => ?_⟩
        cases i with
        | zero => cases hi; exact hb
        | succ i => rw [show o + 6 * (i + 1) = o + 6 + 6 * i by omega]; exact h3 i w hi
      · rw [(ih (o + 6) h6).2 (by omega)]; rfl
    · refine ⟨fun h => by omega, fun _ => ?_⟩
      simp only [takeMany, decodeViaNode_short (by omega : p.length < o + 6), except_error_bind]

end Sys2Proof.Machine
end

