-- ==== Sys2Proof/Tests/Slice0.lean ====
section
/-! SUPPORT. Small tests: the WellFormed smoke, every constructor's decoding from bytes written out from the spec's
encoding tables, at most two tests per instruction with the values of spec/95_test_vectors.md (named in each comment), and
a witness for the hypotheses of every statement that has some. -/

namespace Sys2Proof.Tests

open Sys2Proof.Machine

/-! ### Helpers -/

/-- The next state, if there is one. -/
def after (i : Instr) (s : State) : Option State :=
  match exec i s with
  | .next t => some t
  | .fault _ => none
  | .refused _ => none

/-- The next state of a step, if there is one. -/
def stepped (s : State) : Option State :=
  match step s with
  | .next t => some t
  | .fault _ => none
  | .refused _ => none

/-- What an instruction delivers, with ERR. -/
def gives (i : Instr) (s : State) : Option (Result × Byte) := (after i s).map fun t => (t.result, t.err)

/-- The reset state with these bytes loaded. -/
def holding (b : Bytes) : State := { State.reset with ibuf := Memory.load b, ilen := b.length }

/-- The reset state with a request pending. -/
def asked (r : Request) : State := { State.reset with host := [.op r] }

/-- A keyed context: the one an empty key gives (R133). -/
def plainCtx : CipherState := ⟨identityTable, 0, 0⟩

/-- A state with the receive path dead. -/
def dead : State := { State.reset with status := 1, err := 1 }

/-- A KeyInfo whose name has checksum 0x0200, so that its key is the zero byte (V73). -/
def sampleKey : KeyInfo :=
  { sharingAddr := ⟨1, 2, 3, 4⟩, sharingPort := 1, bbsAddr := ⟨5, 6, 7, 8⟩, bbsPort := 2, fileSize := 0, fileHash := [],
    name := [0x72, 0x2e, 0x74, 0x78, 0x74], nameSum := 0, sharingSig := [], bbsSig := [], ttl := 0, blockSize := 0,
    mtime := 0, ignore := true, version := 9 }

/-- The 64 bytes of that record (V73). -/
def sampleKeyBytes : Bytes :=
  [1, 2, 3, 4, 1, 0, 5, 6, 7, 8, 2, 0, 0, 0, 0, 0] ++ List.replicate 16 0
    ++ [0x05, 0x00, 0x02, 0x70, 0x2b, 0x73, 0x75, 0x79] ++ List.replicate 11 0 ++ [0]
    ++ [0, 0, 0, 0, 0, 0, 0, 0, 0, 0] ++ [0x01, 0x09]

/-! ### WellFormed: an ill-formed term for each check -/

/-- A frame whose length field does not count the opcode byte and the payload is ill-formed, for every variant (R60). -/
theorem test_wellFormed_refuses_lengths :
    ([.protocolHeader 0 [], .speed 2 [], .connectionType 0 [], .nodeDetails 2 [],
      .anotherNode 0 [], .bbsPort 2 [], .diffusionRequest 0 [], .fileRequest 2 [],
      .conditionalDiffusionRequest 0 [], .query 2 [], .fileResponse 0 [], .close 2 [],
      .connectedLimitation 0 [], .wrongListeningPort 2 [], .reject 0 [], .slow 2 [],
      .liar 0 [], .lowVersion 2 []]
        : List Instr).all (fun i => !i.wellFormed) = true := by decide

/-- A key over KEY_MAX is ill-formed (R131): 14 bytes where KEY_MAX is 13; 13 bytes always fit. -/
theorem test_wellFormed_refuses_keys :
    Config.withinCapacity 13 (some 0) 14 = false ∧ (Instr.cNew .rx (List.replicate 13 1)).wellFormed = true := by decide

/-! ### Decoding: each word written out from R72, R78 and R90 -/

theorem test_decode_protocolHeader :
    decodeFrame [0x02, 0, 0, 0, 0, 0xa0] = .ok (.protocolHeader 2 [0xa0]) := by decide
theorem test_decode_speed :
    decodeFrame [0x03, 0, 0, 0, 0x01, 0xa1, 0x01, 0xee] = .ok (.speed 3 [0xa1, 0x01]) := by decide
theorem test_decode_connectionType :
    decodeFrame [0x03, 0, 0, 0, 0x02, 0xa2, 0x01] = .ok (.connectionType 3 [0xa2, 0x01]) := by decide
theorem test_decode_nodeDetails :
    decodeFrame [0x02, 0, 0, 0, 0x03, 0xa3, 0xee] = .ok (.nodeDetails 2 [0xa3]) := by decide
theorem test_decode_anotherNode :
    decodeFrame [0x03, 0, 0, 0, 0x04, 0xa4, 0x01] = .ok (.anotherNode 3 [0xa4, 0x01]) := by decide
theorem test_decode_bbsPort :
    decodeFrame [0x03, 0, 0, 0, 0x05, 0xa5, 0x01, 0xee] = .ok (.bbsPort 3 [0xa5, 0x01]) := by decide
theorem test_decode_diffusionRequest :
    decodeFrame [0x02, 0, 0, 0, 0x0a, 0xa6] = .ok (.diffusionRequest 2 [0xa6]) := by decide
theorem test_decode_fileRequest :
    decodeFrame [0x03, 0, 0, 0, 0x0b, 0xa7, 0x01, 0xee] = .ok (.fileRequest 3 [0xa7, 0x01]) := by decide
theorem test_decode_conditionalDiffusionRequest :
    decodeFrame [0x03, 0, 0, 0, 0x0c, 0xa8, 0x01] = .ok (.conditionalDiffusionRequest 3 [0xa8, 0x01]) := by decide
theorem test_decode_query : decodeFrame [0x02, 0, 0, 0, 0x0d, 0xa9, 0xee] = .ok (.query 2 [0xa9]) := by decide
theorem test_decode_fileResponse :
    decodeFrame [0x03, 0, 0, 0, 0x15, 0xaa, 0x01] = .ok (.fileResponse 3 [0xaa, 0x01]) := by decide
theorem test_decode_close :
    decodeFrame [0x03, 0, 0, 0, 0x1f, 0xab, 0x01, 0xee] = .ok (.close 3 [0xab, 0x01]) := by decide
theorem test_decode_connectedLimitation :
    decodeFrame [0x02, 0, 0, 0, 0x20, 0xac] = .ok (.connectedLimitation 2 [0xac]) := by decide
theorem test_decode_wrongListeningPort :
    decodeFrame [0x03, 0, 0, 0, 0x21, 0xad, 0x01, 0xee] = .ok (.wrongListeningPort 3 [0xad, 0x01]) := by decide
theorem test_decode_reject : decodeFrame [0x03, 0, 0, 0, 0x22, 0xae, 0x01] = .ok (.reject 3 [0xae, 0x01]) := by decide
theorem test_decode_slow : decodeFrame [0x02, 0, 0, 0, 0x23, 0xaf, 0xee] = .ok (.slow 2 [0xaf]) := by decide
theorem test_decode_liar : decodeFrame [0x03, 0, 0, 0, 0x24, 0xb0, 0x01] = .ok (.liar 3 [0xb0, 0x01]) := by decide
theorem test_decode_lowVersion :
    decodeFrame [0x03, 0, 0, 0, 0x61, 0xb1, 0x01, 0xee] = .ok (.lowVersion 3 [0xb1, 0x01]) := by decide
theorem test_decode_long_length :
    decodeFrame [0x04, 0x03, 0x02, 0x01, 0x1f, 0xaa] = .ok (.close 0x01020304 [0xaa]) := by decide
theorem test_decode_unknown_opcode : decodeFrame [0x01, 0, 0, 0, 0x06] = .error (.unknownOpcode 0x06) := by decide
theorem test_decode_short_header : decodeFrame [0x01, 0, 0, 0] = .error .shortHeader := by decide
theorem test_decode_hexEnc :
    decodeOp ⟨0x01, { zeroOperands with bytes := [0xab] }⟩ = .ok (.hexEnc [0xab]) := by decide
theorem test_decode_hexDec :
    decodeOp ⟨0x02, { zeroOperands with bytes := [0x34] }⟩ = .ok (.hexDec [0x34]) := by decide
theorem test_decode_truncNul :
    decodeOp ⟨0x03, { zeroOperands with bytes := [1, 0] }⟩ = .ok (.truncNul [1, 0]) := by decide
theorem test_decode_u32Le :
    decodeOp ⟨0x04, { zeroOperands with word := 0x01020304 }⟩ = .ok (.u32Le 0x01020304) := by decide
theorem test_decode_leUint : decodeOp ⟨0x05, { zeroOperands with bytes := [7] }⟩ = .ok (.leUint [7]) := by decide
theorem test_decode_addr2b :
    decodeOp ⟨0x06, { zeroOperands with bytes := [0x31] }⟩ = .ok (.addr2b [0x31]) := by decide
theorem test_decode_b2addr :
    decodeOp ⟨0x07, { zeroOperands with bytes := [1, 2, 3, 4] }⟩ = .ok (.b2addr [1, 2, 3, 4]) := by decide
theorem test_decode_sum8 : decodeOp ⟨0x10, { zeroOperands with bytes := [8] }⟩ = .ok (.sum8 [8]) := by decide
theorem test_decode_sum16 : decodeOp ⟨0x11, { zeroOperands with bytes := [9] }⟩ = .ok (.sum16 [9]) := by decide
theorem test_decode_sum32 : decodeOp ⟨0x12, { zeroOperands with bytes := [10] }⟩ = .ok (.sum32 [10]) := by decide
theorem test_decode_cNew :
    decodeOp ⟨0x20, { zeroOperands with dir := .tx, bytes := [0x4b] }⟩ = .ok (.cNew .tx [0x4b]) := by decide
theorem test_decode_cNewPh : decodeOp ⟨0x21, { zeroOperands with dir := .tx }⟩ = .ok (.cNewPh .tx) := by decide
theorem test_decode_cCrypt :
    decodeOp ⟨0x22, { zeroOperands with dir := .tx, bytes := [0x50] }⟩ = .ok (.cCrypt .tx [0x50]) := by decide
theorem test_decode_rxLoad :
    decodeOp ⟨0x30, { zeroOperands with bytes := [1, 2] }⟩ = .ok (.rxLoad [1, 2]) := by decide
theorem test_decode_hdrPeek : decodeOp ⟨0x31, zeroOperands⟩ = .ok (.hdrPeek) := by decide
theorem test_decode_frmDecode : decodeOp ⟨0x32, zeroOperands⟩ = .ok (.frmDecode) := by decide
theorem test_decode_cmdDecode : decodeOp ⟨0x33, zeroOperands⟩ = .ok (.cmdDecode) := by decide
theorem test_decode_frmEncode :
    decodeOp ⟨0x38, { zeroOperands with code := 200, bytes := [0xaa] }⟩ = .ok (.frmEncode 200 [0xaa]) := by decide
theorem test_decode_cmdEncode :
    decodeOp ⟨0x39, { zeroOperands with command := .speed 5 }⟩ = .ok (.cmdEncode (.speed 5)) := by decide
theorem test_decode_kiDecode : decodeOp ⟨0x3c, { zeroOperands with bytes := [1] }⟩ = .ok (.kiDecode [1]) := by decide
theorem test_decode_kiEncode :
    decodeOp ⟨0x3d, { zeroOperands with keyInfo := sampleKey }⟩ = .ok (.kiEncode sampleKey) := by decide
theorem test_decode_cacheBlock :
    decodeOp ⟨0x3e, { zeroOperands with bytes := [2] }⟩ = .ok (.cacheBlock [2]) := by decide
theorem test_decode_tokPack : decodeOp ⟨0x40, { zeroOperands with bytes := [3] }⟩ = .ok (.tokPack [3]) := by decide
theorem test_decode_tokUnpack :
    decodeOp ⟨0x41, { zeroOperands with bytes := [0x40] }⟩ = .ok (.tokUnpack [0x40]) := by decide
theorem test_decode_unknown_opsel : decodeOp ⟨0x34, zeroOperands⟩ = .error (.badOperation 0x34) := by decide

/-- The 40-bit word of Speed with a length field of 5 (R72): the payload is zeros. -/
theorem test_table_word_frame : decodeTableWord 40 0x0100000005 = some (.speed 5 [0, 0, 0, 0]) := by decide
theorem test_table_word_op : decodeTableWord 8 0x31 = some .hdrPeek := by decide
/-- The step after reset runs the word placed (R27, R90). -/
theorem test_fetch_word_frame :
    (stepped (State.reset.withFetchWord 40 0x1f00000001)).map (fun t => (t.result, t.cur)) = some (.command .close, 5) := by
  decide
theorem test_fetch_word_op : (stepped (State.reset.withFetchWord 8 0x12)).map (·.result) = some (.u32 0) := by decide

/-! ### Host operations -/

/-- V4b -/
theorem test_hexEnc :
    gives (.hexEnc [0x00, 0xff, 0x10, 0xab]) State.reset =
      some (.bytes [0x30, 0x30, 0x66, 0x66, 0x31, 0x30, 0x61, 0x62], 0) := by decide
/-- V5b -/
theorem test_hexDec_mixed_case :
    gives (.hexDec [0x34, 0x41, 0x36, 0x62]) State.reset = some (.bytes [0x4a, 0x6b], 0) := by decide
/-- V5d -/
theorem test_hexDec_odd : gives (.hexDec [0x34, 0x31, 0x36]) State.reset = some (.none, 4) := by decide
/-- V6a -/
theorem test_truncNul :
    gives (.truncNul [0x61, 0x62, 0x00, 0x63, 0x64]) State.reset = some (.bytes [0x61, 0x62], 0) := by decide
/-- V2 -/
theorem test_u32Le : gives (.u32Le 123456789) State.reset = some (.bytes [0x15, 0xcd, 0x5b, 0x07], 0) := by decide
/-- V8d -/
theorem test_leUint :
    gives (.leUint [0x00, 0x00, 0x00, 0x00, 0x01]) State.reset = some (.nat 4294967296, 0) := by decide
/-- V8e -/
theorem test_leUint_empty : gives (.leUint []) State.reset = some (.none, 2) := by decide
/-- V9c -/
theorem test_addr2b :
    gives (.addr2b [0x30, 0x31, 0x30, 0x2e, 0x31, 0x2e, 0x31, 0x2e, 0x31]) State.reset =
      some (.bytes [0x0a, 0x01, 0x01, 0x01], 0) := by decide
/-- V9e -/
theorem test_addr2b_range :
    gives (.addr2b [0x31, 0x2e, 0x32, 0x2e, 0x33, 0x2e, 0x32, 0x35, 0x36]) State.reset = some (.none, 5) := by decide
/-- V3 -/
theorem test_b2addr :
    gives (.b2addr [0xc0, 0xa8, 0x01, 0x0a]) State.reset =
      some (.bytes [0x31, 0x39, 0x32, 0x2e, 0x31, 0x36, 0x38, 0x2e, 0x31, 0x2e, 0x31, 0x30], 0) := by decide
/-- V9h -/
theorem test_b2addr_length : gives (.b2addr [1, 2, 3]) State.reset = some (.none, 2) := by decide
/-- V10 -/
theorem test_sum8 :
    gives (.sum8 [0x31, 0x32, 0x33, 0x2e, 0x31, 0x2e, 0x32, 0x2e, 0x33, 0x3a, 0x31, 0x32, 0x33, 0x34]) State.reset =
      some (.u8 0xba, 0) := by decide
/-- V12b -/
theorem test_sum16_wraps :
    gives (.sum16 (List.replicate 258 0xff)) State.reset = some (.u16 0x00fe, 0) := by decide +kernel
/-- V12b -/
theorem test_sum32 :
    gives (.sum32 (List.replicate 258 0xff)) State.reset = some (.u32 0x000100fe, 0) := by decide +kernel
/-- V28: an empty key gives the identity table; RXV is set -/
theorem test_cNew_identity :
    (after (.cNew .rx []) State.reset).map (fun t => (t.status, t.ctxRx, t.ctxTx)) =
      some (2, some plainCtx, none) := by rfl
/-- R138: TXV is set and the other context stays unkeyed -/
theorem test_cNewPh :
    (after (.cNewPh .tx) State.reset).map (fun t => (t.status, t.ctxRx, t.ctxTx.isSome, t.err)) =
      some (4, none, true, 0) := by rfl
/-- V28 -/
theorem test_cCrypt :
    (after (.cCrypt .rx (List.replicate 8 0)) { State.reset with ctxRx := some plainCtx, status := 2 }).map (fun t =>
      (t.result, t.ctxRx.map fun c => (c.x, c.y))) =
      some (.bytes [0x02, 0x05, 0x07, 0x0d, 0x0d, 0x17, 0x1f, 0x28], some (8, 32)) := by decide +kernel
/-- V34 -/
theorem test_cCrypt_unkeyed :
    gives (.cCrypt .rx [0x78]) { State.reset with ctxTx := some plainCtx, status := 4 } =
      some (.none, 9) := by decide +kernel
/-- R150: IBUF is replaced, CUR 0, HDRV cleared -/
theorem test_rxLoad :
    (after (.rxLoad [0x01, 0, 0, 0, 0x1f]) { holding [9] with cur := 1, status := 8 }).map (fun t => (t.ibuf, t.ilen,
      t.cur, t.status)) =
      some ([(0, 0x01), (1, 0), (2, 0), (3, 0), (4, 0x1f)], 5, 0, 0) := by decide
/-- P5 step 5 -/
theorem test_rxLoad_dead : gives (.rxLoad []) dead = some (.none, 10) := by decide
/-- V64d -/
theorem test_hdrPeek :
    (after .hdrPeek (holding [0x00, 0x00, 0x00, 0x80, 0x01])).map (fun t => (t.len, t.opc, t.status, t.cur,
      t.cntWritten)) =
      some (2147483648, 1, 8, 0, false) := by decide
/-- V64e -/
theorem test_hdrPeek_short :
    (after .hdrPeek (holding [0x05, 0, 0, 0])).map (fun t => (t.err, t.status)) = some (1, 1) := by decide
/-- V64i -/
theorem test_frmDecode :
    (after .frmDecode (holding [0x05, 0, 0, 0, 0x01, 0, 0, 0xf0, 0x42])).map (fun t => (t.result, t.len, t.cnt,
      t.cur)) =
      some (.frame 1 [0, 0, 0xf0, 0x42], 5, 9, 9) := by decide
/-- V66b -/
theorem test_frmDecode_unknown_opcode :
    (after .frmDecode (holding [0x01, 0, 0, 0, 0x06])).map (fun t => (t.result, t.err)) =
      some (.frame 6 [], 0) := by decide
/-- V65a -/
theorem test_cmdDecode :
    (after .cmdDecode (holding [0x0a, 0, 0, 0, 0x01, 0, 0, 0xf0, 0x42, 0xde, 0xad, 0xbe, 0xef, 0])).map (fun t =>
      (t.result, t.len, t.cnt, t.cur, t.status)) =
      some (.command (.speed 0x42f00000), 10, 14, 14, 8) := by decide
/-- V66a -/
theorem test_cmdDecode_unknown_opcode :
    (after .cmdDecode (holding [0x01, 0, 0, 0, 0x06])).map (fun t => (t.err, t.status, t.cur)) =
      some (8, 1, 0) := by decide
/-- V68c -/
theorem test_frmEncode :
    gives (.frmEncode 200 [0xaa]) State.reset = some (.bytes [0x02, 0, 0, 0, 0xc8, 0xaa], 0) := by decide
/-- V69e -/
theorem test_cmdEncode_unkeyed : gives (.cmdEncode (.protocolHeader 1 [])) State.reset = some (.none, 9) := by decide
/-- V69c -/
theorem test_cmdEncode_illegal :
    gives (.cmdEncode (.fileRequest 1 2 3 (List.replicate 15 0) 4)) State.reset = some (.none, 2) := by decide
/-- V73, V71c -/
theorem test_kiDecode :
    gives (.kiDecode (sampleKeyBytes ++ [0xaa])) State.reset =
      some (.keyInfo { sampleKey with nameSum := 0x0200 } 64, 0) := by decide +kernel
/-- V71b -/
theorem test_kiDecode_short :
    gives (.kiDecode (sampleKeyBytes.take 63)) State.reset = some (.none, 3) := by decide +kernel
/-- V73 -/
theorem test_kiEncode : gives (.kiEncode sampleKey) State.reset = some (.bytes sampleKeyBytes, 0) := by decide +kernel
/-- V74 -/
theorem test_kiEncode_illegal :
    gives (.kiEncode { sampleKey with sharingSig := List.replicate 12 1 }) State.reset = some (.none, 2) := by decide
/-- V69g, V69h: the length of the block and the first bytes; one byte too many is an error. -/
theorem test_cacheBlock :
    exec (.cacheBlock [0x68, 0x65]) State.reset =
      .next (State.reset.succeeds (.bytes ([0x68, 0x65] ++ List.replicate 65534 0))) := rfl
/-- V40: the source's golden token, the one test that runs the 256 rounds of a key schedule -/
theorem test_tokPack_golden :
    gives (.tokPack [0x31, 0x32, 0x33, 0x2e, 0x31, 0x2e, 0x32, 0x2e, 0x33, 0x3a, 0x31, 0x32, 0x33, 0x34]) State.reset
      =
      some (.bytes [0x40, 0x62, 0x61, 0x39, 0x35, 0x38, 0x32, 0x61, 0x33, 0x38, 0x33, 0x63, 0x37, 0x64, 0x36, 0x65,
        0x37, 0x39, 0x63, 0x64, 0x35, 0x64, 0x38, 0x63, 0x37, 0x31, 0x66, 0x37, 0x33, 0x34, 0x37], 0) := by
  decide +kernel
/-- V45a -/
theorem test_tokPack_zero_sum :
    gives (.tokPack [0x31, 0x30, 0x2e, 0x30, 0x2e, 0x30, 0x2e, 0x31, 0x31, 0x3a, 0x35, 0x39, 0x39, 0x39, 0x39])
      State.reset =
      some (.bytes [0x40, 0x30, 0x30, 0x33, 0x33, 0x33, 0x35, 0x32, 0x39, 0x33, 0x64, 0x32, 0x33, 0x32, 0x37, 0x33,
        0x31, 0x31, 0x39, 0x31, 0x39, 0x30, 0x32, 0x30, 0x37, 0x37, 0x31, 0x36, 0x66, 0x35, 0x63, 0x34, 0x63], 0) := by
  decide +kernel
/-- V45a, V47 -/
theorem test_tokUnpack :
    gives (.tokUnpack [0x40, 0x30, 0x30, 0x33, 0x33, 0x33, 0x35, 0x32, 0x39, 0x33, 0x44, 0x32, 0x33, 0x32, 0x37,
      0x33, 0x31, 0x31, 0x39, 0x31, 0x39, 0x30, 0x32, 0x30, 0x37, 0x37, 0x31, 0x36, 0x46, 0x35, 0x43, 0x34, 0x43])
      State.reset =
      some (.bytes [0x31, 0x30, 0x2e, 0x30, 0x2e, 0x30, 0x2e, 0x31, 0x31, 0x3a, 0x35, 0x39, 0x39, 0x39, 0x39], 0) := by
  decide +kernel
/-- R253, as V46g -/
theorem test_tokUnpack_damaged :
    gives (.tokUnpack [0x40, 0x30, 0x30, 0x33, 0x33, 0x33, 0x35, 0x32, 0x39, 0x33, 0x64, 0x32, 0x33, 0x32, 0x37,
      0x33, 0x31, 0x31, 0x39, 0x31, 0x39, 0x30, 0x32, 0x30, 0x37, 0x37, 0x31, 0x36, 0x66, 0x35, 0x63, 0x34, 0x64])
      State.reset =
      some (.none, 7) := by decide +kernel

/-! ### Wire commands: the meaning on the frame, and the frame CMD_ENCODE makes -/

/-- V50 -/
theorem test_speed :
    (after (.speed 5 [0, 0, 0xf0, 0x42]) (holding [0x05, 0, 0, 0, 0x01, 0, 0, 0xf0, 0x42])).map (fun t => (t.result,
      t.cur, t.err)) =
      some (.command (.speed 0x42f00000), 9, 0) := by decide
theorem test_speed_encode :
    gives (.cmdEncode (.speed 0x42f00000)) State.reset =
      some (.bytes [0x05, 0, 0, 0, 0x01, 0, 0, 0xf0, 0x42], 0) := by decide
/-- V52 -/
theorem test_connectionType :
    (after (.connectionType 5 [0x01, 0, 0x01, 0]) (holding [0x05, 0, 0, 0, 0x02, 0x01, 0, 0x01, 0])).map (fun t =>
      (t.result, t.cur, t.err)) =
      some (.command (.connectionType .transfer false true false), 9, 0) := by decide
theorem test_connectionType_encode :
    gives (.cmdEncode (.connectionType .transfer false true false)) State.reset =
      some (.bytes [0x05, 0, 0, 0, 0x02, 0x01, 0, 0x01, 0], 0) := by decide
/-- V53 -/
theorem test_nodeDetails :
    (after (.nodeDetails 32 [0xc0, 0xa8, 0x01, 0x0a, 0x3f, 0x1e, 0, 0, 0x0c, 0x05, 0x02, 0, 0x6e, 0x6f, 0x64, 0x65,
      0x2e, 0x65, 0x78, 0x61, 0x6d, 0x70, 0x6c, 0x65, 0x61, 0x6c, 0x70, 0x68, 0x61, 0x62, 0x65]) (holding [0x20, 0,
      0, 0, 0x03, 0xc0, 0xa8, 0x01, 0x0a, 0x3f, 0x1e, 0, 0, 0x0c, 0x05, 0x02, 0, 0x6e, 0x6f, 0x64, 0x65, 0x2e, 0x65,
      0x78, 0x61, 0x6d, 0x70, 0x6c, 0x65, 0x61, 0x6c, 0x70, 0x68, 0x61, 0x62, 0x65])).map (fun t => (t.result, t.cur,
      t.err)) =
      some (.command (.nodeDetails ⟨0xc0, 0xa8, 0x01, 0x0a⟩ 7743 [0x6e, 0x6f, 0x64, 0x65, 0x2e, 0x65, 0x78, 0x61,
        0x6d, 0x70, 0x6c, 0x65] [0x61, 0x6c, 0x70, 0x68, 0x61] [0x62, 0x65] []), 36, 0) := by decide
theorem test_nodeDetails_encode :
    gives (.cmdEncode (.nodeDetails ⟨0xc0, 0xa8, 0x01, 0x0a⟩ 7743 [0x6e, 0x6f, 0x64, 0x65, 0x2e, 0x65, 0x78, 0x61,
      0x6d, 0x70, 0x6c, 0x65] [0x61, 0x6c, 0x70, 0x68, 0x61] [0x62, 0x65] [])) State.reset =
      some (.bytes [0x20, 0, 0, 0, 0x03, 0xc0, 0xa8, 0x01, 0x0a, 0x3f, 0x1e, 0, 0, 0x0c, 0x05, 0x02, 0, 0x6e, 0x6f,
        0x64, 0x65, 0x2e, 0x65, 0x78, 0x61, 0x6d, 0x70, 0x6c, 0x65, 0x61, 0x6c, 0x70, 0x68, 0x61, 0x62, 0x65], 0) := by
  decide
/-- V54 -/
theorem test_anotherNode :
    (after (.anotherNode 25 [0x0a, 0, 0, 0x01, 0x3f, 0x1e, 0, 0, 0x40, 0x1e, 0, 0, 0x01, 0x78, 0, 0, 0, 0x01, 0,
      0x03, 0x61, 0x78, 0x79, 0x7a]) (holding [0x19, 0, 0, 0, 0x04, 0x0a, 0, 0, 0x01, 0x3f, 0x1e, 0, 0, 0x40, 0x1e,
      0, 0, 0x01, 0x78, 0, 0, 0, 0x01, 0, 0x03, 0x61, 0x78, 0x79, 0x7a])).map (fun t => (t.result, t.cur, t.err)) =
      some (.command (.anotherNode ⟨0x0a, 0, 0, 0x01⟩ 7743 7744 true 120 [0x61] [] [0x78, 0x79, 0x7a]), 29, 0) := by
  decide
theorem test_anotherNode_encode :
    gives (.cmdEncode (.anotherNode ⟨0x0a, 0, 0, 0x01⟩ 7743 7744 true 120 [0x61] [] [0x78, 0x79, 0x7a])) State.reset =
      some (.bytes [0x19, 0, 0, 0, 0x04, 0x0a, 0, 0, 0x01, 0x3f, 0x1e, 0, 0, 0x40, 0x1e, 0, 0, 0x01, 0x78, 0, 0, 0,
        0x01, 0, 0x03, 0x61, 0x78, 0x79, 0x7a], 0) := by decide
/-- V55 -/
theorem test_bbsPort :
    (after (.bbsPort 5 [0x40, 0x1e, 0, 0]) (holding [0x05, 0, 0, 0, 0x05, 0x40, 0x1e, 0, 0])).map (fun t =>
      (t.result, t.cur, t.err)) =
      some (.command (.bbsPort 7744), 9, 0) := by decide
theorem test_bbsPort_encode :
    gives (.cmdEncode (.bbsPort 7744)) State.reset =
      some (.bytes [0x05, 0, 0, 0, 0x05, 0x40, 0x1e, 0, 0], 0) := by decide
/-- V56 -/
theorem test_diffusionRequest :
    (after (.diffusionRequest 1 []) (holding [0x01, 0, 0, 0, 0x0a])).map (fun t => (t.result, t.cur, t.err)) =
      some (.command (.diffusionRequest), 5, 0) := by decide
theorem test_diffusionRequest_encode :
    gives (.cmdEncode (.diffusionRequest)) State.reset = some (.bytes [0x01, 0, 0, 0, 0x0a], 0) := by decide
/-- V57 -/
theorem test_fileRequest :
    (after (.fileRequest 33 [0x01, 0, 0, 0, 0x02, 0, 0, 0, 0, 0, 0x01, 0, 0, 0x01, 0x02, 0x03, 0x04, 0x05, 0x06,
      0x07, 0x08, 0x09, 0x0a, 0x0b, 0x0c, 0x0d, 0x0e, 0x0f, 0x40, 0x42, 0x0f, 0]) (holding [0x21, 0, 0, 0, 0x0b,
      0x01, 0, 0, 0, 0x02, 0, 0, 0, 0, 0, 0x01, 0, 0, 0x01, 0x02, 0x03, 0x04, 0x05, 0x06, 0x07, 0x08, 0x09, 0x0a,
      0x0b, 0x0c, 0x0d, 0x0e, 0x0f, 0x40, 0x42, 0x0f, 0])).map (fun t => (t.result, t.cur, t.err)) =
      some (.command (.fileRequest 1 2 65536 [0, 1, 2, 3, 4, 5, 6, 7, 8, 9, 10, 11, 12, 13, 14, 15] 1000000), 37, 0)
        := by decide
theorem test_fileRequest_encode :
    gives (.cmdEncode (.fileRequest 1 2 65536 [0, 1, 2, 3, 4, 5, 6, 7, 8, 9, 10, 11, 12, 13, 14, 15] 1000000))
      State.reset =
      some (.bytes [0x21, 0, 0, 0, 0x0b, 0x01, 0, 0, 0, 0x02, 0, 0, 0, 0, 0, 0x01, 0, 0, 0x01, 0x02, 0x03, 0x04,
        0x05, 0x06, 0x07, 0x08, 0x09, 0x0a, 0x0b, 0x0c, 0x0d, 0x0e, 0x0f, 0x40, 0x42, 0x0f, 0], 0) := by decide
/-- V58, V67h. -/
theorem test_conditionalDiffusionRequest :
    gives (.conditionalDiffusionRequest 277 ([0x74, 0x65, 0x73, 0x74] ++ List.replicate 251 0 ++ [0x73, 0x69, 0x67]
      ++ List.replicate 14 0 ++ [0x04, 0x03, 0x02, 0x01])) { State.reset with ilen := 281 } =
    some (.command (.conditionalDiffusionRequest [0x74, 0x65, 0x73, 0x74] [0x73, 0x69, 0x67] 0x01020304), 0) := by
  decide +kernel
theorem test_conditionalDiffusionRequest_longer :
    gives (.conditionalDiffusionRequest 278 (List.replicate 277 0)) { State.reset with ilen := 282 } = some (.none, 1) := by
  decide +kernel
/-- V63, with the KeyInfo of V73. -/
theorem test_query :
    gives (.query 97 ([0x01, 0, 0x01, 0, 0xef, 0xbe, 0xad, 0xde, 0x03, 0x61, 0x62, 0x63, 0x74, 0x72, 0x69, 0x70,
        0, 0, 0, 0, 0, 0, 0, 0x01, 0x0a, 0, 0, 0x02, 0x3f, 0x1e, 0x01, 0] ++ sampleKeyBytes))
      { State.reset with ilen := 101 } =
    some (.command (.query true false true false 0xdeadbeef [0x61, 0x62, 0x63] [0x74, 0x72, 0x69, 0x70]
      [⟨⟨0x0a, 0, 0, 2⟩, 7743⟩] [{ sampleKey with nameSum := 0x0200 }]), 0) := by decide +kernel
/-- V67k: one KeyInfo declared and none there. -/
theorem test_query_truncated :
    gives (.query 24 ([0, 0, 0, 0, 7, 0, 0, 0, 0] ++ List.replicate 11 0 ++ [0, 1, 0])) { State.reset with ilen := 28 } =
    some (.none, 3) := by decide +kernel
/-- V59 -/
theorem test_fileResponse :
    (after (.fileResponse 30 [0x01, 0, 0, 0, 0, 0, 0, 0, 0, 0x01, 0x02, 0x03, 0x04, 0x05, 0x06, 0x07, 0x08, 0x09,
      0x0a, 0x0b, 0x0c, 0x0d, 0x0e, 0x0f, 0x68, 0x65, 0x6c, 0x6c, 0x6f]) (holding [0x1e, 0, 0, 0, 0x15, 0x01, 0, 0,
      0, 0, 0, 0, 0, 0, 0x01, 0x02, 0x03, 0x04, 0x05, 0x06, 0x07, 0x08, 0x09, 0x0a, 0x0b, 0x0c, 0x0d, 0x0e, 0x0f,
      0x68, 0x65, 0x6c, 0x6c, 0x6f])).map (fun t => (t.result, t.cur, t.err)) =
      some (.command (.fileResponse 1 0 [0, 1, 2, 3, 4, 5, 6, 7, 8, 9, 10, 11, 12, 13, 14, 15] [0x68, 0x65, 0x6c,
        0x6c, 0x6f]), 34, 0) := by decide
theorem test_fileResponse_encode :
    gives (.cmdEncode (.fileResponse 1 0 [0, 1, 2, 3, 4, 5, 6, 7, 8, 9, 10, 11, 12, 13, 14, 15] [0x68, 0x65, 0x6c,
      0x6c, 0x6f])) State.reset =
      some (.bytes [0x1e, 0, 0, 0, 0x15, 0x01, 0, 0, 0, 0, 0, 0, 0, 0, 0x01, 0x02, 0x03, 0x04, 0x05, 0x06, 0x07,
        0x08, 0x09, 0x0a, 0x0b, 0x0c, 0x0d, 0x0e, 0x0f, 0x68, 0x65, 0x6c, 0x6c, 0x6f], 0) := by decide
/-- V65b -/
theorem test_close :
    (after (.close 4 [0xaa, 0xbb, 0xcc]) (holding [0x04, 0, 0, 0, 0x1f, 0xaa, 0xbb, 0xcc])).map (fun t => (t.result,
      t.cur, t.err)) =
      some (.command (.close), 8, 0) := by decide
/-- V60 -/
theorem test_connectedLimitation :
    (after (.connectedLimitation 1 []) (holding [0x01, 0, 0, 0, 0x20])).map (fun t => (t.result, t.cur, t.err)) =
      some (.command (.connectedLimitation), 5, 0) := by decide
/-- V60 -/
theorem test_wrongListeningPort :
    (after (.wrongListeningPort 1 []) (holding [0x01, 0, 0, 0, 0x21])).map (fun t => (t.result, t.cur, t.err)) =
      some (.command (.wrongListeningPort), 5, 0) := by decide
/-- V60 -/
theorem test_reject :
    (after (.reject 1 []) (holding [0x01, 0, 0, 0, 0x22])).map (fun t => (t.result, t.cur, t.err)) =
      some (.command (.reject), 5, 0) := by decide
/-- V60 -/
theorem test_slow :
    (after (.slow 1 []) (holding [0x01, 0, 0, 0, 0x23])).map (fun t => (t.result, t.cur, t.err)) =
      some (.command (.slow), 5, 0) := by decide
/-- V60 -/
theorem test_liar :
    (after (.liar 1 []) (holding [0x01, 0, 0, 0, 0x24])).map (fun t => (t.result, t.cur, t.err)) =
      some (.command (.liar), 5, 0) := by decide
/-- V60 -/
theorem test_lowVersion :
    (after (.lowVersion 1 []) (holding [0x01, 0, 0, 0, 0x61])).map (fun t => (t.result, t.cur, t.err)) =
      some (.command (.lowVersion), 5, 0) := by decide
/-- V60a: every empty variant encodes to its five header bytes. -/
theorem test_close_encode :
    gives (.cmdEncode .close) State.reset = some (.bytes [0x01, 0, 0, 0, 0x1f], 0) := by decide
/-- R171: the payload `00 00 00 00` enciphered with the identity-table keystream `02 05 07 0d` of V28. -/
theorem test_protocolHeader :
    (after (.protocolHeader 5 [0x02, 0x05, 0x07, 0x0d]) { State.reset with ilen := 9, ctxRx := some plainCtx, status := 2 }).map
      (fun t => (t.result, t.ctxRx.map fun c => c.x)) = some (.command (.protocolHeader 0 []), some 4) := by
  decide +kernel
/-- V67o: a payload of three bytes does not advance the context. -/
theorem test_protocolHeader_short :
    (after (.protocolHeader 4 [0xaa, 0xbb, 0xcc]) { State.reset with ilen := 8, ctxRx := some plainCtx, status := 2 }).map
      (fun t => (t.err, t.ctxRx.map fun c => c.x)) = some (1, some 0) := by
  decide +kernel

/-! ### Reset, register reads, idling -/

/-- R311, and what the host has yet to do stays. -/
theorem test_reset : (stepped { dead with cur := 3, host := [.reset, .read .err] }).map (fun t => (t.status, t.cur, t.host)) =
    some (0, 0, [.read .err]) := by decide
/-- R23: bits 7:4 read as 0. -/
theorem test_read_status : (stepped { State.reset with status := 0xf9, host := [.read .status] }).map (·.regOut) =
    some (.value 9) := by decide
/-- R25: LEN holds no value after reset; the read is refused without a number, and the next event runs. -/
theorem test_read_len : (stepped { State.reset with host := [.read .len, .reset] }).map (fun t => (t.regOut, t.host)) =
    some (.refused .len, [.reset]) := by decide
/-- R311: with nothing pending the block waits. -/
theorem test_idle : step State.reset = .next State.reset := rfl

/-! ### Witnesses: concrete states and operands that meet each statement's hypotheses, clause by clause -/

theorem witness_DecodeOfEncodeIsIdentity :
    (Instr.speed 5 [0, 0, 0xf0, 0x42]).wellFormed = true ∧
    (Instr.cNew .tx (List.replicate 13 1)).wellFormed = true := by
  decide

theorem witness_OpcodeMapAsTabled : (variantOf 0).isSome = true ∧ (variantOf 97).isSome = true := by decide

/-- An operation that is not CMD_DECODE, CMD_DECODE with a wire command at the cursor, and CMD_DECODE with none. -/
theorem witness_StepRunsTheDecodedInstruction :
    decodeOp (bytesRequest 0x01 [7]) = .ok (.hexEnc [7]) ∧ decodeOp (bytesRequest 0x33 []) = .ok .cmdDecode ∧
    fetchFrame { holding [1, 0, 0, 0, 0x1f] with host := [.op (bytesRequest 0x33 [])] } = some (.close 1 []) ∧
    fetchFrame { holding [1, 0, 0, 0, 0x06] with host := [.op (bytesRequest 0x33 [])] } = none := by decide

theorem witness_CmdDecodeRunsTheFrameAtTheCursor :
    (holding [1, 0, 0, 0, 0x1f, 9]).BufferValid ∧
    decodeFrame (holding [1, 0, 0, 0, 0x1f, 9]).ahead = .ok (.close 1 []) ∧
    fetchFrame (holding [1, 0, 0, 0, 0x1f, 9]) = some (.close 1 []) ∧ (holding [1, 0, 0, 0]).BufferValid ∧
    decodeFrame (holding [1, 0, 0, 0]).ahead = .error .shortHeader := by decide

theorem witness_UnknownOpselIsRefused :
    (asked ⟨0x00, zeroOperands⟩).host = .op ⟨0x00, zeroOperands⟩ :: [] ∧
    ∀ c ∈ [(0x00 : Byte), 0x08, 0x0f, 0x13, 0x1f, 0x23, 0x2f, 0x34, 0x37, 0x3a, 0x3b, 0x3f, 0x42, 0xff],
      c.toNat ∉ [0x01, 0x02, 0x03, 0x04, 0x05, 0x06, 0x07, 0x10, 0x11, 0x12, 0x20, 0x21, 0x22, 0x30, 0x31, 0x32,
        0x33, 0x38, 0x39, 0x3C, 0x3D, 0x3E, 0x40, 0x41] := by decide

theorem witness_ResetLeavesTheTabledState : { dead with host := [.reset] }.host = .reset :: [] := rfl

/-- CNT with a full decode behind it, CNT after HDR_PEEK alone (V64a), LEN with no header. -/
theorem witness_RegisterReads :
    { State.reset with status := 8, cntWritten := true, host := [.read .cnt] }.host = .read .cnt :: [] ∧
    { State.reset with status := 8, cntWritten := true }.flag .hdrv = true ∧
    (after .hdrPeek (holding [1, 0, 0, 0, 0x1f])).map (fun t => (t.flag .hdrv, t.cntWritten)) = some (true, false) ∧
    { State.reset with host := [.read .len] }.host = .read .len :: [] ∧ State.reset.flag .hdrv = false := by decide

/-- A state with a frame to decode and a keyed context. -/
def busy : State :=
  { holding [1, 0, 0, 0, 0x1f] with ctxRx := some plainCtx, status := 2, host := [.op (bytesRequest 0x33 [])] }

theorem witness_StepKeepsTheInvariant : busy.Inv ∧ (stepped busy).isSome = true := by
  refine ⟨⟨by decide +kernel, by decide, by decide, by decide, by decide, ?_, ?_, by decide⟩, by decide +kernel⟩
  · intro k h
    have hk : k = plainCtx := (Option.some.inj h).symm
    subst hk
    exact identityTable_perm
  · intro k h
    cases h

theorem witness_NoFaultFromTheInvariant : busy.Inv := witness_StepKeepsTheInvariant.1

/-- A refusal of a receive decode, an error of one, and an error of another operation. -/
theorem witness_FailuresChangeNothingElse :
    (after .hdrPeek dead).map (·.err) = some 10 ∧ (after .hdrPeek State.reset).map (·.err) = some 1 ∧
    (after (.leUint []) State.reset).map (·.err) = some 2 := by decide

theorem witness_RxDeadLatch :
    State.reset.flag .rxDead = false ∧
    (after .frmDecode State.reset).map (fun t => (t.err, t.flag .rxDead)) = some (1, true) ∧
    (after (.sum8 []) State.reset).map (·.err) = some 0 ∧ dead.flag .rxDead = true ∧
    (stepped { dead with host := [.op (bytesRequest 0x01 [])] }).isSome = true ∧
    (stepped { dead with host := [.reset] }).map (fun t => t.flag .rxDead) = some false := by decide

/-- Each kind of state is written by some instruction. -/
theorem witness_StateIsWrittenOnlyByItsOwners :
    (after .hdrPeek (holding [2, 0, 0, 0, 0x1f])).map (fun t => (t.len, t.opc)) = some (2, 0x1f) ∧
    (after .frmDecode (holding [1, 0, 0, 0, 6])).map (fun t => (t.cnt, t.cur)) = some (5, 5) ∧
    (after (.rxLoad [9]) State.reset).map (fun t => (t.ilen, t.ibuf)) = some (1, [(0, 9)]) ∧
    (after (.cNew .rx []) State.reset).map (fun t => t.ctxRx.isSome) = some true ∧
    (after (.cNewPh .tx) State.reset).map (fun t => t.ctxTx.isSome) = some true ∧
    (after .cmdDecode { holding [5, 0, 0, 0, 0, 2, 5, 7, 0x0d] with ctxRx := some plainCtx }).map
      (fun t => (t.opc, t.ctxRx.map (·.x))) = some (0, some 4) := by decide +kernel

theorem witness_StatelessOperationsTouchOnlyErr : (Instr.hexDec [0x34]).stateless = true ∧
    (Instr.kiDecode []).stateless = true := by decide

theorem witness_ReceiveAndTransmitPathsCommute :
    Instr.onReceivePath (.frmDecode) = true ∧ Instr.onTransmitPath (.cNew .tx []) = true ∧
    (after .frmDecode (holding [1, 0, 0, 0, 6])).isSome = true ∧
    (after (.cNew .tx []) (holding [1, 0, 0, 0, 6])).isSome = true ∧
    ((after .frmDecode (holding [1, 0, 0, 0, 6])).bind (after (.cNew .tx []))).isSome = true ∧
    ((after (.cNew .tx []) (holding [1, 0, 0, 0, 6])).bind (after .frmDecode)).isSome = true := by decide

theorem witness_HexEncGivesTwoDigitsAByte : ([0x00, 0xff] : Bytes)[1]? = some 0xff := rfl

/-- The digits at the ends of the three ranges; an odd length; the neighbours of the ranges. -/
theorem witness_HexDecInvertsOrEncodingError :
    (([0x30, 0x39, 0x41, 0x46, 0x61, 0x66] : Bytes).length % 2 = 0 ∧
      ∀ c ∈ ([0x30, 0x39, 0x41, 0x46, 0x61, 0x66] : Bytes), IsHexChar c) ∧
    ([0x30] : Bytes).length % 2 = 1 ∧ ∀ c ∈ ([0x2f, 0x3a, 0x40, 0x47, 0x60, 0x67] : Bytes), ¬ IsHexChar c := by decide

theorem witness_LittleEndianIntegers : ([0] : Bytes) ≠ [] ∧ ([] : Bytes) = [] := by decide

/-- Parts of one, two and three digits up to 255; and texts that are no dotted quad. -/
theorem witness_Addr2bParsesDottedQuads :
    IsOctetText [0x30] ∧ IsOctetText [0x30, 0x31, 0x30] ∧ IsOctetText [0x39, 0x39] ∧ IsOctetText [0x32, 0x35, 0x35] ∧
    ¬ IsOctetText [] ∧ ¬ IsOctetText [0x32, 0x35, 0x36] ∧ ¬ IsOctetText [0x30, 0x30, 0x30, 0x34] ∧
    ¬ IsDottedQuad [] := by
  refine ⟨by decide, by decide, by decide, by decide, by decide, by decide, by decide, ?_⟩
  rintro ⟨p0, p1, p2, p3, h, -⟩
  have := congrArg List.length h
  simp [joinDots] at this

theorem witness_B2addrJoinsAndAddr2bReadsBack : ([1, 2, 3] : Bytes).length ≠ 4 ∧
    ([1, 2, 3, 4, 5] : Bytes).length ≠ 4 := by
  decide

theorem witness_ChecksumLaws : (1 : Byte) ≠ 0 := by decide

theorem witness_KeyScheduleFollowsTheRounds :
    truncNul [0x00, 0x61] = [] ∧ truncNul [] = [] ∧ truncNul [0x61, 0x00] ≠ [] := by decide

theorem witness_CryptFollowsTheGenerator : ([0x50, 0x6c] : Bytes)[1]? = some 0x6c := rfl

theorem witness_CCryptUsesOneContext :
    { State.reset with ctxTx := some plainCtx }.ctx .tx = some plainCtx ∧
    { State.reset with ctxTx := some plainCtx }.ctx .rx = none := ⟨rfl, rfl⟩

theorem witness_CipherContinuation : ({ State.reset with ctxRx := some plainCtx }.ctx .rx).isSome = true := rfl

theorem witness_CipherSelfInverse :
    { State.reset with ctxTx := some plainCtx }.ctx .tx = some plainCtx ∧
    { State.reset with ctxRx := some plainCtx }.ctx .rx = some plainCtx := ⟨rfl, rfl⟩

theorem witness_RxLoadReplacesTheBuffer : dead.flag .rxDead = true ∧ State.reset.flag .rxDead = false := by decide

/-- Dead; four bytes ahead; five bytes ahead with a length of 0 and of 1. -/
theorem witness_HdrPeekReadsTheHeader :
    dead.BufferValid ∧ dead.flag .rxDead = true ∧ (holding [1, 0, 0, 0]).BufferValid ∧
    (holding [1, 0, 0, 0]).flag .rxDead = false ∧ (holding [1, 0, 0, 0]).ahead.length < 5 ∧
    (holding [0, 0, 0, 0, 7]).ahead = 0 :: 0 :: 0 :: 0 :: 7 :: [] ∧ lengthOf 0 0 0 0 = 0 ∧
    (holding [1, 0, 0, 0, 7]).ahead = 1 :: 0 :: 0 :: 0 :: 7 :: [] ∧ lengthOf 1 0 0 0 ≠ 0 := by decide

/-- As above, with a payload one byte short and one just whole. -/
theorem witness_FrmDecodeSlicesTheFrame :
    (holding [3, 0, 0, 0, 7, 9]).BufferValid ∧ (holding [3, 0, 0, 0, 7, 9]).flag .rxDead = false ∧
    (holding [3, 0, 0, 0, 7, 9]).ahead = 3 :: 0 :: 0 :: 0 :: 7 :: [9] ∧ ([9] : Bytes).length + 1 < lengthOf 3 0 0 0 ∧
    ([9] : Bytes) = [9] ++ [] ∧ lengthOf 2 0 0 0 = 1 + ([9] : Bytes).length := by decide

/-- An unknown opcode; opcode 0 unkeyed; payloads below the minimum, not 276 bytes, with a link type out of range, and one that
decodes. -/
theorem witness_CmdDecodeChecksInOrder :
    variantOf 6 = none ∧ (holding [1, 0, 0, 0, 0]).ctxRx = none ∧ variantOf 1 = some .speed ∧ (1 : Byte) ≠ 0 ∧
    ([0, 0, 0] : Bytes).length < minPayload .speed ∧
    ¬ (List.replicate 277 (0 : Byte)).length < minPayload .conditionalDiffusionRequest ∧
    (List.replicate 277 (0 : Byte)).length ≠ 276 ∧
    decodePayload .connectionType [3, 0, 0, 0] none = .error .fieldRangeError ∧
    decodePayload .speed [5, 0, 0, 0] none = .ok (.speed 5, none) ∧
    (holding [5, 0, 0, 0, 1, 5, 0, 0, 0]).ahead = 5 :: 0 :: 0 :: 0 :: 1 :: ([5, 0, 0, 0] ++ []) ∧
    lengthOf 5 0 0 0 = 1 + ([5, 0, 0, 0] : Bytes).length := by
  refine ⟨by decide, by decide, by decide, by decide, by decide, ?_, ?_, by decide, by decide, by decide, by decide⟩ <;>
    (rw [List.length_replicate]; try decide)

theorem witness_FrmEncodePrependsTheHeader :
    1 + (List.replicate 4294967294 (0 : Byte)).length ≤ 4294967295 ∧
    4294967295 < 1 + (List.replicate 4294967295 (0 : Byte)).length := by
  rw [List.length_replicate, List.length_replicate]; decide

theorem witness_FrameRoundTrip :
    ([] : Bytes).length ≤ 4294967294 ∧ Config.ibufFits (5 + ([] : Bytes).length) = true ∧
    State.reset.flag .rxDead = false := by
  decide

theorem witness_CommandRoundTrip :
    legalCommand .close = true ∧ (∀ m j, Command.close ≠ .protocolHeader m j) ∧
    (holding [1, 0, 0, 0, 0x1f, 9]).BufferValid ∧
    (holding [1, 0, 0, 0, 0x1f, 9]).flag .rxDead = false ∧
    gives (.cmdEncode .close) State.reset = some (.bytes [1, 0, 0, 0, 0x1f], 0) ∧
    (holding [1, 0, 0, 0, 0x1f, 9]).ahead = [1, 0, 0, 0, 0x1f] ++ [9] := by
  refine ⟨by decide, by simp, by decide, by decide, by decide, by decide⟩

/-- The frame of ProtocolHeader(0, []) under the identity table, at the cursor of a block keyed alike. -/
theorem witness_ProtocolHeaderRoundTrip :
    ([] : Bytes).length ≤ 4294967290 ∧
    gives (.cmdEncode (.protocolHeader 0 [])) { State.reset with ctxTx := some plainCtx } =
      some (.bytes [5, 0, 0, 0, 0, 0x02, 0x05, 0x07, 0x0d], 0) ∧
    (holding [5, 0, 0, 0, 0, 0x02, 0x05, 0x07, 0x0d]).BufferValid ∧
    (holding [5, 0, 0, 0, 0, 0x02, 0x05, 0x07, 0x0d]).flag .rxDead = false ∧
    (holding [5, 0, 0, 0, 0, 0x02, 0x05, 0x07, 0x0d]).ahead = [5, 0, 0, 0, 0, 0x02, 0x05, 0x07, 0x0d] ++ [] ∧
    { holding [5, 0, 0, 0, 0, 0x02, 0x05, 0x07, 0x0d] with ctxRx := some plainCtx }.ctxRx = some plainCtx :=
  ⟨by decide, by decide +kernel, by decide, by decide, by decide, rfl⟩

theorem witness_CmdEncodeFramesThePayload :
    legalCommand (.fileRequest 1 2 3 [] 4) = false ∧ State.reset.ctxTx = none ∧
    encodePayload (.speed 5) none = .ok ([5, 0, 0, 0], none) ∧ (∀ m j, Command.speed 5 ≠ .protocolHeader m j) := by
  refine ⟨by decide, by decide, by decide, by simp⟩

theorem witness_CacheBlockPadsTo65536 :
    (List.replicate 65536 (1 : Byte)).length ≤ 65536 ∧ 65536 < (List.replicate 65537 (1 : Byte)).length := by
  rw [List.length_replicate, List.length_replicate]; decide

/-- Length 0; one byte missing; whole with a payload one byte below the minimum. -/
theorem witness_ShortFramesAreFramingErrors :
    State.reset.flag .rxDead = false ∧
    (holding [1, 0, 0, 0]).ilen < (holding [1, 0, 0, 0]).cur + (4 + (1 : U32).toNat) ∧
    (holding [4, 0, 0, 0, 1, 0, 0, 0]).Receivable 4 ∧ ([0, 0, 0] : Bytes).length < minPayload .speed ∧
    { holding [4, 0, 0, 0, 0, 0, 0, 0] with ctxRx := some plainCtx }.ctxRx.isSome = true := by decide

theorem witness_ProtocolHeaderUsesTheDirectionsContext :
    (holding [5, 0, 0, 0, 0, 2, 5, 7, 0x0d]).Receivable 5 ∧ (holding [5, 0, 0, 0, 0, 2, 5, 7, 0x0d]).ctxRx = none ∧
    { holding [4, 0, 0, 0, 0, 1, 2, 3] with ctxRx := some plainCtx }.Receivable 4 ∧ ([1, 2, 3] : Bytes).length < 4 ∧
    (crypt plainCtx [2, 5, 7, 0x0d]).1 = leU32 0 ++ [] ∧ State.reset.ctxTx = none ∧
    (List.replicate 4294967290 (0 : Byte)).length ≤ 4294967290 ∧
    4294967290 < (List.replicate 4294967291 (0 : Byte)).length := by
  refine ⟨by decide, by decide, by decide, by decide, by decide +kernel, by decide, ?_, ?_⟩ <;>
    (rw [List.length_replicate]; try decide)

theorem witness_SpeedAndBbsPort :
    (holding [5, 0, 0, 0, 1, 0, 0, 0xf0, 0x42]).Receivable 5 ∧ (holding [4, 0, 0, 0, 5, 1, 2, 3]).Receivable 4 ∧
    ([1, 2, 3] : Bytes).length < 4 := by decide

/-- Link types 0, 2 and 3; a payload of three bytes. -/
theorem witness_ConnectionTypeFields :
    (holding [5, 0, 0, 0, 2, 3, 0, 0, 0]).Receivable 5 ∧
    ((0 : Byte), LinkType.search) ∈ [((0 : Byte), LinkType.search)] ∧
    2 < (3 : Byte).toNat ∧ ([1, 2, 3] : Bytes).length < 4 := by decide

/-- Strings that fill the payload exactly; one byte missing; 11 bytes; 255 and 256 bytes on encode. -/
theorem witness_NodeDetailsFields :
    { State.reset with ilen := 19 }.Receivable 15 ∧ ([1, 2] : Bytes) = [1] ++ [] ++ [] ++ [2] ++ [] ∧
    ([1] : Bytes).length = (1 : Byte).toNat ∧
    ([1, 2] : Bytes).length < (1 : Byte).toNat + (1 : Byte).toNat + 0 + (1 : Byte).toNat ∧
    (List.replicate 11 (0 : Byte)).length < 12 ∧ (List.replicate 255 (0 : Byte)).length ≤ 255 ∧
    255 < (List.replicate 256 (0 : Byte)).length := by
  refine ⟨by decide, by decide, by decide, by decide, by decide, ?_, ?_⟩ <;> (rw [List.length_replicate]; try decide)

theorem witness_AnotherNodeFields :
    { State.reset with ilen := 27 }.Receivable 23 ∧ ([1, 2] : Bytes) = [1] ++ [] ++ [2] ++ [] ∧
    ([1, 2] : Bytes).length < (1 : Byte).toNat + (1 : Byte).toNat + (1 : Byte).toNat ∧
    (List.replicate 19 (0 : Byte)).length < 20 ∧ (List.replicate 255 (0 : Byte)).length ≤ 255 ∧
    255 < (List.replicate 256 (0 : Byte)).length := by
  refine ⟨by decide, by decide, by decide, by decide, ?_, ?_⟩ <;> (rw [List.length_replicate]; try decide)

theorem witness_FileCommands :
    { State.reset with ilen := 37 }.Receivable 33 ∧ (List.replicate 16 (0 : Byte)).length = 16 ∧
    (List.replicate 15 (0 : Byte)).length ≠ 16 ∧ (List.replicate 31 (0 : Byte)).length < 32 ∧
    (List.replicate 23 (0 : Byte)).length < 24 ∧ (List.replicate 65536 (0 : Byte)).length ≤ 65536 ∧
    65536 < (List.replicate 65537 (0 : Byte)).length := by
  refine ⟨by decide, ?_, ?_, ?_, ?_, ?_, ?_⟩ <;> (rw [List.length_replicate]; try decide)

theorem witness_ConditionalDiffusionRequestFields :
    { State.reset with ilen := 281 }.Receivable 277 ∧ (List.replicate 255 (1 : Byte)).length = 255 ∧
    (List.replicate 17 (1 : Byte)).length = 17 ∧ (List.replicate 275 (0 : Byte)).length ≠ 276 ∧
    (List.replicate 277 (0 : Byte)).length ≠ 276 ∧ (0 : Byte) ∉ List.replicate 17 (1 : Byte) ∧
    255 < (List.replicate 256 (1 : Byte)).length ∧ (0 : Byte) ∈ ([0x61, 0] : Bytes) ∧
    17 < (List.replicate 18 (1 : Byte)).length := by
  refine ⟨by decide, ?_, ?_, ?_, ?_, by decide, ?_, by decide, ?_⟩ <;> (rw [List.length_replicate]; try decide)

/-- Empty lists with a full signature; one record of each kind and a padded signature; and each field out of range. -/
theorem witness_QueryFields :
    { State.reset with ilen := 101 }.Receivable 97 ∧ ([0x61] : Bytes).length ≤ 255 ∧ ([0x74] : Bytes).length ≤ 11 ∧
    (0 : Byte) ∉ ([0x74] : Bytes) ∧
    (∀ k ∈ [sampleKey], k.fileHash.length ≤ 16 ∧ 0 ∉ k.fileHash ∧ k.name.length ≤ 255 ∧ k.sharingSig.length ≤ 11 ∧
      0 ∉ k.sharingSig ∧ k.bbsSig.length ≤ 255) ∧
    ([0x74] : Bytes).length + (List.replicate 10 (0 : Byte)).length = 11 ∧
    (List.replicate 10 (0 : Byte)).head? = some 0 ∧
    (List.replicate 11 (1 : Byte)).length + ([] : Bytes).length = 11 ∧
    11 < (List.replicate 12 (1 : Byte)).length ∧ (0 : Byte) ∈ ([0x74, 0] : Bytes) ∧
    (∃ k ∈ [{ sampleKey with fileHash := [1, 0] }], (0 : Byte) ∈ k.fileHash) ∧
    255 < (List.replicate 256 (1 : Byte)).length ∧
    255 < (List.replicate 256 (ViaNode.mk ⟨0, 0, 0, 0⟩ 0)).length ∧ 65535 < (List.replicate 65536 sampleKey).length := by
  refine ⟨by decide, by decide, by decide, by decide, by decide, by decide, by decide, by decide, by decide, by decide,
    ⟨_, List.mem_singleton_self _, by decide⟩, ?_, ?_, ?_⟩ <;> (rw [List.length_replicate]; try decide)

/-- 23 bytes of payload: a keyword of 3 leaves no vianode_count, one of 2 leaves no keyinfo_count; one KeyInfo declared and
none there; nothing declared; and one KeyInfo there. -/
theorem witness_QueryIsWholeOrTruncated :
    { State.reset with ilen := 28 }.Receivable 24 ∧ 23 ≤ (List.replicate 23 (0 : Byte)).length ∧
    (List.replicate 8 (0 : Byte) ++ 3 :: List.replicate 14 0).length ≤ 20 + (3 : Byte).toNat ∧
    (List.replicate 8 (0 : Byte) ++ 2 :: List.replicate 14 0)[22]? = some 0 ∧
    (List.replicate 8 (0 : Byte) ++ 2 :: List.replicate 14 0).length < 23 + (2 : Byte).toNat + 6 * (0 : Byte).toNat ∧
    recordsEnd (List.replicate 21 0 ++ [1, 0]) 1 23 = none ∧
    recordsEnd (List.replicate 23 0) 0 23 = some 23 ∧
    recordsEnd (List.replicate 21 0 ++ [1, 0] ++ sampleKeyBytes) 1 23 = some 87 := by decide +kernel

/-- A record whose checksum is not its name's and whose flag byte is 0x80 (V72a, R225), one byte missing, and no length. -/
theorem witness_KiDecodeReadsOneRecord :
    ((sampleKeyBytes.set 34 9).set 62 0x80)[32]? = some 5 ∧ ((sampleKeyBytes.set 34 9).set 62 0x80)[51]? = some 0 ∧
    59 + (5 : Byte).toNat + (0 : Byte).toNat ≤ ((sampleKeyBytes.set 34 9).set 62 0x80).length ∧
    (gives (.kiDecode ((sampleKeyBytes.set 34 9).set 62 0x80)) State.reset) =
      some (.keyInfo { sampleKey with nameSum := 0x0900 } 64, 0) ∧
    (sampleKeyBytes.take 63).length < 59 + (5 : Byte).toNat + (0 : Byte).toNat ∧ ([] : Bytes)[32]? = none := by
  decide +kernel

theorem witness_EmptyCommands : (holding [1, 0, 0, 0, 0x1f]).Receivable 1 := by decide

theorem witness_KeyInfoRoundTrip :
    (sampleKey.fileHash.length ≤ 16 ∧ 0 ∉ sampleKey.fileHash ∧ sampleKey.name.length ≤ 255 ∧
    sampleKey.sharingSig.length ≤ 11 ∧
      0 ∉ sampleKey.sharingSig ∧ sampleKey.bbsSig.length ≤ 255) ∧
    16 < (List.replicate 17 (1 : Byte)).length ∧ (0 : Byte) ∈ ([1, 0] : Bytes) ∧
    255 < (List.replicate 256 (1 : Byte)).length ∧
    11 < (List.replicate 12 (1 : Byte)).length := by
  refine ⟨by decide, ?_, by decide, ?_, ?_⟩ <;> (rw [List.length_replicate]; try decide)

theorem witness_KeyInfoLayout : legalKeyInfo sampleKey = true := by decide

/-- 19 characters; another first character; an even length; a byte that is no digit; and a text that passes both tests. -/
theorem witness_TokUnpackErrorsInOrder :
    (0x40 :: List.replicate 18 0x30 : Bytes).length < 20 ∧ (List.replicate 21 0x30 : Bytes).head? ≠ some 0x40 ∧
    20 ≤ (0x40 :: List.replicate 19 0x30 : Bytes).length ∧
    (0x40 :: List.replicate 19 0x30 : Bytes).head? = some 0x40 ∧
    (0x40 :: List.replicate 19 0x30 : Bytes).length % 2 = 0 ∧ ¬ IsHexChar 0x67 ∧
    hexDec ((0x40 :: List.replicate 20 0x30 : Bytes).drop 1) = .ok (0 :: List.replicate 9 0) ∧
    sumU8 (cryptFresh (tokenKey 0) (List.replicate 9 0)) ≠ 0 := by decide +kernel

/-- The text `10.0.0.11:59999` of V45a unpacks: its checksum agrees. -/
theorem witness_TokUnpack_agrees :
    hexDec [0x30, 0x30, 0x33, 0x33, 0x35, 0x32] = .ok [0, 0x33, 0x52] ∧
    sumU8 (cryptFresh (tokenKey 0) [0x33, 0x35, 0x29, 0x3d, 0x23, 0x27, 0x31, 0x19, 0x19, 0x02, 0x07, 0x71, 0x6f, 0x5c, 0x4c]) =
      0 := by decide +kernel

theorem witness_TokenRoundTrip : 9 ≤ (List.replicate 9 (0x31 : Byte)).length ∧
    (List.replicate 8 (0x31 : Byte)).length < 9 := by
  decide

/-- The token of V45a: its length, its characters, and damage of each kind. -/
theorem witness_DamagedTokensAreCaught :
    9 ≤ ([0x31, 0x30, 0x2e, 0x30, 0x2e, 0x30, 0x2e, 0x31, 0x31, 0x3a, 0x35, 0x39, 0x39, 0x39, 0x39] : Bytes).length ∧
    (tokPack [0x31, 0x30, 0x2e, 0x30, 0x2e, 0x30, 0x2e, 0x31, 0x31, 0x3a, 0x35, 0x39, 0x39, 0x39, 0x39])[0]? = some 0x40 ∧
    (tokPack [0x31, 0x30, 0x2e, 0x30, 0x2e, 0x30, 0x2e, 0x31, 0x31, 0x3a, 0x35, 0x39, 0x39, 0x39, 0x39])[3]? = some 0x33 ∧
    (0x23 : Byte) ≠ 0x40 ∧ ¬ IsHexChar 0x67 ∧ IsHexChar 0x34 ∧ hexValue 0x34 ≠ hexValue 0x33 := by decide +kernel

theorem witness_StraightAfterReset :
    ([] : Bytes).length ≤ 4294967290 ∧ (1 : U32).toNat = 1 + ([] : Bytes).length ∧
    Config.ibufFits (5 + ([] : Bytes).length) = true ∧
    (after (.rxLoad (leU32 1 ++ [0] ++ [])) State.reset).isSome = true := by decide

theorem witness_EveryNameDenotesOneCode : (holding [1, 0, 0, 0, 0x1f]).Receivable 1 ∧ Variant.close ≠ .reject ∧
    mnemonic (.speed 5 []) = "Speed" ∧ selector (encode (.speed 5 [])) = (.frame, some 1) ∧
    selector (encode (.hexEnc [])) = (.hostop, some 1) := by decide

end Sys2Proof.Tests
end

section
/-! The dispatch of host requests (R90, R91): which `OPSEL` values decode, and what a step does with one that does not. -/

namespace Sys2Proof.Machine

/-! ### The decoder -/

/-- The `OPSEL` values of R90. -/
def hostOpsels : List Nat :=
  [0x01, 0x02, 0x03, 0x04, 0x05, 0x06, 0x07, 0x10, 0x11, 0x12, 0x20, 0x21, 0x22, 0x30, 0x31, 0x32, 0x33, 0x38, 0x39,
    0x3C, 0x3D, 0x3E, 0x40, 0x41]

/-- Outside R90 the decoder rejects by name: every arm but the last has its `OPSEL` in the list. -/
theorem decodeOp_of_not_mem_hostOpsels {r : Request} (h : r.opsel.toNat ∉ hostOpsels) :
    decodeOp r = .error (.badOperation r.opsel) := by
  unfold decodeOp
  split
  case h_25 => rfl
  all_goals
    next hop => exact absurd (by rw [hop]; decide) h

/-! ### The step -/

/-- A pending request is taken off the queue and run (R62). -/
theorem step_of_host_op {s : State} {r : Request} {rest : List HostEvent} (h : s.host = .op r :: rest) :
    step s = stepOp r { s with host := rest } := by
  rw [step, h]

/-- A request that does not decode writes ERR 11 alone (R91, R281). -/
theorem stepOp_of_decodeOp_error {r : Request} {e : DecodeError} (h : decodeOp r = .error e) (s : State) :
    stepOp r s = .next (s.failsWith 11) := by
  simp only [stepOp, h, State.raise_false, ErrKind.code]

/-- Settles O6: an `OPSEL` outside R90 does not decode, and a request that does not decode writes ERR 11 alone. -/
theorem unknownOpselIsRefused : Obligations.UnknownOpselIsRefused := by
  unfold Obligations.UnknownOpselIsRefused
  intro s r rest hhost hop
  have hdec : decodeOp r = .error (.badOperation r.opsel) := decodeOp_of_not_mem_hostOpsels hop
  rw [step_of_host_op hhost, stepOp_of_decodeOp_error hdec]

end Sys2Proof.Machine
end

section
/-! The byte and value primitives (R100 to R106): hex text, the cut at a zero byte, little-endian integers and
dotted quads. -/

namespace Sys2Proof.Machine

/-! ### A primitive operation is its codec -/

/-- A codec that answers a value: the operation delivers it (R270). -/
theorem pureOp_map_ok {α : Type} {x : Except ErrKind α} {a : α} (h : x = .ok a) (f : α → Result)
    (s : State) :
    pureOp s (x.map f) = .next (s.succeeds (f a)) := by
  rw [h]; rfl

/-- A codec that answers an error: the operation writes its code to ERR alone (R280). -/
theorem pureOp_map_error {α : Type} {x : Except ErrKind α} {k : ErrKind} (h : x = .error k) (f : α → Result)
    (s : State) :
    pureOp s (x.map f) = .next (s.failsWith k.code) := by
  rw [h]; rfl

theorem exec_hexEnc (b : Bytes) (s : State) : exec (.hexEnc b) s = .next (s.succeeds (.bytes (hexEnc b))) := rfl
theorem exec_hexDec (t : Bytes) (s : State) : exec (.hexDec t) s = pureOp s ((hexDec t).map .bytes) := rfl
theorem exec_truncNul (b : Bytes) (s : State) : exec (.truncNul b) s = .next (s.succeeds (.bytes (truncNul b))) := rfl
theorem exec_u32Le (n : U32) (s : State) : exec (.u32Le n) s = .next (s.succeeds (.bytes (leU32 n))) := rfl
theorem exec_leUint (b : Bytes) (s : State) : exec (.leUint b) s = pureOp s ((leUint b).map .nat) := rfl
theorem exec_addr2b (t : Bytes) (s : State) : exec (.addr2b t) s = pureOp s ((addr2B t).map .bytes) := rfl
theorem exec_b2addr (o : Bytes) (s : State) : exec (.b2addr o) s = pureOp s ((b2Addr o).map .bytes) := rfl

/-! ### Hex text (R100, R101) -/

theorem hexAlphabet_getElem? {n : Nat} (h : n < 16) : hexAlphabet[n]? = some (hexDigit n) := by
  interval_cases n <;> rfl

/-- The two characters of byte `i` stand at `2i` and `2i + 1`, high nibble first (R100). -/
theorem hexEnc_getElem? {b : Bytes} {i : Nat} {v : Byte} (h : b[i]? = some v) :
    (hexEnc b)[2 * i]? = some (hexDigit (v.toNat / 16)) ∧ (hexEnc b)[2 * i + 1]? = some (hexDigit (v.toNat % 16)) := by
  induction b generalizing i with
  | nil => simp at h
  | cons a rest ih =>
    cases i with
    | zero =>
      obtain rfl : a = v := by simpa using h
      exact ⟨rfl, rfl⟩
    | succ j =>
      rw [List.getElem?_cons_succ] at h
      rw [Nat.mul_succ]
      exact ih h

/-- Settles O17: the two nibbles of a byte are below 16, and their digits stand where R100 puts them. -/
theorem hexEncGivesTwoDigitsAByte : Obligations.HexEncGivesTwoDigitsAByte := by
  unfold Obligations.HexEncGivesTwoDigitsAByte
  refine ⟨fun _ => rfl, fun b s => ⟨hexEnc b, exec_hexEnc b s, hexEnc_length b, fun i v hv => ?_⟩⟩
  have hhigh : v.toNat / 16 < 16 := Nat.div_lt_of_lt_mul v.isLt
  have hlow : v.toNat % 16 < 16 := Nat.mod_lt _ (by decide)
  rw [hexAlphabet_getElem? hhigh, hexAlphabet_getElem? hlow]
  exact hexEnc_getElem? hv

/-- The value of a hex digit of either case is a nibble, and its digit is the lower-case character (R101). -/
theorem hexDigit_of_hexValue {c : Byte} {n : Nat} (h : hexValue c = some n) :
    n < 16 ∧ hexDigit n = lowerHexChar c := by
  have hall : ∀ c : Byte, ∀ n ∈ hexValue c, n < 16 ∧ hexDigit n = lowerHexChar c := by decide
  exact hall c n h

theorem exists_hexValue {c : Byte} (h : IsHexChar c) : ∃ n, hexValue c = some n :=
  Option.isSome_iff_exists.1 ((hexValue_isSome c).2 h)

/-- A byte of two nibbles is written as their two digits (R100). -/
theorem hexEnc_cons_of_nibbles {h l : Nat} (hh : h < 16) (hl : l < 16) (b : Bytes) :
    hexEnc (BitVec.ofNat 8 (16 * h + l) :: b) = hexDigit h :: hexDigit l :: hexEnc b := by
  have hv : (BitVec.ofNat 8 (16 * h + l)).toNat = 16 * h + l := by
    rw [BitVec.toNat_ofNat, Nat.mod_eq_of_lt (by omega)]
  rw [hexEnc, hv, show (16 * h + l) / 16 = h by omega, show (16 * h + l) % 16 = l by omega]

/-- On hex digits in pairs the reading is that of `HexEnc`, in lower case (R101). -/
theorem hexPairs_of_isHexChar {t : Bytes} (heven : t.length % 2 = 0) (hhex : ∀ c ∈ t, IsHexChar c) :
    ∃ b, hexPairs t = .ok b ∧ hexEnc b = t.map lowerHexChar := by
  induction t using hexPairs.induct with
  | case1 => exact ⟨[], rfl, rfl⟩
  | case2 c => cases heven
  | case3 hi lo rest h l hl hh ih =>
    have hrest : rest.length % 2 = 0 := by rw [List.length_cons, List.length_cons] at heven; omega
    obtain ⟨b, hb, hlower⟩ := ih hrest fun c hc => hhex c (by simp [hc])
    obtain ⟨hh16, hhi⟩ := hexDigit_of_hexValue hh
    obtain ⟨hl16, hlo⟩ := hexDigit_of_hexValue hl
    refine ⟨BitVec.ofNat 8 (16 * h + l) :: b, by simp only [hexPairs, hh, hl, hb, except_ok_bind]; rfl, ?_⟩
    rw [hexEnc_cons_of_nibbles hh16 hl16, hhi, hlo, hlower, List.map_cons, List.map_cons]
  | case4 hi lo rest hn =>
    obtain ⟨h, hh⟩ := exists_hexValue (hhex hi (by simp))
    obtain ⟨l, hl⟩ := exists_hexValue (hhex lo (by simp))
    exact (hn h l hh hl).elim

/-- A byte that is no hex digit stops the reading, wherever it stands (R101). -/
theorem hexPairs_of_not_isHexChar {t : Bytes} (h : ∃ c ∈ t, ¬ IsHexChar c) : hexPairs t = .error .encodingError := by
  induction t using hexPairs.induct with
  | case1 => simp at h
  | case2 c => rfl
  | case3 hi lo rest x y hy hx ih =>
    have hhi : IsHexChar hi := (hexValue_isSome hi).1 (by rw [hx]; rfl)
    have hlo : IsHexChar lo := (hexValue_isSome lo).1 (by rw [hy]; rfl)
    have hrest : ∃ c ∈ rest, ¬ IsHexChar c := by
      obtain ⟨c, hc, hbad⟩ := h
      rcases List.mem_cons.1 hc with rfl | hc
      · exact absurd hhi hbad
      rcases List.mem_cons.1 hc with rfl | hc
      · exact absurd hlo hbad
      exact ⟨c, hc, hbad⟩
    simp only [hexPairs, hx, hy, ih hrest, except_error_bind]
  | case4 hi lo rest hn => simp [hexPairs]

theorem hexDec_of_even {t : Bytes} (h : t.length % 2 = 0) : hexDec t = hexPairs t := by
  rw [hexDec, if_neg (by omega)]

theorem hexDec_error {t : Bytes} (h : t.length % 2 = 1 ∨ ∃ c ∈ t, ¬ IsHexChar c) : hexDec t = .error .encodingError := by
  rcases Nat.mod_two_eq_zero_or_one t.length with heven | hodd
  · rw [hexDec_of_even heven]
    exact hexPairs_of_not_isHexChar (h.resolve_left (by omega))
  · rw [hexDec, if_pos hodd]

/-- Settles O18: the pairs read back as `HexEnc` writes them, or the first bad one stops the reading. -/
theorem hexDecInvertsOrEncodingError : Obligations.HexDecInvertsOrEncodingError := by
  unfold Obligations.HexDecInvertsOrEncodingError
  refine ⟨fun _ => rfl, fun t s => ⟨fun ⟨heven, hhex⟩ => ?_, fun hbad => ?_⟩⟩
  · obtain ⟨b, hb, hlower⟩ := hexPairs_of_isHexChar heven hhex
    rw [← hexDec_of_even heven] at hb
    exact ⟨b, (exec_hexDec t s).trans (pureOp_map_ok hb .bytes s), hlower⟩
  · exact (exec_hexDec t s).trans (pureOp_map_error (hexDec_error hbad) .bytes s)

/-! ### The cut at the first zero byte (R102) -/

/-- Settles O19: the model's cut is the cut at the first zero byte. -/
theorem truncNulStopsAtTheFirstZero : Obligations.TruncNulStopsAtTheFirstZero := by
  unfold Obligations.TruncNulStopsAtTheFirstZero
  exact ⟨fun _ => rfl, fun b s => ⟨truncNul b, exec_truncNul b s, truncNul_isCutAtZero b⟩⟩

/-! ### Little-endian integers (R103, R104) -/

/-- Byte `i` of the four is bits `8i` to `8i + 7` (R103). -/
theorem leU32_eq_slices (n : U32) :
    leU32 n = [n.extractLsb' 0 8, n.extractLsb' 8 8, n.extractLsb' 16 8, n.extractLsb' 24 8] := by
  simp only [leU32, leBytes, Nat.div_div_eq_div_mul, BitVec.extractLsb', Nat.shiftRight_eq_div_pow]
  norm_num

/-- `le(b)` is the weighted sum of the bytes (R104). -/
theorem leNat_eq_sum (b : Bytes) : leNat b = ∑ i : Fin b.length, (b.get i).toNat * 256 ^ i.val := by
  induction b with
  | nil => rfl
  | cons a rest ih =>
    have htail : ∀ i : Fin rest.length, (rest.get i).toNat * 256 ^ (i.val + 1) =
        256 * ((rest.get i).toNat * 256 ^ i.val) := fun i => by ring
    calc leNat (a :: rest)
        = a.toNat * 256 ^ 0 + ∑ i : Fin rest.length, (rest.get i).toNat * 256 ^ (i.val + 1) := by
          simp only [leNat, ih, htail, ← Finset.mul_sum, pow_zero, Nat.mul_one]
      _ = ∑ i : Fin (a :: rest).length, ((a :: rest).get i).toNat * 256 ^ i.val :=
          (Fin.sum_univ_succ fun i : Fin (rest.length + 1) => ((a :: rest).get i).toNat * 256 ^ i.val).symm

/-- Settles O20: the four bytes are the slices of R103, and the fold of R104 is its sum. -/
theorem littleEndianIntegers : Obligations.LittleEndianIntegers := by
  unfold Obligations.LittleEndianIntegers
  refine ⟨fun _ => rfl, fun _ => rfl, fun n s => ?_, fun b s => ⟨fun hne => ?_, fun hempty => ?_⟩⟩
  · rw [exec_u32Le, leU32_eq_slices]
  · rw [← leNat_eq_sum]
    exact (exec_leUint b s).trans (pureOp_map_ok (if_neg hne) .nat s)
  · exact (exec_leUint b s).trans (pureOp_map_error (if_pos hempty) .nat s)

/-! ### Dotted quads (R105, R106) -/

/-- The model's split at the dots is the library's. -/
theorem splitDots_eq_splitOn (t : Bytes) : splitDots t = t.splitOn 0x2E := by
  induction t with
  | nil => rfl
  | cons c rest ih =>
    rw [List.splitOn_cons_eq_if_modifyHead, ← ih, splitDots]
    by_cases hc : c = 0x2E
    · simp [hc]
    · simp only [hc, beq_iff_eq, if_false]
      cases hs : splitDots rest with
      | nil => exact absurd hs (ih ▸ List.splitOn_ne_nil _ rest)
      | cons p ps => rfl

theorem joinDots_eq_intercalate (p0 p1 p2 p3 : Bytes) : joinDots p0 p1 p2 p3 = [0x2E].intercalate [p0, p1, p2, p3] := by
  simp [joinDots, List.intercalate]

theorem IsOctetText.not_mem_dot {p : Bytes} (h : IsOctetText p) : 0x2E ∉ p := by
  obtain ⟨-, -, hdigits, -⟩ := h
  intro hdot
  exact absurd (hdigits _ hdot).1 (by decide)

/-- Four parts without a dot come apart again where they were joined. -/
theorem splitDots_joinDots {p0 p1 p2 p3 : Bytes} (h : ∀ p ∈ [p0, p1, p2, p3], 0x2E ∉ p) :
    splitDots (joinDots p0 p1 p2 p3) = [p0, p1, p2, p3] := by
  rw [splitDots_eq_splitOn, joinDots_eq_intercalate, List.splitOn_intercalate _ h (by simp)]

theorem eq_joinDots_of_splitDots {t p0 p1 p2 p3 : Bytes} (h : splitDots t = [p0, p1, p2, p3]) :
    t = joinDots p0 p1 p2 p3 := by
  rw [joinDots_eq_intercalate, ← h, splitDots_eq_splitOn, List.intercalate_splitOn]

theorem all_isDigit_iff {p : Bytes} : p.all isDigit = true ↔ ∀ c ∈ p, 0x30 ≤ c.toNat ∧ c.toNat ≤ 0x39 := by
  simp only [List.all_eq_true, isDigit, decide_eq_true_eq]

theorem octetOf_ok {p : Bytes} (h : IsOctetText p) : octetOf p = .ok (BitVec.ofNat 8 (decimalValue p)) := by
  obtain ⟨hmin, hmax, hdigits, hvalue⟩ := h
  rw [octetOf, if_neg (by omega), all_isDigit_iff.2 hdigits, if_neg (by decide), if_neg (by omega)]

theorem octetOf_error {p : Bytes} (h : ¬ IsOctetText p) : octetOf p = .error .addressFormatError := by
  unfold octetOf
  split_ifs with hlen hdigits hvalue
  · rfl
  · rfl
  · rfl
  · refine absurd ⟨by omega, by omega, all_isDigit_iff.1 ?_, by omega⟩ h
    simpa using hdigits

/-- ADDR2B on four accepted parts (R105). -/
theorem addr2B_joinDots {p0 p1 p2 p3 : Bytes} (h0 : IsOctetText p0) (h1 : IsOctetText p1) (h2 : IsOctetText p2)
    (h3 : IsOctetText p3) : addr2B (joinDots p0 p1 p2 p3) =
      .ok [BitVec.ofNat 8 (decimalValue p0), BitVec.ofNat 8 (decimalValue p1), BitVec.ofNat 8 (decimalValue p2),
        BitVec.ofNat 8 (decimalValue p3)] := by
  have hsplit : splitDots (joinDots p0 p1 p2 p3) = [p0, p1, p2, p3] :=
    splitDots_joinDots (by
      simp only [List.forall_mem_cons]
      exact ⟨h0.not_mem_dot, h1.not_mem_dot, h2.not_mem_dot, h3.not_mem_dot, List.forall_mem_nil _⟩)
  simp only [addr2B, hsplit, octetOf_ok h0, octetOf_ok h1, octetOf_ok h2, octetOf_ok h3, except_ok_bind]
  rfl

/-- ADDR2B on every other text: the split gives another number of parts, or one of the four is not accepted (R105). -/
theorem addr2B_error {t : Bytes} (h : ¬ IsDottedQuad t) : addr2B t = .error .addressFormatError := by
  unfold addr2B
  split
  next p0 p1 p2 p3 hsplit =>
    by_cases h0 : IsOctetText p0
    case neg => rw [octetOf_error h0]; rfl
    by_cases h1 : IsOctetText p1
    case neg => rw [octetOf_ok h0, octetOf_error h1]; rfl
    by_cases h2 : IsOctetText p2
    case neg => rw [octetOf_ok h0, octetOf_ok h1, octetOf_error h2]; rfl
    by_cases h3 : IsOctetText p3
    case neg => rw [octetOf_ok h0, octetOf_ok h1, octetOf_ok h2, octetOf_error h3]; rfl
    exact absurd ⟨p0, p1, p2, p3, eq_joinDots_of_splitDots hsplit, h0, h1, h2, h3⟩ h
  next => rfl

/-- Settles O21: four accepted parts come apart at the dots; a text that is no such quad is AddressFormatError. -/
theorem addr2bParsesDottedQuads : Obligations.Addr2bParsesDottedQuads := by
  unfold Obligations.Addr2bParsesDottedQuads
  refine ⟨fun _ => rfl, fun s => ⟨fun p0 p1 p2 p3 h0 h1 h2 h3 => ?_, fun t ht => ?_⟩⟩
  · exact (exec_addr2b _ s).trans (pureOp_map_ok (addr2B_joinDots h0 h1 h2 h3) .bytes s)
  · exact (exec_addr2b t s).trans (pureOp_map_error (addr2B_error ht) .bytes s)

theorem decDigit_toNat {n : Nat} (h : n < 10) : (decDigit n).toNat = 0x30 + n := by
  rw [decDigit, BitVec.toNat_ofNat, Nat.mod_eq_of_lt (by omega)]

/-- The value of a text of digits is that of the digits, read from the left. -/
theorem decimalValue_map_decDigit {ns : List Nat} (h : ∀ n ∈ ns, n < 10) :
    decimalValue (ns.map decDigit) = ns.foldl (fun v n => 10 * v + n) 0 := by
  rw [decimalValue, List.foldl_map]
  refine List.foldl_ext _ _ _ fun v n hn => ?_
  rw [decDigit_toNat (h n hn), Nat.add_sub_cancel_left]

/-- One to three digits of a value of at most 255, the first of several not 0, are its decimal text. -/
theorem isDecimalOf_map_decDigit {ns : List Nat} {o : Byte} (hmin : 1 ≤ ns.length) (hmax : ns.length ≤ 3)
    (hdigits : ∀ n ∈ ns, n < 10) (hvalue : ns.foldl (fun v n => 10 * v + n) 0 = o.toNat)
    (hhead : ns.head? = some 0 → ns = [0]) : IsDecimalOf (ns.map decDigit) o := by
  have hval : decimalValue (ns.map decDigit) = o.toNat := (decimalValue_map_decDigit hdigits).trans hvalue
  have ho : o.toNat < 256 := o.isLt
  refine ⟨⟨by rwa [List.length_map], by rwa [List.length_map], fun c hc => ?_, by omega⟩, hval, fun h => ?_⟩
  · obtain ⟨n, hn, rfl⟩ := List.mem_map.1 hc
    have hdigit := hdigits n hn
    rw [decDigit_toNat hdigit]
    omega
  · rw [List.head?_map, Option.map_eq_some_iff] at h
    obtain ⟨n, hn, hchar⟩ := h
    have htoNat := decDigit_toNat (hdigits n (List.mem_of_mem_head? hn))
    rw [hchar] at htoNat
    obtain rfl : n = 0 := by simpa using htoNat
    rw [hhead hn]
    rfl

/-- `dec(o)` is the decimal text of `o`: one, two or three digits, the first of several not 0 (R106). -/
theorem decOctet_isDecimalOf (o : Byte) : IsDecimalOf (decOctet o) o := by
  have ho : o.toNat < 256 := o.isLt
  unfold decOctet
  dsimp only
  split_ifs with hone htwo
  · apply isDecimalOf_map_decDigit (ns := [o.toNat]) <;> simp [hone]
  · apply isDecimalOf_map_decDigit (ns := [o.toNat / 10, o.toNat % 10]) <;> simp <;> omega
  · apply isDecimalOf_map_decDigit (ns := [o.toNat / 100, o.toNat / 10 % 10, o.toNat % 10]) <;> simp <;> omega

theorem b2Addr_four (a b c d : Byte) :
    b2Addr [a, b, c, d] = .ok (joinDots (decOctet a) (decOctet b) (decOctet c) (decOctet d)) := rfl

theorem b2Addr_error {o : Bytes} (h : o.length ≠ 4) : b2Addr o = .error .fieldRangeError := by
  unfold b2Addr
  split
  · exact absurd rfl h
  · rfl

/-- The byte of a text's value is the byte it is the decimal text of. -/
theorem IsDecimalOf.ofNat_decimalValue {p : Bytes} {o : Byte} (h : IsDecimalOf p o) :
    BitVec.ofNat 8 (decimalValue p) = o := by
  obtain ⟨-, hvalue, -⟩ := h
  rw [hvalue, BitVec.ofNat_toNat, BitVec.setWidth_eq]

/-- Four parts of one to three characters and three dots: 7 to 15 characters (R106). -/
theorem joinDots_length_bounds {p0 p1 p2 p3 : Bytes} (h0 : IsOctetText p0) (h1 : IsOctetText p1)
    (h2 : IsOctetText p2) (h3 : IsOctetText p3) :
    7 ≤ (joinDots p0 p1 p2 p3).length ∧ (joinDots p0 p1 p2 p3).length ≤ 15 := by
  obtain ⟨hmin0, hmax0, -⟩ := h0
  obtain ⟨hmin1, hmax1, -⟩ := h1
  obtain ⟨hmin2, hmax2, -⟩ := h2
  obtain ⟨hmin3, hmax3, -⟩ := h3
  simp only [joinDots, List.length_append, List.length_singleton]
  omega

/-- ADDR2B reads back four decimal texts (R106). -/
theorem addr2B_of_isDecimalOf {p0 p1 p2 p3 : Bytes} {a b c d : Byte} (h0 : IsDecimalOf p0 a) (h1 : IsDecimalOf p1 b)
    (h2 : IsDecimalOf p2 c) (h3 : IsDecimalOf p3 d) : addr2B (joinDots p0 p1 p2 p3) = .ok [a, b, c, d] := by
  rw [addr2B_joinDots h0.1 h1.1 h2.1 h3.1, h0.ofNat_decimalValue, h1.ofNat_decimalValue, h2.ofNat_decimalValue,
    h3.ofNat_decimalValue]

/-- Settles O22: `dec` writes each octet's decimal text, and ADDR2B reads four of them back. -/
theorem b2addrJoinsAndAddr2bReadsBack : Obligations.B2addrJoinsAndAddr2bReadsBack := by
  unfold Obligations.B2addrJoinsAndAddr2bReadsBack
  refine ⟨fun _ => rfl, fun a b c d s => ?_, fun o s ho => ?_⟩
  · have ha := decOctet_isDecimalOf a
    have hb := decOctet_isDecimalOf b
    have hc := decOctet_isDecimalOf c
    have hd := decOctet_isDecimalOf d
    obtain ⟨hmin, hmax⟩ := joinDots_length_bounds ha.1 hb.1 hc.1 hd.1
    exact ⟨decOctet a, decOctet b, decOctet c, decOctet d, ha, hb, hc, hd,
      (exec_b2addr _ s).trans (pureOp_map_ok (b2Addr_four a b c d) .bytes s), hmin, hmax,
      (exec_addr2b _ s).trans (pureOp_map_ok (addr2B_of_isDecimalOf ha hb hc hd) .bytes s)⟩
  · exact (exec_b2addr o s).trans (pureOp_map_error (b2Addr_error ho) .bytes s)

end Sys2Proof.Machine
end

section
/-! The additive checksums (R120 to R122): what each sum is as a number, the loop that reduces at every step as one
reduction of the exact sum, and the operations. -/

namespace Sys2Proof.Machine

/-! ### A sum operation is its sum -/

theorem exec_sum8 (b : Bytes) (s : State) : exec (.sum8 b) s = .next (s.succeeds (.u8 (sumU8 b))) := rfl
theorem exec_sum16 (b : Bytes) (s : State) : exec (.sum16 b) s = .next (s.succeeds (.u16 (sumU16 b))) := rfl
theorem exec_sum32 (b : Bytes) (s : State) : exec (.sum32 b) s = .next (s.succeeds (.u32 (sumU32 b))) := rfl

/-! ### The sums as numbers -/

theorem sumU8_toNat (b : Bytes) : (sumU8 b).toNat = byteSum b % 256 := BitVec.toNat_ofNat _ _
theorem sumU16_toNat (b : Bytes) : (sumU16 b).toNat = byteSum b % 65536 := BitVec.toNat_ofNat _ _
theorem sumU32_toNat (b : Bytes) : (sumU32 b).toNat = byteSum b % 4294967296 := BitVec.toNat_ofNat _ _

/-! ### The loops (R120 to R122) -/

/-- Reducing at every step is, modulo `m`, the exact sum added to the value the loop starts from. -/
theorem foldl_add_mod (m : Nat) (b : Bytes) (start : Nat) :
    b.foldl (fun a v => (a + v.toNat) % m) start % m = (start + byteSum b) % m := by
  induction b generalizing start with
  | nil => rfl
  | cons v rest ih =>
    calc rest.foldl (fun a v => (a + v.toNat) % m) ((start + v.toNat) % m) % m
      _ = ((start + v.toNat) % m + byteSum rest) % m := ih _
      _ = (start + (v.toNat + byteSum rest)) % m := by rw [Nat.mod_add_mod, Nat.add_assoc]

/-- As a word of `n` bits the loop modulo `2 ^ n` is the exact sum reduced once. -/
theorem ofNat_foldl_add_mod (n : Nat) (b : Bytes) :
    BitVec.ofNat n (b.foldl (fun a v => (a + v.toNat) % 2 ^ n) 0) = BitVec.ofNat n (byteSum b) := by
  apply BitVec.eq_of_toNat_eq
  rw [BitVec.toNat_ofNat, BitVec.toNat_ofNat, foldl_add_mod, Nat.zero_add]

theorem sumU8_eq_foldl (b : Bytes) : sumU8 b = BitVec.ofNat 8 (b.foldl (fun a v => (a + v.toNat) % 256) 0) :=
  (ofNat_foldl_add_mod 8 b).symm

theorem sumU16_eq_foldl (b : Bytes) : sumU16 b = BitVec.ofNat 16 (b.foldl (fun a v => (a + v.toNat) % 65536) 0) :=
  (ofNat_foldl_add_mod 16 b).symm

theorem sumU32_eq_foldl (b : Bytes) : sumU32 b = BitVec.ofNat 32 (b.foldl (fun a v => (a + v.toNat) % 4294967296) 0) :=
  (ofNat_foldl_add_mod 32 b).symm

/-- Settles O23: each loop reduces the exact sum, and a narrower sum is a wider one reduced again, since its modulus
divides the wider one's. -/
theorem checksumsFollowTheLoops : Obligations.ChecksumsFollowTheLoops := by
  unfold Obligations.ChecksumsFollowTheLoops
  refine ⟨fun _ => ⟨rfl, rfl, rfl⟩, fun b s => ⟨?_, ?_, ?_⟩, fun b => ?_⟩
  · rw [exec_sum8, sumU8_eq_foldl]
  · rw [exec_sum16, sumU16_eq_foldl]
  · rw [exec_sum32, sumU32_eq_foldl]
  · rw [sumU8_toNat, sumU16_toNat, sumU32_toNat]
    exact ⟨(Nat.mod_mod_of_dvd _ (by decide)).symm, (Nat.mod_mod_of_dvd _ (by decide)).symm,
      (Nat.mod_mod_of_dvd _ (by decide)).symm⟩

end Sys2Proof.Machine
end

section
/-! The cipher contexts (R131, R134, R138): what keying one context and ciphering on one make of the state. -/

namespace Sys2Proof.Machine

/-! ### Keying a context (R131, R138) -/

/-- RXV is bit 1 of STATUS (R23). -/
theorem statusPut_rxv_true (w : Byte) : statusPut w .rxv true = w ||| 0x02#8 := rfl

/-- TXV is bit 2 of STATUS (R23). -/
theorem statusPut_txv_true (w : Byte) : statusPut w .txv true = w ||| 0x04#8 := rfl

theorem exec_cNew_rx (key : Bytes) (s : State) :
    exec (.cNew .rx key) s =
      .next { s with ctxRx := some (keySchedule key), status := s.status ||| 0x02#8, err := 0, result := .none } := by
  rw [← statusPut_rxv_true]
  rfl

theorem exec_cNew_tx (key : Bytes) (s : State) :
    exec (.cNew .tx key) s =
      .next { s with ctxTx := some (keySchedule key), status := s.status ||| 0x04#8, err := 0, result := .none } := by
  rw [← statusPut_txv_true]
  rfl

/-- C_NEW_PH is C_NEW with the built-in key (R138). -/
theorem exec_cNewPh (d : Dir) (s : State) : exec (.cNewPh d) s = exec (.cNew d Config.phKey) s := rfl

/-- Settles O27: C_NEW keys the context of its direction, and C_NEW_PH is C_NEW with PH_KEY. -/
theorem keyingSetsOneContext : Obligations.KeyingSetsOneContext := by
  unfold Obligations.KeyingSetsOneContext
  refine ⟨fun _ => ⟨rfl, rfl⟩, fun key s => ⟨exec_cNew_rx key s, exec_cNew_tx key s, ?_, ?_⟩⟩
  · rw [exec_cNewPh, exec_cNew_rx]
  · rw [exec_cNewPh, exec_cNew_tx]

/-! ### Ciphering on a context (R134) -/

/-- Writing back what a context holds leaves the state as it was. -/
theorem State.setCtx_ctx (s : State) (d : Dir) : s.setCtx d (s.ctx d) = s := by
  cases d <;> rfl

/-- On a keyed context C_CRYPT delivers the ciphered bytes and advances that context (R134). -/
theorem exec_cCrypt_of_keyed {s : State} {d : Dir} {c : CipherState} (h : s.ctx d = some c) (data : Bytes) :
    exec (.cCrypt d data) s =
      .next ((s.setCtx d (some (crypt c data).2)).succeeds (.bytes (crypt c data).1)) := by
  show execCCrypt d data s = _
  rw [execCCrypt, h]
  rfl

/-- On a context that is not keyed C_CRYPT is refused (R134, R281). -/
theorem exec_cCrypt_of_unkeyed {s : State} {d : Dir} (h : s.ctx d = none) (data : Bytes) :
    exec (.cCrypt d data) s = .next (s.failsWith 9) := by
  show execCCrypt d data s = _
  rw [execCCrypt, h]
  rfl

/-- Empty data is ciphered to itself, and the context written back is the one there was (R134). -/
theorem exec_cCrypt_nil {s : State} {d : Dir} {c : CipherState} (h : s.ctx d = some c) :
    exec (.cCrypt d []) s = .next (s.succeeds (.bytes [])) := by
  rw [exec_cCrypt_of_keyed h, crypt, ← h, State.setCtx_ctx]

/-- Settles O28: the two cases of the context, and `crypt` keeps the length and does nothing on empty data. -/
theorem cCryptUsesOneContext : Obligations.CCryptUsesOneContext := by
  unfold Obligations.CCryptUsesOneContext
  refine ⟨fun _ => rfl, fun d data s => ⟨fun c hc => ?_, fun hn => exec_cCrypt_of_unkeyed hn data, fun c hc =>
    exec_cCrypt_nil hc⟩⟩
  exact ⟨(crypt c data).1, crypt_length c data, exec_cCrypt_of_keyed hc data, rfl⟩

end Sys2Proof.Machine
end

section
/-! The command envelope (R150 to R157): loading the receive buffer, the three receive decodes with their checks in
order, and the two encodes. -/

namespace Sys2Proof.Machine

/-! ### The check every receive operation makes first (R283) -/

/-- While RXDEAD is set the operation is refused, whatever it would do next (R281, R283). -/
theorem settle_of_rxDead {s : State} (hdead : s.flag .rxDead = true) (receive : Bool)
    (rest : Unit → Except Stop State) :
    settle receive s (requireRxLive s >>= rest) = .next (s.failsWith 10) := by
  rw [requireRxLive_dead hdead, except_error_bind, settle_err, State.raise_refusal s receive .rxDead rfl]
  rfl

theorem settle_of_rxLive {s : State} (hlive : s.flag .rxDead = false) (receive : Bool)
    (rest : Unit → Except Stop State) : settle receive s (requireRxLive s >>= rest) = settle receive s (rest ()) := by
  rw [requireRxLive_ok hlive, except_ok_bind]

/-- A receive decode that finds no frame where it looks first ends there, with latch (R151, R280). -/
theorem settle_of_framingError {s : State} (hlive : s.flag .rxDead = false) {α : Type} {parse : Except Stop α}
    (hparse : parse = .error (.err .framingError)) (rest : α → Except Stop State) :
    settle true s (requireRxLive s >>= fun _ => parse >>= rest) = .next (s.diesWith 1) := by
  rw [settle_of_rxLive hlive, hparse, except_error_bind, settle_err, State.raise_error s .framingError rfl]
  rfl

/-! ### RX_LOAD (R150) -/

theorem exec_rxLoad_of_rxDead {s : State} (hdead : s.flag .rxDead = true) (b : Bytes) :
    exec (.rxLoad b) s = .next (s.failsWith 10) :=
  settle_of_rxDead hdead false _

/-- On a live receive path the operand replaces IBUF whole, or is too long and changes nothing (R150). -/
theorem exec_rxLoad_of_rxLive {s : State} (hlive : s.flag .rxDead = false) (b : Bytes) :
    exec (.rxLoad b) s = .next
      (if Config.ibufFits b.length = true then
        { s with ibuf := Memory.load b, ilen := b.length, cur := 0, status := s.status &&& 0xF7#8, err := 0,
                 result := .none }
      else s.failsWith 2) := by
  show execRxLoad b s = _
  rw [execRxLoad, settle_of_rxLive hlive]
  by_cases hfits : Config.ibufFits b.length = true
  · rw [if_pos hfits, if_pos hfits]; rfl
  · rw [if_neg hfits, if_neg hfits]; rfl

/-- Settles O31: the new buffer is `Memory.load` of the operand, which is canonical and reads as the operand. -/
theorem rxLoadReplacesTheBuffer : Obligations.RxLoadReplacesTheBuffer := by
  unfold Obligations.RxLoadReplacesTheBuffer
  refine ⟨fun _ => rfl, fun b s => ⟨fun hdead => exec_rxLoad_of_rxDead hdead b, fun hlive => ?_⟩⟩
  exact ⟨Memory.load b, Memory.wf_load b, Memory.read_load b, exec_rxLoad_of_rxLive hlive b⟩

/-! ### HDR_PEEK (R152) -/

theorem exec_hdrPeek_of_rxDead {s : State} (hdead : s.flag .rxDead = true) :
    exec .hdrPeek s = .next (s.failsWith 10) :=
  settle_of_rxDead hdead true _

/-- No header at the cursor is FramingError with latch (R151, R280). -/
theorem exec_hdrPeek_of_noHeader {s : State} (hlive : s.flag .rxDead = false)
    (hparse : parseHeader s s.cur = .error (.err .framingError)) : exec .hdrPeek s = .next (s.diesWith 1) :=
  settle_of_framingError hlive hparse _

theorem exec_hdrPeek_of_header {s : State} (hlive : s.flag .rxDead = false) {total : U32} {op : Byte}
    (hparse : parseHeader s s.cur = .ok (total, op)) :
    exec .hdrPeek s = .next { s with
      len := total, opc := op, status := s.status ||| 0x08#8, err := 0, result := .header total op } := by
  show execHdrPeek s = _
  rw [execHdrPeek, settle_of_rxLive hlive, hparse]
  rfl

/-- Settles O32: the outcomes of `parseHeader` on the bytes ahead. -/
theorem hdrPeekReadsTheHeader : Obligations.HdrPeekReadsTheHeader := by
  unfold Obligations.HdrPeekReadsTheHeader
  refine ⟨fun _ => rfl, fun s hbuf => ⟨exec_hdrPeek_of_rxDead,
    fun hlive hshort => exec_hdrPeek_of_noHeader hlive (parseHeader_short hbuf hshort), ?_⟩⟩
  intro b0 b1 b2 b3 op rest hlive hahead
  have hparse := parseHeader_ahead hbuf hahead
  constructor
  · intro hzero
    exact exec_hdrPeek_of_noHeader hlive (by rw [hparse, if_pos hzero])
  · intro hpos
    exact exec_hdrPeek_of_header hlive (by rw [hparse, if_neg hpos])

/-! ### FRM_DECODE (R153) -/

theorem exec_frmDecode_of_rxDead {s : State} (hdead : s.flag .rxDead = true) :
    exec .frmDecode s = .next (s.failsWith 10) :=
  settle_of_rxDead hdead true _

/-- No whole frame at the cursor is FramingError with latch (R153, R280). -/
theorem exec_frmDecode_of_noFrame {s : State} (hlive : s.flag .rxDead = false)
    (hparse : parseFrame s = .error (.err .framingError)) : exec .frmDecode s = .next (s.diesWith 1) :=
  settle_of_framingError hlive hparse _

theorem exec_frmDecode_of_frame {s : State} (hlive : s.flag .rxDead = false) {total : U32} {op : Byte} {p : Bytes}
    (hparse : parseFrame s = .ok (total, op, p)) :
    exec .frmDecode s = .next (s.afterFrame total op (.frame op p)) := by
  show execFrmDecode s = _
  rw [execFrmDecode, settle_of_rxLive hlive, hparse, ← State.consumeFrame_deliver]
  rfl

/-- Settles O33: the outcomes of `parseFrame` on the bytes ahead; the opcode is not looked at. -/
theorem frmDecodeSlicesTheFrame : Obligations.FrmDecodeSlicesTheFrame := by
  unfold Obligations.FrmDecodeSlicesTheFrame
  refine ⟨fun _ => rfl, fun s hbuf => ⟨exec_frmDecode_of_rxDead,
    fun hlive hshort => exec_frmDecode_of_noFrame hlive (parseFrame_short hbuf hshort), ?_⟩⟩
  intro b0 b1 b2 b3 op rest hlive hahead
  refine ⟨fun hbad => exec_frmDecode_of_noFrame hlive (parseFrame_bad hbuf hahead hbad), ?_⟩
  rintro p more rfl hlen
  exact exec_frmDecode_of_frame hlive (parseFrame_whole hbuf hahead hlen)

/-! ### CMD_DECODE (R154, R155) -/

theorem exec_cmdDecode_of_rxDead {s : State} (hdead : s.flag .rxDead = true) :
    exec .cmdDecode s = .next (s.failsWith 10) :=
  settle_of_rxDead hdead true _

/-- No whole frame at the cursor is FramingError with latch (R155, steps 2 to 4). -/
theorem exec_cmdDecode_of_noFrame {s : State} (hlive : s.flag .rxDead = false)
    (hparse : parseFrame s = .error (.err .framingError)) : exec .cmdDecode s = .next (s.diesWith 1) :=
  settle_of_framingError hlive hparse _

/-- A whole frame of an undocumented opcode is UnknownOpcode with latch (R82, R155). -/
theorem exec_cmdDecode_of_noVariant {s : State} (hlive : s.flag .rxDead = false) {total : U32} {op : Byte} {p : Bytes}
    (hparse : parseFrame s = .ok (total, op, p)) (hop : variantOf op = none) :
    exec .cmdDecode s = .next (s.diesWith 8) := by
  show execCmdDecode s = _
  rw [execCmdDecode, settle_of_rxLive hlive, hparse, except_ok_bind]
  simp only [hop]
  exact congrArg _ (State.raise_error s .unknownOpcode rfl)

/-- A frame that is parsed at the cursor of a live receive path lies wholly in IBUF. -/
theorem State.receivable_of_parseFrame {s : State} (hlive : s.flag .rxDead = false) {total : U32} {op : Byte}
    {p : Bytes} (hparse : parseFrame s = .ok (total, op, p)) : s.Receivable total := by
  obtain ⟨-, hextent, -, hlen⟩ := parseFrame_ok hparse
  exact ⟨hlive, by omega, hextent⟩

/-- On a whole frame of a documented opcode CMD_DECODE is the receipt of that variant's wire command (R27, R154). -/
theorem exec_cmdDecode_of_variant {s : State} (hlive : s.flag .rxDead = false) {total : U32} {op : Byte} {p : Bytes}
    (hparse : parseFrame s = .ok (total, op, p)) {v : Variant} (hop : variantOf op = some v) :
    exec .cmdDecode s = receiveFrame v total p s := by
  rw [receiveFrame_receivable (State.receivable_of_parseFrame hlive hparse)]
  show execCmdDecode s = _
  rw [execCmdDecode, settle_of_rxLive hlive, hparse, except_ok_bind]
  simp only [hop]

theorem decodePayload_protocolHeader_unkeyed (p : Bytes) :
    decodePayload .protocolHeader p none = .error .contextNotKeyed := rfl

/-- A payload of the wrong length is found out before anything of it is read (R170), but after an unkeyed context. -/
theorem decodePayload_of_checkLength_error {v : Variant} {p : Bytes} {rx : Option CipherState}
    (hkeyed : v = .protocolHeader → rx.isSome = true) {k : ErrKind} (hlen : checkLength v p = .error k) :
    decodePayload v p rx = .error k := by
  cases v
  case protocolHeader =>
    obtain ⟨c, rfl⟩ := Option.isSome_iff_exists.1 (hkeyed rfl)
    simp only [decodePayload, hlen, except_error_bind]
  all_goals simp only [decodePayload, hlen, except_error_bind]

/-- An error of DecodePayload, which is no refusal once a ProtocolHeader's context is keyed, kills the receive path
(R170, R280). -/
theorem receiveFrame_dies {s : State} {total : U32} (hrecv : s.Receivable total) {v : Variant} {p : Bytes} {k : ErrKind}
    (hkeyed : v = .protocolHeader → s.ctxRx.isSome = true) (hdec : decodePayload v p s.ctxRx = .error k) :
    receiveFrame v total p s = .next (s.diesWith k.code) := by
  rw [receiveFrame_error hrecv hdec, State.raise_error s k (raises_decodePayload v p s.ctxRx hkeyed k hdec)]

/-- Settles O34: the frame's extent, the opcode and the context are checked in turn, and what is left is the receipt of
the variant's wire command. -/
theorem cmdDecodeChecksInOrder : Obligations.CmdDecodeChecksInOrder := by
  unfold Obligations.CmdDecodeChecksInOrder
  refine ⟨fun _ => rfl, fun s hbuf => ⟨exec_cmdDecode_of_rxDead,
    fun hlive hshort => exec_cmdDecode_of_noFrame hlive (parseFrame_short hbuf hshort), ?_⟩⟩
  intro b0 b1 b2 b3 op rest hlive hahead
  refine ⟨fun hbad => exec_cmdDecode_of_noFrame hlive (parseFrame_bad hbuf hahead hbad), ?_⟩
  rintro p more rfl hlen
  have hparse := parseFrame_whole hbuf hahead hlen
  have hrecv := State.receivable_of_parseFrame hlive hparse
  refine ⟨exec_cmdDecode_of_noVariant hlive hparse, ?_, ?_⟩
  · rintro rfl hunkeyed
    have hdec : decodePayload .protocolHeader p s.ctxRx = .error .contextNotKeyed := by
      rw [hunkeyed, decodePayload_protocolHeader_unkeyed]
    rw [exec_cmdDecode_of_variant hlive hparse rfl, receiveFrame_error hrecv hdec,
      State.raise_refusal s true .contextNotKeyed rfl]
    rfl
  · intro v hop hkeyed
    have hopcode : opcodeOf v = op := opcodeOf_of_variantOf op v hop
    have hkeyed' : v = .protocolHeader → s.ctxRx.isSome = true := by
      rintro rfl; exact hkeyed hopcode.symm
    rw [exec_cmdDecode_of_variant hlive hparse hop]
    refine ⟨fun hwrong => ?_, fun k hdec => receiveFrame_dies hrecv hkeyed' hdec, fun cmd rx hdec => ?_⟩
    · have hcheck : checkLength v p = .error .framingError :=
        checkLength_bad v p <| hwrong.imp_right fun ⟨h12, h276⟩ =>
          ⟨Option.some.inj (hop.symm.trans (by rw [h12]; rfl)), h276⟩
      exact receiveFrame_dies hrecv hkeyed' (decodePayload_of_checkLength_error hkeyed' hcheck)
    · rw [receiveFrame_ok hrecv hdec, hopcode]

/-! ### FRM_ENCODE (R156) -/

theorem exec_frmEncode (op : Byte) (p : Bytes) (s : State) :
    exec (.frmEncode op p) s = pureOp s ((frameBytes op p).map .bytes) := rfl

theorem frameBytes_error (op : Byte) {p : Bytes} (h : 4294967295 < 1 + p.length) :
    frameBytes op p = .error .fieldRangeError := by
  rw [frameBytes, if_pos h]

/-- The first four bytes of a frame have the value of its length field, and the fifth is the opcode (R60, R70). -/
theorem frameOf_eq_cons (op : Byte) {p : Bytes} (h : 1 + p.length ≤ 4294967295) :
    ∃ b0 b1 b2 b3 : Byte, lengthOf b0 b1 b2 b3 = 1 + p.length ∧ frameOf op p = b0 :: b1 :: b2 :: b3 :: op :: p := by
  refine ⟨_, _, _, _, ?_, rfl⟩
  rw [← lengthOf_eq]
  calc leNat (leBytes 4 (BitVec.ofNat 32 (1 + p.length)).toNat)
      = (1 + p.length) % 2 ^ 32 % 256 ^ 4 := by rw [leNat_leBytes, BitVec.toNat_ofNat]
    _ = 1 + p.length := by omega

/-- Settles O35: the frame is `frameOf`, unless its length does not fit the length field. -/
theorem frmEncodePrependsTheHeader : Obligations.FrmEncodePrependsTheHeader := by
  unfold Obligations.FrmEncodePrependsTheHeader
  refine ⟨fun _ => rfl, fun op p s => ⟨fun hfits => ?_, fun hlong => ?_⟩⟩
  · obtain ⟨b0, b1, b2, b3, hlen, hframe⟩ := frameOf_eq_cons op hfits
    refine ⟨b0, b1, b2, b3, hlen, ?_⟩
    rw [exec_frmEncode, pureOp_map_ok (frameBytes_ok op p hfits), hframe]
  · rw [exec_frmEncode, pureOp_map_error (frameBytes_error op hlong)]
    rfl

/-! ### CMD_ENCODE (R157) -/

theorem encodePayload_of_illegal {v : Command} (h : legalCommand v = false) (tx : Option CipherState) :
    encodePayload v tx = .error .fieldRangeError := by
  unfold encodePayload
  rw [if_neg (by rw [h]; decide)]

theorem encodePayload_protocolHeader_unkeyed (m : U32) {j : Bytes} (h : j.length ≤ 4294967290) :
    encodePayload (.protocolHeader m j) none = .error .contextNotKeyed := by
  have hlegal : legalCommand (.protocolHeader m j) = true := decide_eq_true h
  rw [encodePayload, if_pos hlegal]

/-- An encoded payload fits a frame: enciphering keeps its length (R170). -/
theorem encodePayload_length_le {v : Command} {tx tx' : Option CipherState} {p : Bytes}
    (h : encodePayload v tx = .ok (p, tx')) : 1 + p.length ≤ 4294967295 := by
  obtain ⟨hlegal, ⟨-, -, rfl⟩ | ⟨m, j, c, rfl, -, rfl, -⟩⟩ := encodePayload_ok h
  · exact encPlain_length_le v hlegal
  · rw [crypt_length]
    exact encPlain_length_le _ hlegal

/-- An encode error or refusal changes nothing but ERR (R157). -/
theorem exec_cmdEncode_of_error {v : Command} {s : State} {k : ErrKind} (h : encodePayload v s.ctxTx = .error k) :
    exec (.cmdEncode v) s = .next (s.failsWith k.code) := by
  show execCmdEncode v s = _
  rw [execCmdEncode, h]
  rfl

/-- An encoded payload is framed, and the context it was encoded with is written (R157). -/
theorem exec_cmdEncode_of_ok {v : Command} {s : State} {p : Bytes} {tx : Option CipherState}
    (h : encodePayload v s.ctxTx = .ok (p, tx)) :
    exec (.cmdEncode v) s =
      .next ({ s with ctxTx := tx }.succeeds (.bytes (frameOf (opcodeOf (variantOfCommand v)) p))) := by
  show execCmdEncode v s = _
  simp only [execCmdEncode, h, except_ok_bind, frameBytes_ok _ p (encodePayload_length_le h)]
  rfl

/-- Settles O39: the three outcomes of EncodePayload; only a ProtocolHeader's gives back another context. -/
theorem cmdEncodeFramesThePayload : Obligations.CmdEncodeFramesThePayload := by
  unfold Obligations.CmdEncodeFramesThePayload
  refine ⟨fun _ => rfl, fun s => ⟨fun v hillegal => ?_, fun m j hlen hunkeyed => ?_, fun v p tx henc => ?_⟩⟩
  · exact exec_cmdEncode_of_error (encodePayload_of_illegal hillegal _)
  · refine exec_cmdEncode_of_error (k := .contextNotKeyed) ?_
    rw [hunkeyed, encodePayload_protocolHeader_unkeyed m hlen]
  · refine ⟨exec_cmdEncode_of_ok henc, fun hne => ?_⟩
    obtain ⟨-, ⟨-, htx, -⟩ | ⟨m, j, c, hv, -⟩⟩ := encodePayload_ok henc
    · exact htx
    · exact absurd hv (hne m j)

end Sys2Proof.Machine
end

section
/-! The wire commands (R170 to R198): the outcome of receiving and of sending a command from its payload codec, then
each variant's layout as its decoder reads it, its legal values, and CACHE_BLOCK (R191). -/

namespace Sys2Proof.Machine

/-! ### Receiving a command (R154, R170) -/

/-- The frame of a variant that is not enciphered delivers what the variant's decoder reads; no context changes. -/
theorem exec_frameInstr_of_decPlain {s : State} {total : U32} (hrecv : s.Receivable total) {v : Variant} {p : Bytes}
    {cmd : Command} (hv : v ≠ .protocolHeader) (hlen : checkLength v p = .ok ()) (hdec : decPlain v p = .ok cmd) :
    exec (frameInstr v total p) s = .next (s.afterFrame total (opcodeOf v) (.command cmd)) := by
  have hpayload : decodePayload v p s.ctxRx = .ok (cmd, s.ctxRx) := by
    rw [decodePayload_plain _ hv hlen, hdec]; rfl
  rw [exec_frameInstr, receiveFrame_ok hrecv hpayload]
  rfl

/-- An error of the variant's decoder is raised with latch (R280). -/
theorem exec_frameInstr_of_decPlain_error {s : State} {total : U32} (hrecv : s.Receivable total) {v : Variant}
    {p : Bytes} {k : ErrKind} (hv : v ≠ .protocolHeader) (hlen : checkLength v p = .ok ())
    (hdec : decPlain v p = .error k) : exec (frameInstr v total p) s = .next (s.diesWith k.code) := by
  have hpayload : decodePayload v p s.ctxRx = .error k := by
    rw [decodePayload_plain _ hv hlen, hdec]; rfl
  rw [exec_frameInstr, receiveFrame_dies hrecv (fun h => absurd h hv) hpayload]

/-- A payload below the variant's minimum, or for opcode 12 of any length but 276, is FramingError with latch once a
ProtocolHeader's context is keyed (R170). -/
theorem exec_frameInstr_of_wrongLength {s : State} {total : U32} (hrecv : s.Receivable total) {v : Variant} {p : Bytes}
    (hkeyed : v = .protocolHeader → s.ctxRx.isSome = true)
    (hlen : p.length < minPayload v ∨ v = .conditionalDiffusionRequest ∧ p.length ≠ 276) :
    exec (frameInstr v total p) s = .next (s.diesWith 1) := by
  have hpayload := decodePayload_of_checkLength_error hkeyed (checkLength_bad v p hlen)
  rw [exec_frameInstr, receiveFrame_dies hrecv hkeyed hpayload]
  rfl

/-- Fields of declared lengths that do not fit together: wherever the first of them ends, it or a later one is cut short
(R274). -/
theorem takeField_bind_error {α : Type} {n m : Nat} {e : ErrKind} {p : Bytes} {f : Bytes × Bytes → Except ErrKind α}
    (h : p.length < n + m) (hf : ∀ a rest : Bytes, rest.length < m → f (a, rest) = .error e) :
    (takeField n e p >>= f) = .error e := by
  by_cases hn : p.length < n
  · rw [takeField_short e p n hn, except_error_bind]
  · rw [takeField, if_neg hn, except_ok_bind]
    exact hf _ _ (by rw [List.length_drop]; omega)

/-! ### Sending a command (R157, R170) -/

/-- A legal value of a variant that is not enciphered is framed as its encoder lays it out; no context changes. -/
theorem exec_cmdEncode_of_legal {v : Command} (s : State) (hv : variantOfCommand v ≠ .protocolHeader)
    (hlegal : legalCommand v = true) :
    exec (.cmdEncode v) s = .next (s.succeeds (.bytes (frameOf (opcodeOf (variantOfCommand v)) (encPlain v)))) := by
  have henc : encodePayload v s.ctxTx = .ok (encPlain v, s.ctxTx) := by
    unfold encodePayload
    rw [if_pos hlegal]
    split
    · exact absurd rfl hv
    · rfl
  exact exec_cmdEncode_of_ok henc

theorem exec_cmdEncode_of_illegal {v : Command} (s : State) (hillegal : ¬ legalCommand v = true) :
    exec (.cmdEncode v) s = .next (s.failsWith 2) :=
  exec_cmdEncode_of_error (encodePayload_of_illegal (Bool.eq_false_iff.2 hillegal) _)

/-! ### ProtocolHeader (R171, R172) -/

/-- With a keyed context the whole payload is deciphered and the context advances over all of it. -/
theorem decodePayload_protocolHeader_keyed {c : CipherState} {p j : Bytes} {m : U32}
    (hplain : (crypt c p).1 = leU32 m ++ j) :
    decodePayload .protocolHeader p (some c) = .ok (.protocolHeader m j, some (crypt c p).2) := by
  have hlen : p.length = 4 + j.length := by
    rw [← crypt_length c p, hplain, List.length_append, leU32_length]
  have hcheck : checkLength .protocolHeader p = .ok () := checkLength_ok _ _ (by rw [minPayload]; omega) nofun
  simp only [decodePayload, hcheck, except_ok_bind, decPlain, decProtocolHeader, hplain, takeU32_append]
  rfl

theorem encodePayload_protocolHeader_keyed (c : CipherState) (m : U32) {j : Bytes} (h : j.length ≤ 4294967290) :
    encodePayload (.protocolHeader m j) (some c) =
      .ok ((crypt c (leU32 m ++ j)).1, some (crypt c (leU32 m ++ j)).2) := by
  have hlegal : legalCommand (.protocolHeader m j) = true := decide_eq_true h
  rw [encodePayload, if_pos hlegal]
  rfl

/-- Settles O42: each direction's codec is given its own context, and gives it back advanced when it succeeds. -/
theorem protocolHeaderUsesTheDirectionsContext : Obligations.ProtocolHeaderUsesTheDirectionsContext := by
  unfold Obligations.ProtocolHeaderUsesTheDirectionsContext
  refine ⟨fun total p s hrecv => ⟨fun hunkeyed => ?_, fun hkeyed hshort => ?_, fun c m j hctx hplain => ?_⟩,
    fun c m j s hctx => ⟨fun hfits => ?_, fun hlong => ?_⟩, fun m j s hunkeyed hfits => ?_⟩
  · have hdec : decodePayload .protocolHeader p s.ctxRx = .error .contextNotKeyed := by
      rw [hunkeyed, decodePayload_protocolHeader_unkeyed]
    show receiveFrame .protocolHeader total p s = _
    rw [receiveFrame_error hrecv hdec, State.raise_refusal s true .contextNotKeyed rfl]
    rfl
  · exact exec_frameInstr_of_wrongLength (v := .protocolHeader) hrecv
      (fun _ => Option.isSome_iff_ne_none.2 hkeyed) (.inl hshort)
  · have hdec : decodePayload .protocolHeader p s.ctxRx = .ok (.protocolHeader m j, some (crypt c p).2) := by
      rw [hctx, decodePayload_protocolHeader_keyed hplain]
    exact receiveFrame_ok hrecv hdec
  · refine exec_cmdEncode_of_ok (v := .protocolHeader m j) ?_
    rw [hctx, encodePayload_protocolHeader_keyed c m hfits]
  · exact exec_cmdEncode_of_illegal s fun hlegal => absurd (of_decide_eq_true hlegal) (by omega)
  · refine exec_cmdEncode_of_error (k := .contextNotKeyed) ?_
    rw [hunkeyed, encodePayload_protocolHeader_unkeyed m hfits]

/-! ### Speed and BBSPort (R173, R174, R181) -/

theorem decSpeed_append (w : U32) (rest : Bytes) : decSpeed (leU32 w ++ rest) = .ok (.speed w) := by
  rw [decSpeed, takeU32_append, except_ok_bind]; rfl

theorem decBbsPort_append (w : U32) (rest : Bytes) : decBbsPort (leU32 w ++ rest) = .ok (.bbsPort w) := by
  rw [decBbsPort, takeU32_append, except_ok_bind]; rfl

/-- Settles O43: a u32 reads back from the four bytes it is written as, whatever follows. -/
theorem speedAndBbsPort : Obligations.SpeedAndBbsPort := by
  unfold Obligations.SpeedAndBbsPort
  refine ⟨fun total w rest s hrecv => ?_, fun total p s hrecv hshort => ⟨?_, ?_⟩, fun w s => ⟨?_, ?_⟩⟩
  · have hmin : 4 ≤ (leU32 w ++ rest).length := by rw [List.length_append, leU32_length]; omega
    exact ⟨exec_frameInstr_of_decPlain (v := .speed) hrecv nofun (checkLength_ok _ _ hmin nofun)
        (decSpeed_append w rest),
      exec_frameInstr_of_decPlain (v := .bbsPort) hrecv nofun (checkLength_ok _ _ hmin nofun)
        (decBbsPort_append w rest)⟩
  · exact exec_frameInstr_of_wrongLength (v := .speed) hrecv nofun (.inl hshort)
  · exact exec_frameInstr_of_wrongLength (v := .bbsPort) hrecv nofun (.inl hshort)
  · exact exec_cmdEncode_of_legal s nofun rfl
  · exact exec_cmdEncode_of_legal s nofun rfl

/-! ### ConnectionType (R175) -/

/-- The four bytes are taken first; then the link type decides. -/
theorem decConnectionType_cons (t b1 b2 b3 : Byte) (rest : Bytes) :
    decConnectionType (t :: b1 :: b2 :: b3 :: rest) =
      (linkOf t).map fun link => .connectionType link (decide (b1 ≠ 0)) (decide (b2 ≠ 0)) (decide (b3 ≠ 0)) := by
  simp only [decConnectionType, takeByte_cons, takeBool_cons, except_ok_bind, boolOf_eq]
  cases linkOf t <;> rfl

theorem linkOf_error {t : Byte} (h : 2 < t.toNat) : linkOf t = .error .fieldRangeError := by
  unfold linkOf
  split
  case h_4 => rfl
  all_goals omega

/-- The rows of the link table are the codes of the three link types. -/
theorem eq_linkCode_of_mem {row : Byte × LinkType}
    (h : row ∈ [((0 : Byte), LinkType.search), (1, LinkType.transfer), (2, LinkType.bbsSearch)]) :
    row.1 = linkCode row.2 := by
  simp only [List.mem_cons, List.not_mem_nil, or_false] at h
  rcases h with rfl | rfl | rfl <;> rfl

/-- Settles O44: the link table is `linkCode`, which `linkOf` inverts and outside which it is FieldRangeError. -/
theorem connectionTypeFields : Obligations.ConnectionTypeFields := by
  unfold Obligations.ConnectionTypeFields
  refine fun s => ⟨fun total t b1 b2 b3 rest hrecv => ?_, fun total p hrecv hshort => ?_, fun f g h row hrow => ?_⟩
  · have hlen : checkLength .connectionType (t :: b1 :: b2 :: b3 :: rest) = .ok () :=
      checkLength_ok _ _ (by simp [minPayload]) nofun
    constructor
    · rintro row hrow rfl
      refine exec_frameInstr_of_decPlain (v := .connectionType) hrecv nofun hlen ?_
      rw [decPlain, decConnectionType_cons, eq_linkCode_of_mem hrow, linkOf_linkCode]
      rfl
    · intro hlink
      refine exec_frameInstr_of_decPlain_error (v := .connectionType) (k := .fieldRangeError) hrecv nofun hlen ?_
      rw [decPlain, decConnectionType_cons, linkOf_error hlink]
      rfl
  · exact exec_frameInstr_of_wrongLength (v := .connectionType) hrecv nofun (.inl hshort)
  · rw [eq_linkCode_of_mem hrow]
    exact exec_cmdEncode_of_legal s nofun rfl

/-! ### NodeDetails (R177) -/

section
variable (a b c d hl l0 l1 l2 : Byte) (port : U32)

theorem checkLength_nodeDetails (rest : Bytes) :
    checkLength .nodeDetails ([a, b, c, d] ++ leU32 port ++ [hl, l0, l1, l2] ++ rest) = .ok () :=
  checkLength_ok _ _
    (by simp only [minPayload, List.length_append, leU32_length, List.length_cons, List.length_nil]; omega) nofun

variable {hl l0 l1 l2}

/-- The strings follow the four lengths, uncut. -/
theorem decNodeDetails_of_fits {h w0 w1 w2 : Bytes} (more : Bytes) (hh : h.length = hl.toNat)
    (h0 : w0.length = l0.toNat) (h1 : w1.length = l1.toNat) (h2 : w2.length = l2.toNat) :
    decNodeDetails ([a, b, c, d] ++ leU32 port ++ [hl, l0, l1, l2] ++ (h ++ w0 ++ w1 ++ w2 ++ more)) =
      .ok (.nodeDetails ⟨a, b, c, d⟩ port h w0 w1 w2) := by
  simp only [List.append_assoc, List.cons_append, List.nil_append, decNodeDetails, takeAddr_cons, takeU32_append,
    takeByte_cons, takeField_append _ _ _ _ hh, takeField_append _ _ _ _ h0, takeField_append _ _ _ _ h1,
    takeField_append _ _ _ _ h2, except_ok_bind]
  rfl

theorem decNodeDetails_truncated {rest : Bytes} (h : rest.length < hl.toNat + l0.toNat + l1.toNat + l2.toNat) :
    decNodeDetails ([a, b, c, d] ++ leU32 port ++ [hl, l0, l1, l2] ++ rest) = .error .truncatedRecord := by
  simp only [List.append_assoc, List.cons_append, List.nil_append, decNodeDetails, takeAddr_cons, takeU32_append,
    takeByte_cons, except_ok_bind]
  refine takeField_bind_error (m := l0.toNat + (l1.toNat + l2.toNat)) (by omega) fun _ _ hrest0 => ?_
  refine takeField_bind_error hrest0 fun _ _ hrest1 => ?_
  refine takeField_bind_error hrest1 fun _ _ hrest2 => ?_
  rw [takeField_short _ _ _ hrest2, except_error_bind]

end

theorem legalCommand_nodeDetails_iff (addr : Addr) (port : U32) (h w0 w1 w2 : Bytes) :
    legalCommand (.nodeDetails addr port h w0 w1 w2) = true ↔
      h.length ≤ 255 ∧ w0.length ≤ 255 ∧ w1.length ≤ 255 ∧ w2.length ≤ 255 := by
  simp only [legalCommand, Bool.and_eq_true, lpLegal_iff, and_assoc]

/-- Settles O45: the four lengths are read before any string, so strings that fit are read whole and others are
TruncatedRecord. -/
theorem nodeDetailsFields : Obligations.NodeDetailsFields := by
  unfold Obligations.NodeDetailsFields
  refine fun port a b c d s => ⟨fun total hl l0 l1 l2 rest hrecv => ⟨?_, fun hshort => ?_⟩,
    fun total p hrecv hshort => ?_, fun h w0 w1 w2 => ⟨fun hlegal => ?_, fun hlong => ?_⟩⟩
  · rintro h w0 w1 w2 more rfl hh h0 h1 h2
    exact exec_frameInstr_of_decPlain (v := .nodeDetails) hrecv nofun (checkLength_nodeDetails ..)
      (decNodeDetails_of_fits a b c d port more hh h0 h1 h2)
  · exact exec_frameInstr_of_decPlain_error (v := .nodeDetails) (k := .truncatedRecord) hrecv nofun
      (checkLength_nodeDetails ..) (decNodeDetails_truncated a b c d port hshort)
  · exact exec_frameInstr_of_wrongLength (v := .nodeDetails) hrecv nofun (.inl hshort)
  · exact exec_cmdEncode_of_legal s nofun ((legalCommand_nodeDetails_iff ..).2 hlegal)
  · exact exec_cmdEncode_of_illegal s (by rw [legalCommand_nodeDetails_iff]; omega)

/-! ### AnotherNode (R179) -/

section
variable (a b c d n l0 l1 l2 : Byte) (sp bp speed : U32)

theorem checkLength_anotherNode (rest : Bytes) :
    checkLength .anotherNode
      ([a, b, c, d] ++ leU32 sp ++ leU32 bp ++ [n] ++ leU32 speed ++ [l0, l1, l2] ++ rest) = .ok () :=
  checkLength_ok _ _
    (by simp only [minPayload, List.length_append, leU32_length, List.length_cons, List.length_nil]; omega) nofun

variable {l0 l1 l2}

/-- The words follow the three lengths, uncut. -/
theorem decAnotherNode_of_fits {w0 w1 w2 : Bytes} (more : Bytes) (h0 : w0.length = l0.toNat)
    (h1 : w1.length = l1.toNat) (h2 : w2.length = l2.toNat) :
    decAnotherNode ([a, b, c, d] ++ leU32 sp ++ leU32 bp ++ [n] ++ leU32 speed ++ [l0, l1, l2]
        ++ (w0 ++ w1 ++ w2 ++ more)) =
      .ok (.anotherNode ⟨a, b, c, d⟩ sp bp (decide (n ≠ 0)) speed w0 w1 w2) := by
  simp only [List.append_assoc, List.cons_append, List.nil_append, decAnotherNode, takeAddr_cons, takeU32_append,
    takeByte_cons, takeBool_cons, boolOf_eq, takeField_append _ _ _ _ h0, takeField_append _ _ _ _ h1,
    takeField_append _ _ _ _ h2, except_ok_bind]
  rfl

theorem decAnotherNode_truncated {rest : Bytes} (h : rest.length < l0.toNat + l1.toNat + l2.toNat) :
    decAnotherNode ([a, b, c, d] ++ leU32 sp ++ leU32 bp ++ [n] ++ leU32 speed ++ [l0, l1, l2] ++ rest) =
      .error .truncatedRecord := by
  simp only [List.append_assoc, List.cons_append, List.nil_append, decAnotherNode, takeAddr_cons, takeU32_append,
    takeByte_cons, takeBool_cons, except_ok_bind]
  refine takeField_bind_error (m := l1.toNat + l2.toNat) (by omega) fun _ _ hrest0 => ?_
  refine takeField_bind_error hrest0 fun _ _ hrest1 => ?_
  rw [takeField_short _ _ _ hrest1, except_error_bind]

end

theorem legalCommand_anotherNode_iff (addr : Addr) (sp bp : U32) (f : Bool) (speed : U32) (w0 w1 w2 : Bytes) :
    legalCommand (.anotherNode addr sp bp f speed w0 w1 w2) = true ↔
      w0.length ≤ 255 ∧ w1.length ≤ 255 ∧ w2.length ≤ 255 := by
  simp only [legalCommand, Bool.and_eq_true, lpLegal_iff, and_assoc]

/-- Settles O46: the three lengths are read before any word, so words that fit are read whole and others are
TruncatedRecord. -/
theorem anotherNodeFields : Obligations.AnotherNodeFields := by
  unfold Obligations.AnotherNodeFields
  refine fun sp bp speed a b c d s => ⟨fun total n l0 l1 l2 rest hrecv => ⟨?_, fun hshort => ?_⟩,
    fun total p hrecv hshort => ?_, fun f w0 w1 w2 => ⟨fun hlegal => ?_, fun hlong => ?_⟩⟩
  · rintro w0 w1 w2 more rfl h0 h1 h2
    exact exec_frameInstr_of_decPlain (v := .anotherNode) hrecv nofun (checkLength_anotherNode ..)
      (decAnotherNode_of_fits a b c d n sp bp speed more h0 h1 h2)
  · exact exec_frameInstr_of_decPlain_error (v := .anotherNode) (k := .truncatedRecord) hrecv nofun
      (checkLength_anotherNode ..) (decAnotherNode_truncated a b c d n sp bp speed hshort)
  · exact exec_frameInstr_of_wrongLength (v := .anotherNode) hrecv nofun (.inl hshort)
  · exact exec_cmdEncode_of_legal s nofun ((legalCommand_anotherNode_iff ..).2 hlegal)
  · exact exec_cmdEncode_of_illegal s (by rw [legalCommand_anotherNode_iff]; omega)

/-! ### FileRequest and FileResponse (R185, R189) -/

theorem decFileRequest_append (w x y z : U32) {hash : Bytes} (hhash : hash.length = 16) (rest : Bytes) :
    decFileRequest (leU32 w ++ leU32 x ++ leU32 y ++ hash ++ leU32 z ++ rest) = .ok (.fileRequest w x y hash z) := by
  simp only [List.append_assoc, decFileRequest, Config.hashW, takeU32_append, takeField_append _ _ _ _ hhash,
    except_ok_bind]
  rfl

theorem decFileResponse_append (w x : U32) {hash : Bytes} (hhash : hash.length = 16) (rest : Bytes) :
    decFileResponse (leU32 w ++ leU32 x ++ hash ++ rest) = .ok (.fileResponse w x hash (rest.take 65536)) := by
  simp only [List.append_assoc, decFileResponse, Config.hashW, takeU32_append, takeField_append _ _ _ _ hhash,
    except_ok_bind]
  rfl

theorem legalCommand_fileRequest_iff (w x y z : U32) (hash : Bytes) :
    legalCommand (.fileRequest w x y hash z) = true ↔ hash.length = 16 := decide_eq_true_iff

theorem legalCommand_fileResponse_iff (w x : U32) (hash data : Bytes) :
    legalCommand (.fileResponse w x hash data) = true ↔ hash.length = 16 ∧ data.length ≤ 65536 := by
  rw [legalCommand, Bool.and_eq_true, decide_eq_true_iff, decide_eq_true_iff]; rfl

/-- Settles O47: fixed fields in a row, then for a FileResponse the rest of the payload up to the limit. -/
theorem fileCommands : Obligations.FileCommands := by
  unfold Obligations.FileCommands
  refine fun w x y z hash s => ⟨fun total rest hrecv hhash => ⟨?_, ?_⟩,
    fun total p hrecv => ⟨fun hshort => ?_, fun hshort => ?_⟩, fun hhash => ?_, fun hhash => ?_,
    fun data => ⟨fun hhash hdata => ?_, fun hbad => ?_⟩⟩
  · refine exec_frameInstr_of_decPlain (v := .fileRequest) hrecv nofun (checkLength_ok _ _ ?_ nofun)
      (decFileRequest_append w x y z hhash rest)
    simp only [minPayload, List.length_append, leU32_length]
    omega
  · refine exec_frameInstr_of_decPlain (v := .fileResponse) hrecv nofun (checkLength_ok _ _ ?_ nofun)
      (decFileResponse_append w x hhash rest)
    simp only [minPayload, List.length_append, leU32_length]
    omega
  · exact exec_frameInstr_of_wrongLength (v := .fileRequest) hrecv nofun (.inl hshort)
  · exact exec_frameInstr_of_wrongLength (v := .fileResponse) hrecv nofun (.inl hshort)
  · exact exec_cmdEncode_of_legal s nofun ((legalCommand_fileRequest_iff ..).2 hhash)
  · exact exec_cmdEncode_of_illegal s (by rwa [legalCommand_fileRequest_iff])
  · exact exec_cmdEncode_of_legal s nofun ((legalCommand_fileResponse_iff ..).2 ⟨hhash, hdata⟩)
  · exact exec_cmdEncode_of_illegal s (by rw [legalCommand_fileResponse_iff]; omega)

/-! ### ConditionalDiffusionRequest (R187) -/

theorem decConditionalDiffusionRequest_append (q : U32) {keyword sign : Bytes} (hk : keyword.length = 255)
    (hs : sign.length = 17) : decConditionalDiffusionRequest (keyword ++ sign ++ leU32 q) =
      .ok (.conditionalDiffusionRequest (truncNul keyword) (truncNul sign) q) := by
  have hq := takeU32_append .framingError q []
  rw [List.append_nil] at hq
  simp only [List.append_assoc, decConditionalDiffusionRequest, Config.cdrKeywordW, Config.cdrSignW,
    fwDec_append _ _ _ _ hk, fwDec_append _ _ _ _ hs, hq, except_ok_bind]
  rfl

theorem legalCommand_conditionalDiffusionRequest_iff (keyword sign : Bytes) (q : U32) :
    legalCommand (.conditionalDiffusionRequest keyword sign q) = true ↔
      keyword.length ≤ 255 ∧ 0 ∉ keyword ∧ sign.length ≤ 17 ∧ 0 ∉ sign := by
  simp only [legalCommand, Bool.and_eq_true, fwLegal_iff, Config.cdrKeywordW, Config.cdrSignW, and_assoc]

/-- Settles O48: the three fields fill the 276 bytes, and the length is checked both ways before they are read. -/
theorem conditionalDiffusionRequestFields : Obligations.ConditionalDiffusionRequestFields := by
  unfold Obligations.ConditionalDiffusionRequestFields
  refine fun q keyword sign s => ⟨fun total hrecv => ⟨fun hk hs => ?_, fun p hlen => ?_⟩, fun hlegal => ?_,
    fun hillegal => ?_⟩
  · have hlen : (keyword ++ sign ++ leU32 q).length = 276 := by
      simp only [List.length_append, leU32_length, hk, hs]
    exact exec_frameInstr_of_decPlain (v := .conditionalDiffusionRequest) hrecv nofun
      (checkLength_ok _ _ hlen.ge fun _ => hlen) (decConditionalDiffusionRequest_append q hk hs)
  · exact exec_frameInstr_of_wrongLength (v := .conditionalDiffusionRequest) hrecv nofun (.inr ⟨rfl, hlen⟩)
  · rw [exec_cmdEncode_of_legal (v := .conditionalDiffusionRequest ..) s nofun
      ((legalCommand_conditionalDiffusionRequest_iff ..).2 hlegal)]
    simp only [encPlain, pad, Config.cdrKeywordW, Config.cdrSignW, List.append_assoc]
    rfl
  · refine exec_cmdEncode_of_illegal s ?_
    rw [legalCommand_conditionalDiffusionRequest_iff]
    rintro ⟨hk, hk0, hs, hs0⟩
    rcases hillegal with h | h | h | h
    · omega
    · exact hk0 h
    · omega
    · exact hs0 h

/-! ### CACHE_BLOCK (R191) -/

/-- Settles O40: `pad` appends zeros up to the width, and only an operand within it is padded. -/
theorem cacheBlockPadsTo65536 : Obligations.CacheBlockPadsTo65536 := by
  unfold Obligations.CacheBlockPadsTo65536
  refine ⟨fun _ => rfl, fun data s => ⟨fun hfits => ?_, fun hlong => ?_⟩⟩
  · refine ⟨List.replicate (65536 - data.length) 0, fun v hv => List.eq_of_mem_replicate hv,
      pad_length data 65536 hfits, ?_⟩
    show execCacheBlock data s = _
    exact congrArg (pureOp s) (if_neg (Nat.not_lt.2 hfits))
  · show execCacheBlock data s = _
    exact congrArg (pureOp s) (if_pos hlong)

/-! ### The commands without fields (R183, R192 to R198) -/

/-- A variant whose decoder reads nothing takes any payload, and its value is sent as an opcode alone. -/
theorem exec_emptyCommand {v : Variant} {cmd : Command} (hmin : minPayload v = 0)
    (hdec : ∀ p, decPlain v p = .ok cmd) (hcmd : variantOfCommand cmd = v) (hlegal : legalCommand cmd = true)
    (henc : encPlain cmd = []) (total : U32) (p : Bytes) (s : State) :
    (s.Receivable total → exec (frameInstr v total p) s = .next (s.afterFrame total (opcodeOf v) (.command cmd))) ∧
      exec (.cmdEncode cmd) s = .next (s.succeeds (.bytes [1, 0, 0, 0, opcodeOf v])) := by
  have hv : v ≠ .protocolHeader := by rintro rfl; cases hmin
  have hv' : v ≠ .conditionalDiffusionRequest := by rintro rfl; cases hmin
  constructor
  · intro hrecv
    have hlen : checkLength v p = .ok () := checkLength_ok v p (by omega) fun h => absurd h hv'
    exact exec_frameInstr_of_decPlain hrecv hv hlen (hdec p)
  · rw [exec_cmdEncode_of_legal s (hcmd ▸ hv) hlegal, hcmd, henc]
    rfl

/-- Settles O51: each of the eight variants has a decoder that reads nothing and an encoder that writes nothing. -/
theorem emptyCommands : Obligations.EmptyCommands := by
  unfold Obligations.EmptyCommands
  intro total p s
  simp only [List.forall_mem_cons]
  exact ⟨exec_emptyCommand (v := .diffusionRequest) rfl (fun _ => rfl) rfl rfl rfl total p s,
    exec_emptyCommand (v := .close) rfl (fun _ => rfl) rfl rfl rfl total p s,
    exec_emptyCommand (v := .connectedLimitation) rfl (fun _ => rfl) rfl rfl rfl total p s,
    exec_emptyCommand (v := .wrongListeningPort) rfl (fun _ => rfl) rfl rfl rfl total p s,
    exec_emptyCommand (v := .reject) rfl (fun _ => rfl) rfl rfl rfl total p s,
    exec_emptyCommand (v := .slow) rfl (fun _ => rfl) rfl rfl rfl total p s,
    exec_emptyCommand (v := .liar) rfl (fun _ => rfl) rfl rfl rfl total p s,
    exec_emptyCommand (v := .lowVersion) rfl (fun _ => rfl) rfl rfl rfl total p s,
    List.forall_mem_nil _⟩

end Sys2Proof.Machine
end

section
/-! The checks a wire command's receipt makes before its payload is looked at (R155, R170). -/

namespace Sys2Proof.Machine

theorem exec_frameInstr_of_rxDead {s : State} (hdead : s.flag .rxDead = true) (v : Variant) (total : U32) (p : Bytes) :
    exec (frameInstr v total p) s = .next (s.failsWith 10) := by
  rw [exec_frameInstr]
  exact settle_of_rxDead hdead true _

/-- A length of 0, or one that reaches past `ILEN`, is FramingError with latch (R155). -/
theorem exec_frameInstr_of_badExtent {s : State} (hlive : s.flag .rxDead = false) {total : U32}
    (hbad : total = 0 ∨ s.ilen < s.cur + (4 + total.toNat)) (v : Variant) (p : Bytes) :
    exec (frameInstr v total p) s = .next (s.diesWith 1) := by
  rw [exec_frameInstr, receiveFrame, settle_of_rxLive hlive]
  have hdies : settle true s (.error (.err .framingError)) = .next (s.diesWith 1) :=
    congrArg _ (State.raise_error s .framingError rfl)
  by_cases hzero : total = 0
  · rw [if_pos hzero]
    exact hdies
  · have hlong := hbad.resolve_left hzero
    rw [if_neg hzero, if_pos (by omega)]
    exact hdies

/-- Settles O41: the extent of the frame is checked first, then the variant's minimum. -/
theorem shortFramesAreFramingErrors : Obligations.ShortFramesAreFramingErrors := by
  unfold Obligations.ShortFramesAreFramingErrors
  intro v total p s hlive
  exact ⟨fun hbad => exec_frameInstr_of_badExtent hlive hbad v p, fun hrecv hshort hkeyed =>
    exec_frameInstr_of_wrongLength hrecv hkeyed (.inl hshort)⟩

end Sys2Proof.Machine
end

section
/-! The two instruction formats (R60, R70, R72, R78, R90): encoding and decoding are inverse, which bytes the fetch reads,
the step on a request, and the names (R88). -/

namespace Sys2Proof.Machine

/-! ### Decoding what was encoded -/

theorem encode_frameInstr (v : Variant) (total : U32) (p : Bytes) :
    encode (frameInstr v total p) = encodeFrame v total p := by cases v <;> rfl

theorem wellFormed_frameInstr (v : Variant) (total : U32) (p : Bytes) :
    (frameInstr v total p).wellFormed = frameWellFormed total p := by cases v <;> rfl

/-- The first four bytes are the length field, the fifth selects the variant, and the payload is what the length field
declares of the rest (R70, R72, R81). -/
theorem decodeFrame_cons (b0 b1 b2 b3 op : Byte) (rest : Bytes) :
    decodeFrame (b0 :: b1 :: b2 :: b3 :: op :: rest) =
      match variantOf op with
      | some v => .ok (frameInstr v (BitVec.ofNat 32 (leNat [b0, b1, b2, b3]))
          (rest.take ((BitVec.ofNat 32 (leNat [b0, b1, b2, b3])).toNat - 1)))
      | none => .error (.unknownOpcode op) := rfl

theorem decodeFrame_of_variant {op : Byte} {v : Variant} (hop : variantOf op = some v) (total : U32) (rest : Bytes) :
    decodeFrame (leU32 total ++ [op] ++ rest) = .ok (frameInstr v total (rest.take (total.toNat - 1))) := by
  obtain ⟨b0, b1, b2, b3, hb⟩ : ∃ b0 b1 b2 b3, leU32 total = [b0, b1, b2, b3] := ⟨_, _, _, _, rfl⟩
  have htotal : BitVec.ofNat 32 (leNat [b0, b1, b2, b3]) = total := by rw [← hb, ofNat_leNat_leU32]
  rw [hb]
  show decodeFrame (b0 :: b1 :: b2 :: b3 :: op :: rest) = _
  rw [decodeFrame_cons, hop, htotal]

/-- A frame whose length field counts its opcode and payload decodes to itself (R60). -/
theorem decode_encodeFrame (v : Variant) {total : U32} {p : Bytes} (hwf : frameWellFormed total p = true) :
    decode (encodeFrame v total p) = .ok (frameInstr v total p) := by
  have hlen : total.toNat = 1 + p.length := of_decide_eq_true hwf
  show decodeFrame (leU32 total ++ [opcodeOf v] ++ p) = _
  rw [decodeFrame_of_variant (variantOf_opcodeOf v), List.take_of_length_le (by omega)]

/-- A stateless operation's `OPSEL` selects it, and the slots it reads hold its operands (R90). -/
theorem decode_encode_of_stateless {i : Instr} (h : i.stateless = true) : decode (encode i) = .ok i := by
  cases i <;> first | rfl | cases h

/-- Settles O1: a frame decodes to itself by its length field and opcode, a host request by its `OPSEL`. -/
theorem decodeOfEncodeIsIdentity : Obligations.DecodeOfEncodeIsIdentity := by
  unfold Obligations.DecodeOfEncodeIsIdentity
  intro i hwf
  rcases instr_kinds i with h | ⟨v, total, p, rfl⟩ | rfl | rfl | rfl | ⟨b, rfl⟩ | ⟨v, rfl⟩ | ⟨d, k, rfl⟩ | ⟨d, rfl⟩ |
    ⟨d, b, rfl⟩
  · exact decode_encode_of_stateless h
  · rw [wellFormed_frameInstr] at hwf
    rw [encode_frameInstr, decode_encodeFrame v hwf]
  all_goals rfl

/-! ### The opcode map and sample words -/

/-- Settles O2: the rows by evaluation; an opcode with a variant is that variant's opcode. -/
theorem opcodeMapAsTabled : Obligations.OpcodeMapAsTabled := by
  unfold Obligations.OpcodeMapAsTabled
  refine ⟨by decide, fun op hop => ?_⟩
  obtain ⟨v, hv⟩ := Option.isSome_iff_exists.1 hop
  rw [← opcodeOf_of_variantOf op v hv]
  cases v <;> decide

/-- Settles O3: the decoder evaluates on each word. -/
theorem sampleWordsDecode : Obligations.SampleWordsDecode := by
  unfold Obligations.SampleWordsDecode
  exact ⟨rfl, rfl, rfl, rfl, rfl⟩

/-! ### The step on a request (R62) -/

theorem stepOp_of_decodeOp_ok {r : Request} {i : Instr} (h : decodeOp r = .ok i) (s : State) :
    stepOp r s = exec (resolve i s) s := by
  rw [stepOp, h]

theorem resolve_of_ne_cmdDecode {i : Instr} (h : i ≠ .cmdDecode) (s : State) : resolve i s = i := by
  cases i <;> first | rfl | exact absurd rfl h

theorem resolve_cmdDecode (s : State) : resolve .cmdDecode s = (fetchFrame s).getD .cmdDecode := by
  rw [resolve]
  cases fetchFrame s <;> rfl

/-- The fetch reads the receive buffer, not the host's queue. -/
theorem fetchFrame_with_host (s : State) (rest : List HostEvent) : fetchFrame { s with host := rest } = fetchFrame s := rfl

/-- Settles O4: the request is decoded and resolved, and only CMD_DECODE resolves to another instruction. -/
theorem stepRunsTheDecodedInstruction : Obligations.StepRunsTheDecodedInstruction := by
  unfold Obligations.StepRunsTheDecodedInstruction
  intro s r rest i hhost hdec
  rw [step_of_host_op hhost, stepOp_of_decodeOp_ok hdec]
  refine ⟨fun hne => by rw [resolve_of_ne_cmdDecode hne], ?_, ?_⟩
  · rintro rfl f hfetch
    rw [resolve_cmdDecode, fetchFrame_with_host, hfetch, Option.getD_some]
  · rintro rfl hfetch
    rw [resolve_cmdDecode, fetchFrame_with_host, hfetch, Option.getD_none]

/-! ### The fetch (R27, R70) -/

theorem fetchFrame_of_frameBytesAt {s : State} {bytes : Bytes} (h : frameBytesAt s = .ok bytes) :
    fetchFrame s = (decodeFrame bytes).toOption := by
  rw [fetchFrame, h]
  dsimp only
  cases decodeFrame bytes <;> rfl

/-- A frame decodes from its header and as much of its payload as the length field declares: the bytes after it do not
matter. -/
theorem decodeFrame_take (b0 b1 b2 b3 op : Byte) (rest : Bytes) {n : Nat}
    (hn : (BitVec.ofNat 32 (leNat [b0, b1, b2, b3])).toNat - 1 ≤ n) :
    decodeFrame (b0 :: b1 :: b2 :: b3 :: op :: rest.take n) = decodeFrame (b0 :: b1 :: b2 :: b3 :: op :: rest) := by
  rw [decodeFrame_cons, decodeFrame_cons, List.take_take, Nat.min_eq_left hn]

theorem decodeFrame_short {bytes : Bytes} (h : bytes.length < 5) : decodeFrame bytes = .error .shortHeader := by
  rcases bytes with _ | ⟨_, _ | ⟨_, _ | ⟨_, _ | ⟨_, _ | ⟨_, _⟩⟩⟩⟩⟩
  case cons.cons.cons.cons.cons => simp only [List.length_cons] at h; omega
  all_goals rfl

theorem exists_header_of_length {bytes : Bytes} (h : 5 ≤ bytes.length) :
    ∃ b0 b1 b2 b3 op rest, bytes = b0 :: b1 :: b2 :: b3 :: op :: rest := by
  rcases bytes with _ | ⟨b0, _ | ⟨b1, _ | ⟨b2, _ | ⟨b3, _ | ⟨op, rest⟩⟩⟩⟩⟩
  case cons.cons.cons.cons.cons => exact ⟨b0, b1, b2, b3, op, rest, rfl⟩
  all_goals simp at h

/-- The step fetches the wire command that the bytes ahead decode to (R27). -/
theorem fetchFrame_eq_decodeFrame_ahead {s : State} (hbuf : s.BufferValid) :
    fetchFrame s = (decodeFrame s.ahead).toOption := by
  by_cases hshort : s.ahead.length < 5
  · have hbytes : frameBytesAt s = .error (.err .framingError) := by
      rw [frameBytesAt, readHeader_short hbuf hshort, except_error_bind]
    rw [decodeFrame_short hshort, fetchFrame, hbytes]
    rfl
  · obtain ⟨b0, b1, b2, b3, op, rest, hahead⟩ := exists_header_of_length (Nat.not_lt.1 hshort)
    have hlen := hbuf.ahead_length
    rw [hahead] at hlen
    simp only [List.length_cons] at hlen
    have hbytes : frameBytesAt s = .ok (b0 :: b1 :: b2 :: b3 :: op ::
        rest.take ((BitVec.ofNat 32 (leNat [b0, b1, b2, b3])).toNat - 1)) := by
      rw [frameBytesAt, readHeader_ahead hbuf hahead, except_ok_bind, hbuf.1.memRead _ _ (by omega), ← State.ahead,
        ← hbuf.ahead_length, ← List.take_eq_take_min, hahead, lengthOf_eq, Nat.add_comm 5]
      rfl
    rw [fetchFrame_of_frameBytesAt hbytes, decodeFrame_take _ _ _ _ _ _ (Nat.le_refl _), hahead]

/-- What the bytes of a successful fetch are: the header that was read, and the payload as far as IBUF holds it. -/
theorem frameBytesAt_ok {s : State} {bytes : Bytes} (h : frameBytesAt s = .ok bytes) :
    ∃ (b0 b1 b2 b3 op : Byte) (rest : Bytes), bytes = b0 :: b1 :: b2 :: b3 :: op :: rest ∧ s.cur + 5 ≤ s.ilen ∧
      readHeader s s.cur = .ok (BitVec.ofNat 32 (leNat [b0, b1, b2, b3]), op) ∧
      memRead s.ibuf (s.cur + 5) (min ((BitVec.ofNat 32 (leNat [b0, b1, b2, b3])).toNat - 1) (s.ilen - s.cur - 5)) =
        .ok rest := by
  obtain ⟨⟨total, op'⟩, hheader, hbytes⟩ := except_bind_ok h
  have hread := hheader
  rw [readHeader] at hread
  split at hread
  · cases hread
  next hroom =>
  have hn : min (5 + (total.toNat - 1)) (s.ilen - s.cur) =
      4 + (1 + min (total.toNat - 1) (s.ilen - s.cur - 5)) := by omega
  rw [hn] at hbytes
  obtain ⟨hlen4, htail⟩ := memRead_split _ _ _ _ _ hbytes
  obtain ⟨hop, hrest⟩ := memRead_split _ _ _ _ _ htail
  rw [hlen4, except_ok_bind, hop, except_ok_bind] at hread
  obtain ⟨b0, b1, b2, b3, op, rest, rfl⟩ := exists_header_of_length (bytes := bytes) (by
    rw [memRead_length _ _ _ _ hbytes]; omega)
  cases hread
  exact ⟨b0, b1, b2, b3, op, rest, rfl, by omega, hheader, hrest⟩

theorem parseHeader_of_readHeader {s : State} {f : Nat} {total : U32} {op : Byte}
    (h : readHeader s f = .ok (total, op)) :
    parseHeader s f = if total = 0 then .error (.err .framingError) else .ok (total, op) := by
  rw [parseHeader, h, except_ok_bind]
  split <;> rfl

/-- A length of 0, or one that reaches past `ILEN`, is no frame (R151, R153). -/
theorem parseFrame_of_badExtent {s : State} {total : U32} {op : Byte} (hheader : readHeader s s.cur = .ok (total, op))
    (hroom : s.cur + 5 ≤ s.ilen) (hbad : total = 0 ∨ s.ilen < s.cur + (4 + total.toNat)) :
    parseFrame s = .error (.err .framingError) := by
  rw [parseFrame, parseHeader_of_readHeader hheader]
  by_cases hzero : total = 0
  · rw [if_pos hzero, except_error_bind]
  · have hlong := hbad.resolve_left hzero
    rw [if_neg hzero, except_ok_bind]
    exact if_pos (by omega)

theorem parseFrame_of_memRead {s : State} {total : U32} {op : Byte} {p : Bytes}
    (hheader : readHeader s s.cur = .ok (total, op)) (hzero : total ≠ 0) (hfits : s.cur + (4 + total.toNat) ≤ s.ilen)
    (hread : memRead s.ibuf (s.cur + 5) (total.toNat - 1) = .ok p) : parseFrame s = .ok (total, op, p) := by
  rw [parseFrame, parseHeader_of_readHeader hheader, if_neg hzero, except_ok_bind]
  dsimp only
  rw [if_neg (by omega), hread]
  rfl

/-- A fetched wire command is what CMD_DECODE receives: the same checks in the same order on the same bytes (R154,
R155). -/
theorem exec_cmdDecode_of_fetchFrame {s : State} {i : Instr} (h : fetchFrame s = some i) :
    exec .cmdDecode s = exec i s := by
  rw [fetchFrame] at h
  split at h
  · cases h
  next bytes hbytes =>
  obtain ⟨b0, b1, b2, b3, op, rest, rfl, hroom, hheader, hrest⟩ := frameBytesAt_ok hbytes
  rw [decodeFrame_cons] at h
  cases hop : variantOf op with
  | none => rw [hop] at h; cases h
  | some v =>
    rw [hop] at h
    cases h
    generalize BitVec.ofNat 32 (leNat [b0, b1, b2, b3]) = total at hheader hrest ⊢
    rcases Bool.eq_false_or_eq_true (s.flag .rxDead) with hdead | hlive
    · rw [exec_cmdDecode_of_rxDead hdead, exec_frameInstr_of_rxDead hdead]
    by_cases hbad : total = 0 ∨ s.ilen < s.cur + (4 + total.toNat)
    · rw [exec_cmdDecode_of_noFrame hlive (parseFrame_of_badExtent hheader hroom hbad),
        exec_frameInstr_of_badExtent hlive hbad]
    · obtain ⟨hzero, hfits⟩ := not_or.1 hbad
      rw [Nat.min_eq_left (by omega)] at hrest
      have hparse := parseFrame_of_memRead hheader hzero (Nat.not_lt.1 hfits) hrest
      rw [exec_cmdDecode_of_variant hlive hparse hop, exec_frameInstr,
        List.take_of_length_le (memRead_length _ _ _ _ hrest).le]

/-- Settles O5: the fetch is the decode of the bytes ahead, and its wire command is received as CMD_DECODE receives it. -/
theorem cmdDecodeRunsTheFrameAtTheCursor : Obligations.CmdDecodeRunsTheFrameAtTheCursor := by
  unfold Obligations.CmdDecodeRunsTheFrameAtTheCursor
  refine ⟨fun s hbuf => ?_, fun s i hfetch => exec_cmdDecode_of_fetchFrame hfetch⟩
  rw [fetchFrame_eq_decodeFrame_ahead hbuf]
  exact ⟨fun i hdec => by rw [hdec]; rfl, fun e hdec => by rw [hdec]; rfl⟩

end Sys2Proof.Machine
end

section
/-! The names (R88): one row for each instruction, its code and its name, and the seven close commands. -/

namespace Sys2Proof.Machine

/-- The names of R78 with their opcodes and of R90 with their `OPSEL`, in the order of `Instr`'s constructors. -/
def nameTable : List ((Format × Option Byte) × String) :=
  ([(0, "ProtocolHeader"), (1, "Speed"), (2, "ConnectionType"), (3, "NodeDetails"), (4, "AnotherNode"),
    (5, "BBSPort"), (10, "DiffusionRequest"), (11, "FileRequest"), (12, "ConditionalDiffusionRequest"), (13, "Query"),
    (21, "FileResponse"), (31, "Close"), (32, "ConnectedLimitation"), (33, "WrongListeningPort"), (34, "Reject"),
    (35, "Slow"), (36, "Liar"), (97, "LowVersion")].map
      fun (r : Byte × String) => ((Format.frame, some r.1), r.2)) ++
  ([(0x01, "HEX_ENC"), (0x02, "HEX_DEC"), (0x03, "TRUNC_NUL"), (0x04, "U32_LE"), (0x05, "LE_UINT"), (0x06, "ADDR2B"),
    (0x07, "B2ADDR"), (0x10, "SUM8"), (0x11, "SUM16"), (0x12, "SUM32"), (0x20, "C_NEW"), (0x21, "C_NEW_PH"),
    (0x22, "C_CRYPT"), (0x30, "RX_LOAD"), (0x31, "HDR_PEEK"), (0x32, "FRM_DECODE"), (0x33, "CMD_DECODE"),
    (0x38, "FRM_ENCODE"), (0x39, "CMD_ENCODE"), (0x3C, "KI_DECODE"), (0x3D, "KI_ENCODE"), (0x3E, "CACHE_BLOCK"),
    (0x40, "TOK_PACK"), (0x41, "TOK_UNPACK")].map
      fun (r : Byte × String) => ((Format.hostop, some r.1), r.2))

/-- Each instruction's row stands at its constructor's place. -/
theorem nameTable_getElem? (i : Instr) : nameTable[i.ctorIdx]? = some (selector (encode i), mnemonic i) := by
  cases i <;> rfl

theorem nameTable_codes_nodup : (nameTable.map Prod.fst).Nodup := by decide

theorem nameTable_names_nodup : (nameTable.map Prod.snd).Nodup := by decide

/-- Where no two rows agree in a column, that column tells the instructions' constructors apart. -/
theorem nameTable_column_eq_iff {β : Type} {column : (Format × Option Byte) × String → β}
    (hnodup : (nameTable.map column).Nodup) (i j : Instr) :
    column (selector (encode i), mnemonic i) = column (selector (encode j), mnemonic j) ↔ i.ctorIdx = j.ctorIdx := by
  have hcolumn (k : Instr) :
      (nameTable.map column)[k.ctorIdx]? = some (column (selector (encode k), mnemonic k)) := by
    rw [List.getElem?_map, nameTable_getElem?]; rfl
  constructor
  · intro heq
    refine (List.getElem?_inj (List.getElem?_eq_some_iff.1 (hcolumn i)).1 hnodup).1 ?_
    rw [hcolumn i, hcolumn j, heq]
  · intro heq
    apply Option.some.inj
    rw [← hcolumn i, ← hcolumn j, heq]

/-- Each of the seven close variants has a value of its own that is read from any payload and sent without one (R192 to
R198). -/
theorem exists_closeCommand {v : Variant}
    (hv : v ∈ [Variant.close, .connectedLimitation, .wrongListeningPort, .reject, .slow, .liar, .lowVersion]) :
    ∃ cmd, minPayload v = 0 ∧ (∀ p, decPlain v p = .ok cmd) ∧ variantOfCommand cmd = v ∧ legalCommand cmd = true ∧
      encPlain cmd = [] := by
  simp only [List.mem_cons, List.not_mem_nil, or_false] at hv
  rcases hv with rfl | rfl | rfl | rfl | rfl | rfl | rfl <;> exact ⟨_, rfl, fun _ => rfl, rfl, rfl, rfl⟩

theorem opcodeOf_injective : Function.Injective opcodeOf := fun v w h =>
  Option.some.inj ((variantOf_opcodeOf v).symm.trans ((congrArg variantOf h).trans (variantOf_opcodeOf w)))

/-- Settles O60: the table has a row for each constructor and no code and no name twice; the close commands differ in their
variants and so in their opcodes. -/
theorem everyNameDenotesOneCode : Obligations.EveryNameDenotesOneCode := by
  unfold Obligations.EveryNameDenotesOneCode
  refine ⟨fun i => List.mem_of_getElem? (nameTable_getElem? i), fun i j => ?_, fun v hv w hw total p s hrecv hne => ?_⟩
  · exact (nameTable_column_eq_iff nameTable_names_nodup i j).trans
      (nameTable_column_eq_iff nameTable_codes_nodup i j).symm
  · obtain ⟨c, hminv, hdecv, hc, hlegalv, hencv⟩ := exists_closeCommand hv
    obtain ⟨d, hminw, hdecw, hd, hlegalw, hencw⟩ := exists_closeCommand hw
    obtain ⟨hexecv, hsendv⟩ := exec_emptyCommand hminv hdecv hc hlegalv hencv total p s
    obtain ⟨hexecw, hsendw⟩ := exec_emptyCommand hminw hdecw hd hlegalw hencw total p s
    refine ⟨c, d, _, _, ?_, ?_, hexecv hrecv, hexecw hrecv, hsendv, hsendw⟩
    · rintro rfl
      exact hne (hc.symm.trans hd)
    · intro heq
      exact hne (opcodeOf_injective (by simpa using heq))

end Sys2Proof.Machine
end

section
/-! What an instruction can do, said once: `Effect` lists every next state `exec` can answer, and the statements about all
instructions (R22, R34, R42, R280 to R283) go through it. -/

namespace Sys2Proof.Machine

/-- `Effect s i t`: one way in which instruction `i` takes state `s` to `t`. The first is the block's failure (R280, R281),
the others the successes of each kind of instruction. -/
inductive Effect (s : State) : Instr → State → Prop
  | fails (i : Instr) (k : ErrKind) : Effect s i (s.raise i.receives k)
  | answers {i : Instr} (h : i.stateless = true) (r : Result) : Effect s i (s.succeeds r)
  | keys (d : Dir) (key : Bytes) : Effect s (.cNew d key) (keyContext d key s)
  | keysPh (d : Dir) : Effect s (.cNewPh d) (keyContext d Config.phKey s)
  | ciphers {d : Dir} {c : CipherState} (h : s.ctx d = some c) (data : Bytes) :
      Effect s (.cCrypt d data) ((s.setCtx d (some (crypt c data).2)).succeeds (.bytes (crypt c data).1))
  | loads {b : Bytes} (h : Config.ibufFits b.length = true) :
      Effect s (.rxLoad b) { s with
        ibuf := Memory.load b, ilen := b.length, cur := 0, status := s.status &&& 0xF7#8, err := 0, result := .none }
  | peeks {total : U32} {op : Byte} (h : parseHeader s s.cur = .ok (total, op)) :
      Effect s .hdrPeek { s with
        len := total, opc := op, status := s.status ||| 0x08#8, err := 0, result := .header total op }
  | slices {total : U32} {op : Byte} {p : Bytes} (h : parseFrame s = .ok (total, op, p)) :
      Effect s .frmDecode (s.afterFrame total op (.frame op p))
  | accepts {i : Instr} {v : Variant} {total : U32} {p : Bytes} {cmd : Command} {rx : Option CipherState}
      (hi : i = .cmdDecode ∨ i = frameInstr v total p) (hrecv : s.Receivable total)
      (hdec : decodePayload v p s.ctxRx = .ok (cmd, rx)) :
      Effect s i { s.afterFrame total (opcodeOf v) (.command cmd) with ctxRx := rx }
  | sends {v : Command} {p f : Bytes} {tx : Option CipherState} (h : encodePayload v s.ctxTx = .ok (p, tx)) :
      Effect s (.cmdEncode v) { s with ctxTx := tx, err := 0, result := .bytes f }

/-- Every next state of `exec` is one of these. -/
theorem effect_of_exec {i : Instr} {s t : State} (h : exec i s = .next t) : Effect s i t := by
  rcases instr_kinds i with hi | ⟨v, total, p, rfl⟩ | rfl | rfl | rfl | ⟨b, rfl⟩ | ⟨v, rfl⟩ | ⟨d, k, rfl⟩ | ⟨d, rfl⟩ |
    ⟨d, b, rfl⟩
  · obtain ⟨x, hx⟩ := exec_stateless i hi
    rw [hx] at h
    rcases pureOp_next h with ⟨r, -, rfl⟩ | ⟨k, -, rfl⟩
    · exact .answers hi r
    · rw [← instr_receives_of_stateless i hi]
      exact .fails i k
  · rw [exec_frameInstr] at h
    rcases receiveFrame_next h with ⟨hrecv, cmd, rx, hdec, rfl⟩ | ⟨k, rfl⟩
    · exact .accepts (.inr rfl) hrecv hdec
    · rw [← instr_receives_frameInstr v total p]
      exact .fails _ k
  · rcases execHdrPeek_next h with ⟨-, total, op, hparse, rfl⟩ | ⟨k, rfl⟩
    · exact .peeks hparse
    · exact .fails .hdrPeek k
  · rcases execFrmDecode_next h with ⟨-, total, op, p, hparse, rfl⟩ | ⟨k, rfl⟩
    · exact .slices hparse
    · exact .fails .frmDecode k
  · rcases execCmdDecode_next h with ⟨hlive, total, v, p, cmd, rx, hparse, hdec, rfl⟩ | ⟨k, rfl⟩
    · exact .accepts (.inl rfl) (State.receivable_of_parseFrame hlive hparse) hdec
    · exact .fails .cmdDecode k
  · rcases execRxLoad_next h with ⟨-, hfits, rfl⟩ | ⟨k, rfl⟩
    · exact .loads hfits
    · exact .fails (.rxLoad b) k
  · rcases execCmdEncode_next h with ⟨p, tx, f, henc, -, rfl⟩ | ⟨k, rfl⟩
    · exact .sends henc
    · exact .fails (.cmdEncode v) k
  · cases h; exact .keys d k
  · cases h; exact .keysPh d
  · rcases execCCrypt_next h with ⟨c, hc, rfl⟩ | ⟨-, rfl⟩
    · exact .ciphers hc b
    · exact .fails (.cCrypt d b) .contextNotKeyed

/-! ### The status writes of the successes, as RXDEAD sees them -/

/-- A success leaves RXDEAD alone and ERR at 0; a failure raises. -/
theorem Effect.fails_or_succeeds {s t : State} {i : Instr} (h : Effect s i t) :
    (∃ k, t = s.raise i.receives k) ∨ (t.err = 0 ∧ t.flag .rxDead = s.flag .rxDead) := by
  cases h with
  | fails _ k => exact .inl ⟨k, rfl⟩
  | answers h r => exact .inr ⟨rfl, rfl⟩
  | keys d key => cases d <;> exact .inr ⟨rfl, statusGet_put_other _ _ _ _ (by decide)⟩
  | keysPh d => cases d <;> exact .inr ⟨rfl, statusGet_put_other _ _ _ _ (by decide)⟩
  | ciphers h data => exact .inr ⟨rfl, congrArg (statusGet · .rxDead) (State.setCtx_status s _ _)⟩
  | loads h => exact .inr ⟨rfl, statusGet_put_other _ .hdrv _ false (by decide)⟩
  | peeks h => exact .inr ⟨rfl, statusGet_put_other _ .hdrv _ true (by decide)⟩
  | slices h => exact .inr ⟨rfl, statusGet_put_other _ .hdrv _ true (by decide)⟩
  | accepts hi hrecv hdec => exact .inr ⟨rfl, statusGet_put_other _ .hdrv _ true (by decide)⟩
  | sends h => exact .inr ⟨rfl, rfl⟩

/-- Settles O12: an outcome with an error code is a raise, which writes ERR alone or, for an error of a receive decode, ERR
and RXDEAD. -/
theorem failuresChangeNothingElse : Obligations.FailuresChangeNothingElse := by
  unfold Obligations.FailuresChangeNothingElse
  intro i s t hexec herr
  rcases (effect_of_exec hexec).fails_or_succeeds with ⟨k, rfl⟩ | ⟨hzero, -⟩
  · rw [State.raise_err]
    rcases Bool.eq_false_or_eq_true k.isRefusal with href | hkind
    · exact .inl ⟨State.raise_refusal s _ k href, fun _ => k.isRefusal_iff.1 href⟩
    rcases Bool.eq_false_or_eq_true i.receives with hrecv | hnot
    · have hcode : ¬ 9 ≤ k.code.toNat := fun h => absurd (k.isRefusal_iff.2 h) (by rw [hkind]; decide)
      exact .inr ⟨by rw [hrecv, State.raise_error s k hkind], hrecv, by omega⟩
    · exact .inl ⟨by rw [hnot, State.raise_false], fun h => absurd (hnot.symm.trans h) (by decide)⟩
  · exact absurd hzero herr

/-! ### The latch (R283) -/

/-- Raising sets RXDEAD exactly for an error of a receive decode, and never clears it. -/
theorem State.raise_flag_rxDead (s : State) (receive : Bool) (k : ErrKind) :
    (s.raise receive k).flag .rxDead = (s.flag .rxDead || (receive && !k.isRefusal)) := by
  rw [State.flag, State.raise_status]
  by_cases h : (receive && !k.isRefusal) = true
  · rw [if_pos h, statusGet_put_same, h, Bool.or_true]
  · rw [if_neg h, Bool.eq_false_iff.2 h, Bool.or_false]; rfl

/-- No instruction clears RXDEAD. -/
theorem Effect.rxDead_stays {s t : State} {i : Instr} (h : Effect s i t) (hdead : s.flag .rxDead = true) :
    t.flag .rxDead = true := by
  rcases h.fails_or_succeeds with ⟨k, rfl⟩ | ⟨-, hflag⟩
  · rw [State.raise_flag_rxDead, hdead, Bool.true_or]
  · rw [hflag, hdead]

theorem exec_receives_of_rxDead {s : State} (hdead : s.flag .rxDead = true) {i : Instr} (hi : i.receives = true) :
    exec i s = .next (s.failsWith 10) := by
  rcases instr_kinds i with h | ⟨v, total, p, rfl⟩ | rfl | rfl | rfl | ⟨b, rfl⟩ | ⟨v, rfl⟩ | ⟨d, k, rfl⟩ | ⟨d, rfl⟩ |
    ⟨d, b, rfl⟩
  · exact absurd (hi.symm.trans (instr_receives_of_stateless i h)) (by decide)
  · exact exec_frameInstr_of_rxDead hdead v total p
  · exact exec_hdrPeek_of_rxDead hdead
  · exact exec_frmDecode_of_rxDead hdead
  · exact exec_cmdDecode_of_rxDead hdead
  all_goals cases hi

/-- Everything one step can do: idle, reset, a register read, a request that is no operation, or an instruction's effect
(R62). -/
theorem step_next {s t : State} (h : step s = .next t) :
    t = s ∨ (∃ rest, s.host = .reset :: rest ∧ t = { State.reset with host := rest }) ∨
      (∃ r rest, t = ({ s with host := rest } : State).read r) ∨
      (∃ rest, t = ({ s with host := rest } : State).failsWith 11) ∨
      ∃ i rest, Effect { s with host := rest } i t := by
  rw [step] at h
  split at h
  · cases h; exact .inl rfl
  · next rest hhost => cases h; exact .inr (.inl ⟨rest, hhost, rfl⟩)
  · next r rest hhost => cases h; exact .inr (.inr (.inl ⟨r, rest, rfl⟩))
  · next r rest hhost =>
    cases hdec : decodeOp r with
    | error e =>
      rw [stepOp_of_decodeOp_error hdec] at h
      cases h; exact .inr (.inr (.inr (.inl ⟨rest, rfl⟩)))
    | ok i =>
      rw [stepOp_of_decodeOp_ok hdec] at h
      exact .inr (.inr (.inr (.inr ⟨_, rest, effect_of_exec h⟩)))

/-- Settles O13: RXDEAD is written by raising an error of a receive decode alone, the receive path tests it first, and of
the steps only reset gives another state's flag. -/
theorem rxDeadLatch : Obligations.RxDeadLatch := by
  unfold Obligations.RxDeadLatch
  refine ⟨fun i s t hlive hexec => ?_, fun i s hdead hi => ?_, fun s t hdead hstep => ?_⟩
  · rcases (effect_of_exec hexec).fails_or_succeeds with ⟨k, rfl⟩ | ⟨hzero, hflag⟩
    · have hrefusal := k.isRefusal_iff
      have hpos : k.code.toNat ≠ 0 := fun h => k.code_ne_zero (BitVec.eq_of_toNat_eq h)
      rw [State.raise_flag_rxDead, hlive, Bool.false_or, Bool.and_eq_true, Bool.not_eq_true', Bool.eq_false_iff, Ne,
        hrefusal, State.raise_err]
      exact and_congr_right fun _ => by omega
    · rw [hflag, hlive, hzero]
      simp
  · rcases hi with hi | ⟨b, rfl⟩
    · exact exec_receives_of_rxDead hdead hi
    · exact exec_rxLoad_of_rxDead hdead b
  · rcases step_next hstep with rfl | ⟨rest, hhost, -⟩ | ⟨r, rest, rfl⟩ | ⟨rest, rfl⟩ | ⟨i, rest, heff⟩
    · exact .inl hdead
    · exact .inr ⟨rest, hhost⟩
    · exact .inl ((congrArg (statusGet · .rxDead) (State.read_status _ r)).trans hdead)
    · exact .inl hdead
    · exact .inl (heff.rxDead_stays hdead)

end Sys2Proof.Machine
end

section
/-! The invariant of the block (R23, R25, R28, R30, R36, R271): reset meets it, every step keeps it, and from it every step
goes on. Reset and the register reads as steps (R22, R25, R311). -/

namespace Sys2Proof.Machine

/-! ### Reset and register reads -/

theorem step_of_host_reset {s : State} {rest : List HostEvent} (h : s.host = .reset :: rest) :
    step s = .next { State.reset with host := rest } := by
  rw [step, h]

theorem step_of_host_read {s : State} {r : Reg} {rest : List HostEvent} (h : s.host = .read r :: rest) :
    step s = .next (({ s with host := rest } : State).read r) := by
  rw [step, h]

/-- Settles O7: the state of a reset step is `State.reset` but for the queue. -/
theorem resetLeavesTheTabledState : Obligations.ResetLeavesTheTabledState := by
  unfold Obligations.ResetLeavesTheTabledState
  intro s rest hhost
  have hhdrv : ¬ State.reset.flag .hdrv = true := by decide
  have hcnt : ¬ (State.reset.flag .hdrv && State.reset.cntWritten) = true := by decide
  exact ⟨_, step_of_host_reset hhost, rfl, rfl, rfl, rfl, fun _ => rfl, rfl, rfl, rfl, if_neg hhdrv, if_neg hhdrv,
    if_neg hcnt, rfl⟩

/-- A read of a register that holds a value shows it (R22). -/
theorem step_read_value {s : State} {r : Reg} {rest : List HostEvent} {n : Nat} (h : s.host = .read r :: rest)
    (hvalue : s.readReg r = some n) : step s = .next { s with host := rest, regOut := .value n } := by
  have hread : ({ s with host := rest } : State).readReg r = some n := by rw [← hvalue]; cases r <;> rfl
  rw [step_of_host_read h, State.read_of_readReg hread]

/-- A read of a register that holds no value shows the refusal (R25). -/
theorem step_read_refused {s : State} {r : Reg} {rest : List HostEvent} (h : s.host = .read r :: rest)
    (hvalue : s.readReg r = none) : step s = .next { s with host := rest, regOut := .refused r } := by
  have hread : ({ s with host := rest } : State).readReg r = none := by rw [← hvalue]; cases r <;> rfl
  rw [step_of_host_read h, State.read_of_noValue hread]

/-- Masking bits 7:4 leaves the value modulo 16 (R23). -/
theorem and_low_nibble_toNat (w : Byte) : (w &&& 0x0F#8).toNat = w.toNat % 16 := by
  rw [BitVec.toNat_and]
  exact Nat.and_two_pow_sub_one_eq_mod w.toNat 4

/-- Settles O8: which registers hold a value is what `readReg` says of them, by HDRV and `cntWritten`. -/
theorem registerReads : Obligations.RegisterReads := by
  unfold Obligations.RegisterReads
  refine fun s rest => ⟨fun h => step_read_value h (congrArg some (and_low_nibble_toNat _)),
    fun h => step_read_value h rfl, fun h => step_read_value h rfl, fun h => step_read_value h rfl,
    fun hhdrv => ⟨fun h => ?_, fun h => ?_, fun h hcnt => ?_, fun h hcnt => ?_⟩, fun hhdrv r hr h => ?_⟩
  · exact step_read_value h (by rw [State.readReg, if_pos hhdrv])
  · exact step_read_value h (by rw [State.readReg, if_pos hhdrv])
  · exact step_read_value h (by rw [State.readReg, hhdrv, hcnt]; rfl)
  · exact step_read_refused h (by rw [State.readReg, hcnt, Bool.and_false]; rfl)
  · refine step_read_refused h ?_
    simp only [List.mem_cons, List.not_mem_nil, or_false] at hr
    rcases hr with rfl | rfl | rfl <;> simp [State.readReg, hhdrv]

/-! ### The invariant after each update of the state -/

/-- Settles O9: the fields of the reset state, one by one. -/
theorem resetMeetsTheInvariant : Obligations.ResetMeetsTheInvariant := by
  unfold Obligations.ResetMeetsTheInvariant
  exact ⟨⟨rfl, rfl, rfl⟩, ⟨nofun, nofun⟩, Nat.le_refl 0, rfl, rfl, nofun, nofun, Nat.zero_le 11⟩

/-- The ports of the model are no part of the invariant. -/
theorem State.Inv.with_host {s : State} (h : s.Inv) (rest : List HostEvent) : ({ s with host := rest } : State).Inv :=
  ⟨h.status, h.header, h.cursor, h.extent, h.ibuf, h.rx, h.tx, h.errCode⟩

theorem State.Inv.with_err {s : State} (h : s.Inv) {code : Byte} (hcode : code.toNat ≤ 11) (r : Result) :
    ({ s with err := code, result := r } : State).Inv :=
  ⟨h.status, h.header, h.cursor, h.extent, h.ibuf, h.rx, h.tx, hcode⟩

theorem State.Inv.read {s : State} (h : s.Inv) (r : Reg) : (s.read r).Inv := by
  rw [State.read]
  split <;> exact ⟨h.status, h.header, h.cursor, h.extent, h.ibuf, h.rx, h.tx, h.errCode⟩

/-- RXDEAD and HDRV are no copies of a context's `valid` bit: writing them keeps the rules of STATUS (R23). -/
theorem State.StatusValid.setFlag {s : State} (h : s.StatusValid) {f : StatusBit} (hf : f = .rxDead ∨ f = .hdrv)
    (v : Bool) : (s.setFlag f v).StatusValid := by
  obtain ⟨hhigh, hrx, htx⟩ := h
  refine ⟨(statusPut_high _ _ _).trans hhigh, ?_, ?_⟩
  · rw [State.flag_setFlag_other _ _ _ _ (by rcases hf with rfl | rfl <;> decide), hrx]; rfl
  · rw [State.flag_setFlag_other _ _ _ _ (by rcases hf with rfl | rfl <;> decide), htx]; rfl

/-- An error or refusal writes ERR with a code of R271 and at most RXDEAD of STATUS. -/
theorem State.Inv.raise {s : State} (h : s.Inv) (receive : Bool) (k : ErrKind) : (s.raise receive k).Inv := by
  by_cases hdies : (receive && !k.isRefusal) = true
  · obtain ⟨rfl, hkind⟩ : receive = true ∧ k.isRefusal = false := by simpa using hdies
    rw [State.raise_error s k hkind]
    have hhdrv : (s.setFlag .rxDead true).flag .hdrv = s.flag .hdrv := State.flag_setFlag_other _ _ _ _ (by decide)
    exact ⟨h.status.setFlag (.inl rfl) true, ⟨fun hset => h.header.1 (hhdrv.symm.trans hset), h.header.2⟩, h.cursor,
      h.extent, h.ibuf, h.rx, h.tx, k.code_le⟩
  · have hraise : s.raise receive k = { s with err := k.code, result := .none } := by
      simp [State.raise, Config.rxSticky, hdies]
    rw [hraise]
    exact h.with_err k.code_le .none

/-- Keying writes a permutation and the bit that copies its context's `valid` (R23, R36, R131). -/
theorem State.Inv.keyContext {s : State} (h : s.Inv) (d : Dir) (key : Bytes) : (keyContext d key s).Inv := by
  obtain ⟨hhigh, hrx, htx⟩ := h.status
  have hperm : contextValid (some (keySchedule key)) := by rintro _ ⟨⟩; exact keyScheduleWith_perm _ _
  have hhdrv : ((s.setCtx d (some (keySchedule key))).setFlag (validBit d) true).flag .hdrv = s.flag .hdrv := by
    rw [State.flag_setFlag_other _ _ _ _ (by cases d <;> decide), State.flag, State.setCtx_status]; rfl
  have hheader : (Machine.keyContext d key s).HeaderValid :=
    ⟨fun hset => by cases d <;> exact h.header.1 (hhdrv.symm.trans hset), by cases d <;> exact h.header.2⟩
  cases d with
  | rx =>
    exact ⟨⟨(statusPut_high _ _ _).trans hhigh, statusGet_put_same _ _ _,
      (statusGet_put_other _ _ _ _ (by decide)).trans htx⟩, hheader, h.cursor, h.extent, h.ibuf, hperm, h.tx,
      Nat.zero_le 11⟩
  | tx =>
    exact ⟨⟨(statusPut_high _ _ _).trans hhigh, (statusGet_put_other _ _ _ _ (by decide)).trans hrx,
      statusGet_put_same _ _ _⟩, hheader, h.cursor, h.extent, h.ibuf, h.rx, hperm, Nat.zero_le 11⟩

/-- A context advanced over some data is a permutation again, and stays keyed (R36, R135). -/
theorem contextValid_crypt {o : Option CipherState} {c : CipherState} (h : contextValid o) (hc : o = some c)
    (data : Bytes) : contextValid (some (crypt c data).2) := by
  rintro _ ⟨⟩
  exact crypt_perm data c (h c hc)

theorem State.Inv.setCtx_crypt {s : State} (h : s.Inv) {d : Dir} {c : CipherState} (hc : s.ctx d = some c)
    (data : Bytes) : (s.setCtx d (some (crypt c data).2)).Inv := by
  obtain ⟨hhigh, hrx, htx⟩ := h.status
  cases d with
  | rx =>
    exact ⟨⟨hhigh, hrx.trans (by rw [show s.ctxRx = some c from hc]; rfl), htx⟩, h.header, h.cursor, h.extent, h.ibuf,
      contextValid_crypt h.rx hc data, h.tx, h.errCode⟩
  | tx =>
    exact ⟨⟨hhigh, hrx, htx.trans (by rw [show s.ctxTx = some c from hc]; rfl)⟩, h.header, h.cursor, h.extent, h.ibuf, h.rx,
      contextValid_crypt h.tx hc data, h.errCode⟩

/-- A loaded buffer lists exactly its bytes, with the cursor at its start and no header read (R30, R150). -/
theorem State.Inv.load {s : State} (h : s.Inv) {b : Bytes} (hfits : Config.ibufFits b.length = true) :
    ({ s with ibuf := Memory.load b, ilen := b.length, cur := 0, status := s.status &&& 0xF7#8, err := 0,
              result := .none } : State).Inv := by
  have hhdrv : (s.setFlag .hdrv false).flag .hdrv = false := State.flag_setFlag s .hdrv false
  exact ⟨h.status.setFlag (.inr rfl) false, ⟨fun hset => absurd (hhdrv.symm.trans hset) (by decide), h.header.2⟩,
    Nat.zero_le _, hfits, Memory.fst_load b, h.rx, h.tx, Nat.zero_le 11⟩

/-- A header that has been read has a length of at least 1 (R25, R151). -/
theorem State.Inv.peek {s : State} (h : s.Inv) {total : U32} (hpos : 1 ≤ total.toNat) (op : Byte) (r : Result) :
    ({ s with len := total, opc := op, status := s.status ||| 0x08#8, err := 0, result := r } : State).Inv :=
  ⟨h.status.setFlag (.inr rfl) true, ⟨fun _ => hpos, h.header.2⟩, h.cursor, h.extent, h.ibuf, h.rx, h.tx,
    Nat.zero_le 11⟩

/-- A consumed frame lay within IBUF, and its count is 4 more than its length (R25, R28, R153). -/
theorem State.Inv.afterFrame {s : State} (h : s.Inv) {total : U32} (hpos : 1 ≤ total.toNat)
    (hfits : s.cur + (4 + total.toNat) ≤ s.ilen) {rx : Option CipherState} (hrx : contextValid rx)
    (hkeyed : s.ctxRx.isSome = rx.isSome) (op : Byte) (r : Result) :
    ({ s.afterFrame total op r with ctxRx := rx } : State).Inv := by
  obtain ⟨hhigh, hrxv, htxv⟩ := h.status.setFlag (f := .hdrv) (.inr rfl) true
  have hlt : total.toNat < 4294967296 := total.isLt
  have hcnt : (BitVec.ofNat 33 (4 + total.toNat)).toNat = 4 + total.toNat := by
    rw [BitVec.toNat_ofNat, Nat.mod_eq_of_lt (by omega)]
  refine ⟨⟨hhigh, hrxv.trans hkeyed, htxv⟩, ⟨fun _ => hpos, fun _ => ?_⟩, hfits, h.extent, h.ibuf, hrx, h.tx,
    Nat.zero_le 11⟩
  rw [show ({ s.afterFrame total op r with ctxRx := rx } : State).cnt.toNat = 4 + total.toNat from hcnt]
  omega

theorem contextValid_of_decodePayload {v : Variant} {p : Bytes} {rx rx' : Option CipherState} {cmd : Command}
    (h : decodePayload v p rx = .ok (cmd, rx')) (hvalid : contextValid rx) :
    contextValid rx' ∧ rx.isSome = rx'.isSome := by
  obtain ⟨-, ⟨-, rfl, -⟩ | ⟨-, c, hc, rfl, -⟩⟩ := decodePayload_ok h
  · exact ⟨hvalid, rfl⟩
  · exact ⟨contextValid_crypt hvalid hc p, by rw [hc]; rfl⟩

theorem contextValid_of_encodePayload {v : Command} {p : Bytes} {tx tx' : Option CipherState}
    (h : encodePayload v tx = .ok (p, tx')) (hvalid : contextValid tx) :
    contextValid tx' ∧ tx.isSome = tx'.isSome := by
  obtain ⟨-, ⟨-, rfl, -⟩ | ⟨m, j, c, -, hc, -, rfl⟩⟩ := encodePayload_ok h
  · exact ⟨hvalid, rfl⟩
  · exact ⟨contextValid_crypt hvalid hc _, by rw [hc]; rfl⟩

/-- Every instruction keeps the invariant. -/
theorem Effect.keeps_inv {s t : State} {i : Instr} (h : Effect s i t) (hinv : s.Inv) : t.Inv := by
  cases h with
  | fails _ k => exact hinv.raise _ k
  | answers h r => exact hinv.with_err (code := 0) (Nat.zero_le 11) r
  | keys d key => exact hinv.keyContext d key
  | keysPh d => exact hinv.keyContext d Config.phKey
  | ciphers h data => exact (hinv.setCtx_crypt h data).with_err (code := 0) (Nat.zero_le 11) _
  | loads h => exact hinv.load h
  | peeks h => exact hinv.peek (parseHeader_ok h).1 _ _
  | slices h =>
    obtain ⟨-, hfits, -, hlen⟩ := parseFrame_ok h
    exact hinv.afterFrame (by omega) hfits hinv.rx rfl _ _
  | accepts hi hrecv hdec =>
    obtain ⟨-, hpos, hfits⟩ := hrecv
    obtain ⟨hvalid, hkeyed⟩ := contextValid_of_decodePayload hdec hinv.rx
    exact hinv.afterFrame hpos hfits hvalid hkeyed _ _
  | sends h =>
    obtain ⟨hhigh, hrx, htx⟩ := hinv.status
    obtain ⟨hvalid, hkeyed⟩ := contextValid_of_encodePayload h hinv.tx
    exact ⟨⟨hhigh, hrx, htx.trans hkeyed⟩, hinv.header, hinv.cursor, hinv.extent, hinv.ibuf, hinv.rx, hvalid,
      Nat.zero_le 11⟩

/-- Settles O10: idling, reset, a read and a refused request keep the invariant, and so does every instruction's effect. -/
theorem stepKeepsTheInvariant : Obligations.StepKeepsTheInvariant := by
  unfold Obligations.StepKeepsTheInvariant
  intro s t hinv hstep
  rcases step_next hstep with rfl | ⟨rest, -, rfl⟩ | ⟨r, rest, rfl⟩ | ⟨rest, rfl⟩ | ⟨i, rest, heff⟩
  · exact hinv
  · exact State.Inv.with_host resetMeetsTheInvariant rest
  · exact (hinv.with_host rest).read r
  · exact (hinv.with_host rest).with_err (code := 11) (Nat.le_refl 11) .none
  · exact heff.keeps_inv (hinv.with_host rest)

/-! ### From a valid buffer every instruction goes on -/

theorem State.Inv.bufferValid {s : State} (h : s.Inv) : s.BufferValid := ⟨h.ibuf, h.cursor⟩

/-- In a valid buffer the frame at the cursor is whole or is a framing error: no byte without a value is read (R30). -/
theorem parseFrame_of_bufferValid {s : State} (hbuf : s.BufferValid) :
    parseFrame s = .error (.err .framingError) ∨ ∃ total op p, parseFrame s = .ok (total, op, p) := by
  by_cases hshort : s.ahead.length < 5
  · exact .inl (parseFrame_short hbuf hshort)
  obtain ⟨b0, b1, b2, b3, op, rest, hahead⟩ := exists_header_of_length (Nat.not_lt.1 hshort)
  by_cases hbad : lengthOf b0 b1 b2 b3 = 0 ∨ rest.length + 1 < lengthOf b0 b1 b2 b3
  · exact .inl (parseFrame_bad hbuf hahead hbad)
  · rw [← List.take_append_drop (lengthOf b0 b1 b2 b3 - 1) rest] at hahead
    exact .inr ⟨_, op, _, parseFrame_whole hbuf hahead (by rw [List.length_take]; omega)⟩

theorem parseHeader_of_bufferValid {s : State} (hbuf : s.BufferValid) :
    parseHeader s s.cur = .error (.err .framingError) ∨ ∃ total op, parseHeader s s.cur = .ok (total, op) := by
  by_cases hshort : s.ahead.length < 5
  · exact .inl (parseHeader_short hbuf hshort)
  obtain ⟨b0, b1, b2, b3, op, rest, hahead⟩ := exists_header_of_length (Nat.not_lt.1 hshort)
  rw [parseHeader_ahead hbuf hahead]
  split
  · exact .inl rfl
  · exact .inr ⟨_, op, rfl⟩

/-- A wire command reads no byte of IBUF: it goes on from every state. -/
theorem exec_frameInstr_goesOn (v : Variant) (total : U32) (p : Bytes) (s : State) :
    ∃ t, exec (frameInstr v total p) s = .next t := by
  rcases Bool.eq_false_or_eq_true (s.flag .rxDead) with hdead | hlive
  · exact ⟨_, exec_frameInstr_of_rxDead hdead v total p⟩
  by_cases hbad : total = 0 ∨ s.ilen < s.cur + (4 + total.toNat)
  · exact ⟨_, exec_frameInstr_of_badExtent hlive hbad v p⟩
  obtain ⟨hzero, hfits⟩ := not_or.1 hbad
  have hpos : total.toNat ≠ 0 := fun h => hzero (BitVec.eq_of_toNat_eq h)
  have hrecv : s.Receivable total := ⟨hlive, by omega, by omega⟩
  rw [exec_frameInstr]
  cases hdec : decodePayload v p s.ctxRx with
  | error k => exact ⟨_, receiveFrame_error hrecv hdec⟩
  | ok r => exact ⟨_, receiveFrame_ok hrecv hdec⟩

theorem exec_cmdDecode_goesOn {s : State} (hbuf : s.BufferValid) : ∃ t, exec .cmdDecode s = .next t := by
  rcases Bool.eq_false_or_eq_true (s.flag .rxDead) with hdead | hlive
  · exact ⟨_, exec_cmdDecode_of_rxDead hdead⟩
  rcases parseFrame_of_bufferValid hbuf with hparse | ⟨total, op, p, hparse⟩
  · exact ⟨_, exec_cmdDecode_of_noFrame hlive hparse⟩
  cases hop : variantOf op with
  | none => exact ⟨_, exec_cmdDecode_of_noVariant hlive hparse hop⟩
  | some v =>
    rw [exec_cmdDecode_of_variant hlive hparse hop, ← exec_frameInstr]
    exact exec_frameInstr_goesOn v total p s

theorem exec_frmDecode_goesOn {s : State} (hbuf : s.BufferValid) : ∃ t, exec .frmDecode s = .next t := by
  rcases Bool.eq_false_or_eq_true (s.flag .rxDead) with hdead | hlive
  · exact ⟨_, exec_frmDecode_of_rxDead hdead⟩
  rcases parseFrame_of_bufferValid hbuf with hparse | ⟨total, op, p, hparse⟩
  · exact ⟨_, exec_frmDecode_of_noFrame hlive hparse⟩
  · exact ⟨_, exec_frmDecode_of_frame hlive hparse⟩

theorem exec_hdrPeek_goesOn {s : State} (hbuf : s.BufferValid) : ∃ t, exec .hdrPeek s = .next t := by
  rcases Bool.eq_false_or_eq_true (s.flag .rxDead) with hdead | hlive
  · exact ⟨_, exec_hdrPeek_of_rxDead hdead⟩
  rcases parseHeader_of_bufferValid hbuf with hparse | ⟨total, op, hparse⟩
  · exact ⟨_, exec_hdrPeek_of_noHeader hlive hparse⟩
  · exact ⟨_, exec_hdrPeek_of_header hlive hparse⟩

/-- From a valid buffer no instruction ends in a fault or a refusal of the model. -/
theorem exec_goesOn (i : Instr) {s : State} (hbuf : s.BufferValid) : ∃ t, exec i s = .next t := by
  rcases instr_kinds i with hi | ⟨v, total, p, rfl⟩ | rfl | rfl | rfl | ⟨b, rfl⟩ | ⟨v, rfl⟩ | ⟨d, k, rfl⟩ | ⟨d, rfl⟩ |
    ⟨d, b, rfl⟩
  · obtain ⟨x, hx⟩ := exec_stateless i hi
    rw [hx]
    cases x with
    | error k => exact ⟨_, pureOp_error s k⟩
    | ok r => exact ⟨_, pureOp_ok s r⟩
  · exact exec_frameInstr_goesOn v total p s
  · exact exec_hdrPeek_goesOn hbuf
  · exact exec_frmDecode_goesOn hbuf
  · exact exec_cmdDecode_goesOn hbuf
  · rcases Bool.eq_false_or_eq_true (s.flag .rxDead) with hdead | hlive
    · exact ⟨_, exec_rxLoad_of_rxDead hdead b⟩
    · exact ⟨_, exec_rxLoad_of_rxLive hlive b⟩
  · cases henc : encodePayload v s.ctxTx with
    | error k => exact ⟨_, exec_cmdEncode_of_error henc⟩
    | ok r => exact ⟨_, exec_cmdEncode_of_ok henc⟩
  · exact ⟨_, rfl⟩
  · exact ⟨_, rfl⟩
  · cases hctx : s.ctx d with
    | none => exact ⟨_, exec_cCrypt_of_unkeyed hctx b⟩
    | some c => exact ⟨_, exec_cCrypt_of_keyed hctx b⟩

/-- Settles O11: what the host does next is nothing, reset, a read, a request that is refused, or an instruction, and each
goes on where the buffer is valid. -/
theorem noFaultFromTheInvariant : Obligations.NoFaultFromTheInvariant := by
  unfold Obligations.NoFaultFromTheInvariant
  intro s hinv
  match hhost : s.host with
  | [] => exact ⟨s, by rw [step, hhost]⟩
  | .reset :: rest => exact ⟨_, step_of_host_reset hhost⟩
  | .read r :: rest => exact ⟨_, step_of_host_read hhost⟩
  | .op r :: rest =>
    rw [State.SafeStep, step_of_host_op hhost]
    cases hdec : decodeOp r with
    | error e => exact ⟨_, stepOp_of_decodeOp_error hdec _⟩
    | ok i =>
      rw [stepOp_of_decodeOp_ok hdec]
      exact exec_goesOn _ (hinv.with_host rest).bufferValid

end Sys2Proof.Machine
end

section
/-! Which state an instruction writes (R22, R34, R42) and which instructions do not get in each other's way (R37, R68). -/

namespace Sys2Proof.Machine

/-- A decode gives another `CTX[RX]` only for a ProtocolHeader (R34, R170). -/
theorem eq_protocolHeader_of_decodePayload {v : Variant} {p : Bytes} {rx rx' : Option CipherState} {cmd : Command}
    (h : decodePayload v p rx = .ok (cmd, rx')) (hne : rx' ≠ rx) : v = .protocolHeader := by
  obtain ⟨-, ⟨-, heq, -⟩ | ⟨hv, -⟩⟩ := decodePayload_ok h
  · exact absurd heq hne
  · exact hv

/-- An encode gives another `CTX[TX]` only for a ProtocolHeader (R34, R170). -/
theorem eq_protocolHeader_of_encodePayload {v : Command} {p : Bytes} {tx tx' : Option CipherState}
    (h : encodePayload v tx = .ok (p, tx')) (hne : tx' ≠ tx) : ∃ m j, v = .protocolHeader m j := by
  obtain ⟨-, ⟨-, heq, -⟩ | ⟨m, j, c, hv, -⟩⟩ := encodePayload_ok h
  · exact absurd heq hne
  · exact ⟨m, j, hv⟩

/-- Settles O14: for each effect, the fields it writes, and that its instruction owns them. -/
theorem stateIsWrittenOnlyByItsOwners : Obligations.StateIsWrittenOnlyByItsOwners := by
  unfold Obligations.StateIsWrittenOnlyByItsOwners
  intro i s t hexec
  cases effect_of_exec hexec with
  | fails _ k => simp
  | answers h r => simp [State.succeeds]
  | keys d key => cases d <;> simp [keyContext, validBit]
  | keysPh d => cases d <;> simp [keyContext, validBit]
  | ciphers h data => cases ‹Dir› <;> simp [State.succeeds]
  | loads h => simp
  | peeks h => simp [Instr.receives]
  | slices h => simp [State.afterFrame, Instr.receives]
  | accepts hi hrecv hdec =>
    have hreceives : i.receives = true ∧ i ≠ .hdrPeek := by
      rcases hi with rfl | rfl
      · exact ⟨rfl, nofun⟩
      · exact ⟨instr_receives_frameInstr .., by cases ‹Variant› <;> nofun⟩
    refine ⟨fun _ => ⟨hreceives.1, rfl⟩, fun _ => ⟨hreceives.1, hreceives.2, rfl⟩, fun _ => ⟨.inl hreceives, rfl⟩,
      by simp [State.afterFrame], fun hrx => ⟨rfl, ?_⟩, absurd rfl, rfl, rfl⟩
    obtain rfl := eq_protocolHeader_of_decodePayload hdec hrx
    rcases hi with rfl | rfl
    · exact .inr (.inr (.inr (.inr ⟨rfl, rfl⟩)))
    · exact .inr (.inr (.inr (.inl ⟨_, _, rfl⟩)))
  | sends h =>
    refine ⟨by simp, by simp, absurd rfl, by simp, absurd rfl, fun htx => ⟨rfl, ?_⟩, rfl, rfl⟩
    obtain ⟨m, j, rfl⟩ := eq_protocolHeader_of_encodePayload h htx
    exact .inr (.inr (.inr ⟨m, j, rfl⟩))

/-- Settles O15: a stateless operation's one outcome is delivered, or raised without latch. -/
theorem statelessOperationsTouchOnlyErr : Obligations.StatelessOperationsTouchOnlyErr := by
  unfold Obligations.StatelessOperationsTouchOnlyErr
  intro i hi
  obtain ⟨x, hx⟩ := exec_stateless i hi
  cases x with
  | ok r => exact ⟨0, r, fun s => (hx s).trans (pureOp_ok s r)⟩
  | error k => exact ⟨k.code, .none, fun s => (hx s).trans (pureOp_error s k)⟩

/-! ### The transmit path (R68) -/

/-- What a transmit-path operation makes of `CTX[TX]`: its new value, ERR and the result. -/
def txOutcome : Instr → Option CipherState → Option CipherState × Byte × Result
  | .frmEncode op p, tx =>
    match frameBytes op p with
    | .ok f => (tx, 0, .bytes f)
    | .error k => (tx, k.code, .none)
  | .cmdEncode v, tx =>
    match encodePayload v tx with
    | .ok r => (r.2, 0, .bytes (frameOf (opcodeOf (variantOfCommand v)) r.1))
    | .error k => (tx, k.code, .none)
  | .cNew _ key, _ => (some (keySchedule key), 0, .none)
  | .cNewPh _, _ => (some (keySchedule Config.phKey), 0, .none)
  | .cCrypt _ data, some c => (some (crypt c data).2, 0, .bytes (crypt c data).1)
  | _, tx => (tx, ErrKind.contextNotKeyed.code, .none)

/-- STATUS after a transmit-path operation: keying sets TXV (R23, R131). -/
def txStatus : Instr → Byte → Byte
  | .cNew _ _, w => statusPut w .txv true
  | .cNewPh _, w => statusPut w .txv true
  | _, w => w

/-- The state after instruction `j` gave `CTX[TX]` the value `tx`, with ERR and the result port as given. -/
def State.transmit (s : State) (j : Instr) (tx : Option CipherState) (code : Byte) (r : Result) : State :=
  { s with ctxTx := tx, status := txStatus j s.status, err := code, result := r }

/-- A transmit-path operation reads `CTX[TX]` alone, and writes it, its STATUS copy, ERR and the result port (R37, R68). -/
theorem exec_onTransmitPath {j : Instr} (hj : j.onTransmitPath = true) (s : State) :
    exec j s = .next (s.transmit j (txOutcome j s.ctxTx).1 (txOutcome j s.ctxTx).2.1 (txOutcome j s.ctxTx).2.2) := by
  cases j with
  | frmEncode op p =>
    rw [exec_frmEncode, txOutcome]
    cases frameBytes op p <;> rfl
  | cmdEncode v =>
    rw [txOutcome]
    cases henc : encodePayload v s.ctxTx with
    | error k => exact exec_cmdEncode_of_error henc
    | ok r => exact exec_cmdEncode_of_ok henc
  | cNew d key =>
    obtain rfl : d = .tx := of_decide_eq_true hj
    rfl
  | cNewPh d =>
    obtain rfl : d = .tx := of_decide_eq_true hj
    rfl
  | cCrypt d data =>
    obtain rfl : d = .tx := of_decide_eq_true hj
    cases hctx : s.ctx .tx with
    | none =>
      have hout : txOutcome (.cCrypt .tx data) s.ctxTx = (s.ctxTx, 9, .none) := by
        rw [show s.ctxTx = none from hctx]; rfl
      rw [exec_cCrypt_of_unkeyed hctx, hout]
      rfl
    | some c =>
      rw [exec_cCrypt_of_keyed hctx, show s.ctxTx = some c from hctx]
      rfl
  | _ => cases hj

/-! ### The receive path beside it -/

section
variable (s : State) (j : Instr) (tx : Option CipherState) (code : Byte) (r : Result)

/-- Writing another STATUS field commutes with setting TXV. -/
theorem txStatus_statusPut {f : StatusBit} (hf : f ≠ .txv) (w : Byte) (v : Bool) :
    statusPut (txStatus j w) f v = txStatus j (statusPut w f v) := by
  cases j with
  | cNew d key => exact statusPut_comm w .txv f true v hf.symm
  | cNewPh d => exact statusPut_comm w .txv f true v hf.symm
  | _ => rfl

theorem State.setFlag_transmit {f : StatusBit} (hf : f ≠ .txv) (v : Bool) :
    (s.transmit j tx code r).setFlag f v = (s.setFlag f v).transmit j tx code r := by
  simp only [State.setFlag, State.transmit, txStatus_statusPut j hf]

theorem State.flag_rxDead_transmit : (s.transmit j tx code r).flag .rxDead = s.flag .rxDead := by
  cases j with
  | cNew d key => exact statusGet_put_other _ .txv _ true (by decide)
  | cNewPh d => exact statusGet_put_other _ .txv _ true (by decide)
  | _ => rfl

theorem requireRxLive_transmit : requireRxLive (s.transmit j tx code r) = requireRxLive s := by
  rw [requireRxLive, requireRxLive, State.flag_rxDead_transmit]

theorem State.raise_transmit (receive : Bool) (k : ErrKind) :
    (s.transmit j tx code r).raise receive k = (s.raise receive k).transmit j tx k.code .none := by
  by_cases h : (receive && !k.isRefusal) = true
  · simp [State.raise, State.transmit, Config.rxSticky, h, txStatus_statusPut]
  · simp [State.raise, State.transmit, Config.rxSticky, h]

theorem State.setHeader_transmit (total : U32) (op : Byte) :
    (s.transmit j tx code r).setHeader total op = (s.setHeader total op).transmit j tx code r :=
  State.setFlag_transmit { s with len := total, opc := op } j tx code r (by decide) true

theorem State.consumeFrame_transmit (total : U32) (op : Byte) :
    (s.transmit j tx code r).consumeFrame total op = (s.consumeFrame total op).transmit j tx code r := by
  rw [State.consumeFrame, State.setHeader_transmit]
  rfl

/-- The state with `CTX[TX]` and its STATUS copy as instruction `j` left them. -/
def State.beside (s : State) (j : Instr) (tx : Option CipherState) : State := s.transmit j tx s.err s.result

theorem keyContext_transmit (key : Bytes) :
    keyContext .rx key (s.transmit j tx code r) = (keyContext .rx key s).beside j tx :=
  congrArg (State.deliver · .none)
    (State.setFlag_transmit { s with ctxRx := some (keySchedule key) } (f := .rxv) j tx code r (by decide) true)

variable {s j tx code r} {receive : Bool} {t : State}

/-- An operation whose success takes the transmit path's writes along takes them along when it fails, too. -/
theorem settle_transmit {body body' : Except Stop State} (h : settle receive s body = .next t)
    (hbody : body' = body.map (·.beside j tx)) :
    settle receive (s.transmit j tx code r) body' = .next (t.beside j tx) := by
  subst hbody
  rcases settle_next h with rfl | ⟨k, rfl, rfl⟩
  · rfl
  · exact congrArg _ (State.raise_transmit s j tx code r receive k)

theorem settle_rxLive_transmit {rest rest' : Unit → Except Stop State}
    (h : settle receive s (requireRxLive s >>= rest) = .next t) (hrest : rest' () = (rest ()).map (·.beside j tx)) :
    settle receive (s.transmit j tx code r) (requireRxLive (s.transmit j tx code r) >>= rest') =
      .next (t.beside j tx) := by
  refine settle_transmit h ?_
  rw [requireRxLive_transmit]
  cases requireRxLive s with
  | error e => rfl
  | ok _ => exact hrest

theorem acceptCommand_transmit (v : Variant) (total : U32) (p : Bytes) :
    acceptCommand (s.transmit j tx code r) v total p = (acceptCommand s v total p).map (·.beside j tx) := by
  rw [acceptCommand, acceptCommand, State.consumeFrame_transmit]
  show (orErr (decodePayload v p s.ctxRx) >>= _) = _
  cases orErr (decodePayload v p s.ctxRx) <;> rfl

theorem onReceivePath_of_stateless {i : Instr} (h : i.stateless = true) : i.onReceivePath = false := by
  cases i <;> first | rfl | cases h

/-- A receive-path operation reads nothing the transmit path writes: it does beside it what it does alone (R37, R68). -/
theorem exec_onReceivePath_transmit {i : Instr} (hi : i.onReceivePath = true) (h : exec i s = .next t) :
    exec i (s.transmit j tx code r) = .next (t.beside j tx) := by
  rcases instr_kinds i with hstateless | ⟨v, total, p, rfl⟩ | rfl | rfl | rfl | ⟨b, rfl⟩ | ⟨v, rfl⟩ | ⟨d, k, rfl⟩ |
    ⟨d, rfl⟩ | ⟨d, b, rfl⟩
  · rw [onReceivePath_of_stateless hstateless] at hi; cases hi
  · rw [exec_frameInstr] at h ⊢
    refine settle_rxLive_transmit h ?_
    by_cases hzero : total = 0
    · rw [if_pos hzero, if_pos hzero]; rfl
    rw [if_neg hzero, if_neg hzero]
    by_cases hlong : s.ilen < s.cur + 4 + total.toNat
    · exact (if_pos hlong).trans (by rw [if_pos hlong]; rfl)
    · exact (if_neg hlong).trans (by rw [if_neg hlong, acceptCommand_transmit])
  · refine settle_rxLive_transmit h ?_
    show (parseHeader s s.cur >>= _) = _
    cases parseHeader s s.cur with
    | error e => rfl
    | ok header =>
      obtain ⟨total, op⟩ := header
      show Except.ok (((s.transmit j tx code r).setHeader total op).deliver (.header total op)) = _
      rw [State.setHeader_transmit]; rfl
  · refine settle_rxLive_transmit h ?_
    show (parseFrame s >>= _) = _
    cases parseFrame s with
    | error e => rfl
    | ok frame =>
      obtain ⟨total, op, p⟩ := frame
      show Except.ok (((s.transmit j tx code r).consumeFrame total op).deliver (.frame op p)) = _
      rw [State.consumeFrame_transmit]; rfl
  · refine settle_rxLive_transmit h ?_
    show (parseFrame s >>= _) = _
    cases parseFrame s with
    | error e => rfl
    | ok frame =>
      obtain ⟨total, op, p⟩ := frame
      simp only [except_ok_bind]
      cases variantOf op with
      | none => rfl
      | some v => exact acceptCommand_transmit v total p
  · refine settle_rxLive_transmit h ?_
    by_cases hfits : Config.ibufFits b.length = true
    · rw [if_pos hfits, if_pos hfits]
      exact congrArg (fun u => Except.ok (State.deliver u .none))
        (State.setFlag_transmit { s with ibuf := Memory.load b, ilen := b.length, cur := 0 } (f := .hdrv) j tx code r
          (by decide) false)
    · rw [if_neg hfits, if_neg hfits]; rfl
  · cases hi
  · obtain rfl : d = .rx := of_decide_eq_true hi
    cases h
    exact congrArg Host.Outcome.next (keyContext_transmit s j tx code r k)
  · obtain rfl : d = .rx := of_decide_eq_true hi
    cases h
    exact congrArg Host.Outcome.next (keyContext_transmit s j tx code r Config.phKey)
  · obtain rfl : d = .rx := of_decide_eq_true hi
    cases hctx : s.ctx .rx with
    | none =>
      rw [exec_cCrypt_of_unkeyed hctx] at h
      cases h
      exact exec_cCrypt_of_unkeyed (s := s.transmit j tx code r) (d := .rx) hctx b
    | some c =>
      rw [exec_cCrypt_of_keyed hctx] at h
      cases h
      exact exec_cCrypt_of_keyed (s := s.transmit j tx code r) (d := .rx) hctx b

end

/-- Settles O16: the transmit-path operation's outcome is a function of `CTX[TX]`, which the receive path neither reads nor
writes, and the receive-path operation's is the same beside it. -/
theorem receiveAndTransmitPathsCommute : Obligations.ReceiveAndTransmitPathsCommute := by
  unfold Obligations.ReceiveAndTransmitPathsCommute
  intro i j s si sj sij sji hi hj hexeci hexecj hij hji
  have hctx : si.ctxTx = s.ctxTx := by
    by_contra hne
    obtain ⟨-, -, -, -, -, htx, -⟩ := stateIsWrittenOnlyByItsOwners i s si hexeci
    obtain ⟨-, ⟨k, rfl⟩ | rfl | ⟨b, rfl⟩ | ⟨n, m, rfl⟩⟩ := htx hne <;> cases hi
  rw [exec_onTransmitPath hj] at hexecj hij
  cases hexecj
  cases hij
  rw [exec_onReceivePath_transmit hi hexeci] at hji
  cases hji
  rw [hctx]
  exact ⟨rfl, rfl, rfl, rfl, rfl⟩

end Sys2Proof.Machine
end

section
/-! The laws of the checksums (R123) and of the cipher engine (R132 to R137): the key schedule as a sequence of rounds, the
generator as a sequence of steps, continuation and self-inversion. -/

namespace Sys2Proof.Machine

/-! ### Checksums (R123) -/

theorem byteSum_eq_sum (b : Bytes) : byteSum b = (b.map BitVec.toNat).sum := by
  induction b with
  | nil => rfl
  | cons v rest ih => rw [byteSum, ih, List.map_cons, List.sum_cons]

theorem byteSum_append (a b : Bytes) : byteSum (a ++ b) = byteSum a + byteSum b := by
  simp only [byteSum_eq_sum, List.map_append, List.sum_append]

theorem sumU8_append (a b : Bytes) : sumU8 (a ++ b) = sumU8 a + sumU8 b := by
  rw [sumU8, byteSum_append, BitVec.ofNat_add]; rfl

theorem sumU16_append (a b : Bytes) : sumU16 (a ++ b) = sumU16 a + sumU16 b := by
  rw [sumU16, byteSum_append, BitVec.ofNat_add]; rfl

theorem sumU32_append (a b : Bytes) : sumU32 (a ++ b) = sumU32 a + sumU32 b := by
  rw [sumU32, byteSum_append, BitVec.ofNat_add]; rfl

theorem sumU8_cons (v : Byte) (rest : Bytes) : sumU8 (v :: rest) = v + sumU8 rest := by
  rw [sumU8, byteSum, BitVec.ofNat_add, BitVec.ofNat_toNat, BitVec.setWidth_eq]; rfl

/-- Changing one byte changes SUM8 by the difference (R123). -/
theorem sumU8_change (a c : Bytes) (v w : Byte) : sumU8 (a ++ w :: c) - sumU8 (a ++ v :: c) = w - v := by
  rw [sumU8_append, sumU8_append, sumU8_cons, sumU8_cons]
  ring

/-- Changing one byte changes SUM8 (R123). -/
theorem sumU8_change_ne (a c : Bytes) {v w : Byte} (h : w ≠ v) : sumU8 (a ++ w :: c) ≠ sumU8 (a ++ v :: c) := by
  intro heq
  have hdiff := sumU8_change a c v w
  rw [heq, sub_self] at hdiff
  exact h (sub_eq_zero.1 hdiff.symm)

/-- Settles O24: the sums are the exact sum reduced once, and the exact sum of a concatenation is the sum of the two. -/
theorem checksumLaws : Obligations.ChecksumLaws := by
  unfold Obligations.ChecksumLaws
  refine ⟨fun b => ?_, fun a b => ⟨sumU8_append a b, sumU16_append a b, sumU32_append a b⟩, fun a c v w =>
    ⟨sumU8_change a c v w, sumU8_change_ne a c⟩⟩
  rw [← byteSum_eq_sum]
  exact ⟨sumU8_toNat b, sumU16_toNat b, sumU32_toNat b⟩

/-! ### The key schedule (R132, R133) -/

/-- The table and `j` after the first `n` rounds of the key schedule. -/
def ksaState (k : Bytes) (n : Nat) : Vector Byte 256 × Byte := (List.range n).foldl (ksaRound k) (identityTable, 0)

theorem ksaState_succ (k : Bytes) (n : Nat) : ksaState k (n + 1) = ksaRound k (ksaState k n) n := by
  rw [ksaState, List.range_succ, List.foldl_append]; rfl

theorem ksaTable_eq_ksaState (k : Bytes) : ksaTable k = (ksaState k 256).1 := rfl

theorem identityTable_getElem {i : Nat} (h : i < 256) : identityTable[i] = BitVec.ofNat 8 i := Vector.getElem_ofFn h

/-- A table entry at a byte index, as an entry of the vector. -/
theorem tableAt_ofNat (t : Vector Byte 256) {i : Nat} (h : i < 256) : tableAt t (BitVec.ofNat 8 i) = t[i] := by
  simp only [tableAt, BitVec.toNat_ofNat, Nat.mod_eq_of_lt (show i < 2 ^ 8 from h)]

theorem tableSwap_ofNat (t : Vector Byte 256) {i : Nat} (h : i < 256) (j : Byte) :
    tableSwap t (BitVec.ofNat 8 i) j = t.swap i j.toNat h j.isLt := by
  simp only [tableSwap, BitVec.toNat_ofNat, Nat.mod_eq_of_lt (show i < 2 ^ 8 from h)]

theorem keySchedule_of_empty {key : Bytes} (h : truncNul key = []) : keySchedule key = ⟨identityTable, 0, 0⟩ := by
  rw [keySchedule, keyScheduleWith.eq_def, h]; rfl

theorem keySchedule_of_ne_nil {key : Bytes} (h : truncNul key ≠ []) :
    keySchedule key = ⟨ksaTable (truncNul key), 0, 0⟩ := by
  rw [keySchedule, keyScheduleWith.eq_def]
  split
  · next hnil => exact absurd hnil h
  · next hcons => rw [hcons]

/-- Settles O25: the tables and indices of the statement are those of `ksaState`, round after round. -/
theorem keyScheduleFollowsTheRounds : Obligations.KeyScheduleFollowsTheRounds := by
  unfold Obligations.KeyScheduleFollowsTheRounds
  intro key
  constructor
  · intro hempty
    rw [keySchedule_of_empty hempty]
    exact ⟨rfl, rfl, fun i h => identityTable_getElem h⟩
  · intro hkey
    refine ⟨fun n => (ksaState (truncNul key) n).1, fun n => (ksaState (truncNul key) n).2,
      fun i h => identityTable_getElem h, rfl, fun i h => ?_, ?_⟩
    · simp only [ksaState_succ, ksaRound, tableAt_ofNat _ h, tableSwap_ofNat _ h, and_self]
    · rw [keySchedule_of_ne_nil hkey, ksaTable_eq_ksaState]

/-! ### The generator (R135) -/

/-- The context after `n` steps of the generator. -/
def generate (c : CipherState) : Nat → CipherState
  | 0 => c
  | n + 1 => (keystreamStep (generate c n)).2

theorem generate_keystreamStep (c : CipherState) (n : Nat) : generate (keystreamStep c).2 n = generate c (n + 1) := by
  induction n with
  | zero => rfl
  | succ n ih => rw [generate, ih]; rfl

/-- The final context is the one after as many steps as there are bytes (R135). -/
theorem crypt_state_eq_generate (c : CipherState) (data : Bytes) : (crypt c data).2 = generate c data.length := by
  induction data generalizing c with
  | nil => rfl
  | cons v rest ih =>
    show (crypt (keystreamStep c).2 rest).2 = _
    rw [ih, generate_keystreamStep]; rfl

/-- Output byte `t` is data byte `t` xor the keystream byte of step `t + 1` (R135). -/
theorem crypt_getElem? {c : CipherState} {data : Bytes} {t : Nat} {v : Byte} (h : data[t]? = some v) :
    (crypt c data).1[t]? = some (v ^^^ (keystreamStep (generate c t)).1) := by
  induction data generalizing c t with
  | nil => simp at h
  | cons d rest ih =>
    cases t with
    | zero => cases h; rfl
    | succ t =>
      rw [List.getElem?_cons_succ] at h
      rw [← generate_keystreamStep]
      exact ih h

/-- Settles O26: the sequences of the statement are the fields of the generator's contexts. -/
theorem cryptFollowsTheGenerator : Obligations.CryptFollowsTheGenerator := by
  unfold Obligations.CryptFollowsTheGenerator
  intro c data
  exact ⟨fun t => (generate c t).table, fun t => (generate c t).x, fun t => (generate c t).y, rfl, rfl, rfl,
    fun t => ⟨rfl, rfl, rfl⟩, fun t v hv => crypt_getElem? hv, crypt_length c data, crypt_state_eq_generate c data⟩

/-! ### C_CRYPT on contexts (R136, R137) -/

theorem State.ctx_succeeds (s : State) (r : Result) (d : Dir) : (s.succeeds r).ctx d = s.ctx d := by cases d <;> rfl

theorem State.setCtx_succeeds_setCtx (s : State) (d : Dir) (c c' : Option CipherState) (r r' : Result) :
    ((((s.setCtx d c).succeeds r).setCtx d c').succeeds r') = (s.setCtx d c').succeeds r' := by cases d <;> rfl

/-- Settles O29: the second C_CRYPT goes on where the first left the context. -/
theorem cipherContinuation : Obligations.CipherContinuation := by
  unfold Obligations.CipherContinuation
  intro d a b s hkeyed
  obtain ⟨c, hc⟩ := Option.isSome_iff_exists.1 hkeyed
  have hsecond : ((s.setCtx d (some (crypt c a).2)).succeeds (.bytes (crypt c a).1)).ctx d = some (crypt c a).2 := by
    rw [State.ctx_succeeds, State.ctx_setCtx]
  refine ⟨_, _, _, _, exec_cCrypt_of_keyed hc a, rfl, exec_cCrypt_of_keyed hsecond b, rfl, ?_⟩
  rw [exec_cCrypt_of_keyed hc, crypt_append, State.setCtx_succeeds_setCtx]
  rfl

/-- Settles O30: the keystream does not depend on the data, so xor undoes itself and the contexts advance alike. -/
theorem cipherSelfInverse : Obligations.CipherSelfInverse := by
  unfold Obligations.CipherSelfInverse
  intro d e c data s t hs ht
  refine ⟨_, _, _, exec_cCrypt_of_keyed hs data, rfl, exec_cCrypt_of_keyed ht _, ?_, ?_⟩
  · show Result.bytes (crypt c (crypt c data).1).1 = _
    rw [crypt_crypt]
  · rw [State.ctx_succeeds, State.ctx_succeeds, State.ctx_setCtx, State.ctx_setCtx,
      crypt_state_eq c _ _ (crypt_length c data)]

end Sys2Proof.Machine
end

section
/-! KeyInfo records and Queries (R221 to R230): KI_ENCODE and KI_DECODE from the record codec, a Query's layout both ways,
and what a Query decode makes of any payload. -/

namespace Sys2Proof.Machine

/-! ### KI_ENCODE and KI_DECODE (R225 to R230) -/

theorem exec_kiEncode_of_legal {k : KeyInfo} (h : legalKeyInfo k = true) (s : State) :
    exec (.kiEncode k) s = .next (s.succeeds (.bytes (encodeKeyInfo k))) := by
  show pureOp s (if legalKeyInfo k then _ else _) = _
  rw [if_pos h, pureOp_ok]

theorem exec_kiEncode_of_illegal {k : KeyInfo} (h : ¬ legalKeyInfo k = true) (s : State) :
    exec (.kiEncode k) s = .next (s.failsWith 2) := by
  show pureOp s (if legalKeyInfo k then _ else _) = _
  rw [if_neg h, pureOp_error]; rfl

theorem not_legalKeyInfo_iff (k : KeyInfo) : ¬ legalKeyInfo k = true ↔
    16 < k.fileHash.length ∨ 0 ∈ k.fileHash ∨ 255 < k.name.length ∨ 11 < k.sharingSig.length ∨ 0 ∈ k.sharingSig ∨
      255 < k.bbsSig.length := by
  rw [legalKeyInfo_iff]
  simp only [not_and_or, not_le, not_not]

theorem exec_kiDecode (b : Bytes) (s : State) :
    exec (.kiDecode b) s = pureOp s ((decodeKeyInfo b).map fun r => .keyInfo r.1 (b.length - r.2.length)) := rfl

/-- Settles O52: a legal record reads back from its encoding and leaves what follows. -/
theorem keyInfoRoundTrip : Obligations.KeyInfoRoundTrip := by
  unfold Obligations.KeyInfoRoundTrip
  refine ⟨fun _ => rfl, fun k s t => ⟨fun hfields => ?_, fun hillegal =>
    exec_kiEncode_of_illegal ((not_legalKeyInfo_iff k).2 hillegal) s⟩⟩
  have hlegal := (legalKeyInfo_iff k).2 hfields
  refine ⟨encodeKeyInfo k, exec_kiEncode_of_legal hlegal s, encodeKeyInfo_length k hlegal, fun rest => ?_⟩
  rw [exec_kiDecode, pureOp_map_ok (decodeKeyInfo_encodeKeyInfo k rest hlegal), List.length_append,
    Nat.add_sub_cancel]

/-- The two bytes of a u16 have its value (R17). -/
theorem leU16_value (v : U16) :
    (BitVec.ofNat 8 v.toNat).toNat + 256 * (BitVec.ofNat 8 (v.toNat / 256)).toNat = v.toNat := by
  have hlt : v.toNat < 65536 := v.isLt
  rw [BitVec.toNat_ofNat, BitVec.toNat_ofNat]
  omega

/-- Settles O53: the encoder's fields in their order, the two checksum bytes named. -/
theorem keyInfoLayout : Obligations.KeyInfoLayout := by
  unfold Obligations.KeyInfoLayout
  intro k s hlegal
  refine ⟨_, _, leU16_value (sumU16 k.name), ?_⟩
  rw [exec_kiEncode_of_legal hlegal, encodeKeyInfo, nameField, pad, pad]
  simp only [List.append_assoc, List.cons_append, List.nil_append]
  rfl

/-- Settles O54: the record's two length bytes say whether it fits, and then what it reads as. -/
theorem kiDecodeReadsOneRecord : Obligations.KiDecodeReadsOneRecord := by
  unfold Obligations.KiDecodeReadsOneRecord
  refine ⟨fun _ => rfl, fun b s => ⟨fun nl bl hnl hbl hfits => ?_, fun hshort => ?_⟩⟩
  · obtain ⟨k, hdec, hat⟩ := decodeKeyInfo_of_fits hnl hbl hfits
    refine ⟨k, hat, ?_⟩
    rw [exec_kiDecode, pureOp_map_ok hdec, List.length_drop, Nat.sub_sub_self hfits]
  · have hnone : recordSize b = none := by
      by_contra hsome
      obtain ⟨m, hm⟩ := Option.ne_none_iff_exists'.1 hsome
      obtain ⟨nl, bl, hnl, hbl, rfl, hfits⟩ := recordSize_eq_some.1 hm
      exact absurd (hshort nl bl hnl hbl) (by omega)
    rw [exec_kiDecode, pureOp_map_error (decodeKeyInfo_none hnone)]
    rfl

/-! ### The layout of a Query (R221) -/

theorem legalCommand_query_iff (f0 f1 f2 f3 : Bool) (q : U32) (keyword sign : Bytes) (via : List ViaNode)
    (keys : List KeyInfo) : legalCommand (.query f0 f1 f2 f3 q keyword sign via keys) = true ↔
      keyword.length ≤ 255 ∧ sign.length ≤ 11 ∧ 0 ∉ sign ∧ via.length ≤ 255 ∧ keys.length ≤ 65535 ∧
        ∀ k ∈ keys, legalKeyInfo k = true := by
  simp only [legalCommand, Bool.and_eq_true, lpLegal_iff, fwLegal_iff, Config.querySignW, decide_eq_true_eq,
    List.all_eq_true, and_assoc]

theorem ofNat8_toNat {n : Nat} (h : n ≤ 255) : (BitVec.ofNat 8 n).toNat = n := by
  rw [BitVec.toNat_ofNat, Nat.mod_eq_of_lt (by omega)]

theorem ofNat16_toNat {n : Nat} (h : n ≤ 65535) : (BitVec.ofNat 16 n).toNat = n := by
  rw [BitVec.toNat_ofNat, Nat.mod_eq_of_lt (by omega)]

section
variable (b0 b1 b2 b3 : Byte) (q : U32) {keyword sig : Bytes} {via : List ViaNode} {keys : List KeyInfo}

/-- The bytes of a Query: the flags, the id, the keyword, the padded signature, and the two counted lists. -/
def queryBytes (keyword sig : Bytes) (via : List ViaNode) (keys : List KeyInfo) : Bytes :=
  [b0, b1, b2, b3] ++ leU32 q ++ [BitVec.ofNat 8 keyword.length] ++ keyword ++ sig ++ [BitVec.ofNat 8 via.length]
    ++ via.flatMap encodeViaNode ++ leU16 (BitVec.ofNat 16 keys.length) ++ keys.flatMap encodeKeyInfo

theorem le_queryBytes_length (hsig : sig.length = 11) : 23 ≤ (queryBytes b0 b1 b2 b3 q keyword sig via keys).length := by
  simp only [queryBytes, List.length_append, leU32_length, leU16_length, hsig, List.length_cons, List.length_nil]
  omega

/-- Each field is read where the layout has it, each list as long as its count, and what follows is not read. -/
theorem decQuery_queryBytes (hkeyword : keyword.length ≤ 255) (hsig : sig.length = 11) (hvia : via.length ≤ 255)
    (hkeys : keys.length ≤ 65535) (hlegal : ∀ k ∈ keys, legalKeyInfo k = true) (rest : Bytes) :
    decQuery (queryBytes b0 b1 b2 b3 q keyword sig via keys ++ rest) =
      .ok (.query (decide (b0 ≠ 0)) (decide (b1 ≠ 0)) (decide (b2 ≠ 0)) (decide (b3 ≠ 0)) q keyword (truncNul sig) via
        (keys.map fun k => { k with nameSum := sumU16 k.name })) := by
  have hreadVia (more : Bytes) :
      takeMany decodeViaNode via.length (via.flatMap encodeViaNode ++ more) = .ok (via, more) := by
    have h := takeMany_flatMap decodeViaNode encodeViaNode id via more fun n _ r => decodeViaNode_encodeViaNode n r
    rwa [List.map_id] at h
  have hreadKeys := takeMany_flatMap decodeKeyInfo encodeKeyInfo (fun k => { k with nameSum := sumU16 k.name }) keys rest
    fun k hk r => decodeKeyInfo_encodeKeyInfo k r (hlegal k hk)
  simp only [queryBytes, List.append_assoc, List.cons_append, List.nil_append, decQuery, takeBool_cons, boolOf_eq,
    takeU32_append, takeByte_cons, takeField_append _ _ _ _ (ofNat8_toNat hkeyword).symm, Config.querySignW,
    fwDec_append _ _ _ _ hsig, ofNat8_toNat hvia, hreadVia, takeU16_append, ofNat16_toNat hkeys, hreadKeys,
    except_ok_bind]
  rfl

/-- The payload of a legal Query is this layout, with flags of 0 or 1 and the signature padded with zeros. -/
theorem encPlain_query (f0 f1 f2 f3 : Bool) (sign : Bytes) (hkeys : keys.length ≤ 65535) :
    encPlain (.query f0 f1 f2 f3 q keyword sign via keys) =
      queryBytes (byteOf f0) (byteOf f1) (byteOf f2) (byteOf f3) q keyword (pad sign 11) via keys := by
  have hcount : leBytes 2 keys.length = leU16 (BitVec.ofNat 16 keys.length) := by rw [leU16, ofNat16_toNat hkeys]
  rw [encPlain, hcount]
  rfl

end

/-- Settles O49: the layout as the decoder reads it and as the encoder writes it, and what makes a Query illegal. -/
theorem queryFields : Obligations.QueryFields := by
  unfold Obligations.QueryFields
  intro q f0 f1 f2 f3 keyword sign via keys s
  refine ⟨fun hkeyword hsign hzero hvia hkeys hlegal => ⟨?_, ?_⟩, fun hillegal => ?_⟩
  · rintro total b0 b1 b2 b3 pad rest hrecv rfl rfl rfl rfl hlen hpad
    have hsig : (sign ++ pad).length = 11 := by rw [List.length_append, hlen]
    have hdec := decQuery_queryBytes b0 b1 b2 b3 q hkeyword hsig hvia hkeys
      (fun k hk => (legalKeyInfo_iff k).2 (hlegal k hk)) rest
    rw [truncNul_append_zero sign pad hzero hpad] at hdec
    have hmin := le_queryBytes_length b0 b1 b2 b3 q (keyword := keyword) (via := via) (keys := keys) hsig
    have hexec := exec_frameInstr_of_decPlain (v := .query) hrecv nofun
      (checkLength_ok _ _ (by rw [List.length_append]; exact Nat.le_add_right_of_le hmin) nofun) hdec
    simp only [queryBytes, List.append_assoc] at hexec ⊢
    exact hexec
  · rw [exec_cmdEncode_of_legal (v := .query ..) s nofun ((legalCommand_query_iff ..).2 ⟨hkeyword, hsign, hzero, hvia,
      hkeys, fun k hk => (legalKeyInfo_iff k).2 (hlegal k hk)⟩), encPlain_query q f0 f1 f2 f3 sign hkeys]
    simp only [queryBytes, pad, List.append_assoc]
    rfl
  · refine exec_cmdEncode_of_illegal s ?_
    rw [legalCommand_query_iff]
    simp only [not_and_or, not_le, not_not, not_forall, exists_prop, not_legalKeyInfo_iff]
    exact hillegal

end Sys2Proof.Machine
end

section
/-! What a Query decode makes of any payload of 23 bytes or more (R221, R274, R275): its fixed part up to `vianode_count`,
then its two lists of records. -/

namespace Sys2Proof.Machine

/-! ### The lists of records -/

/-- The rest of a Query from its ViaNodes on, with `vianode_count` given (R221). -/
def queryLists (make : List ViaNode → List KeyInfo → Command) (vc : Nat) (p : Bytes) : Except ErrKind Command := do
  let (via, p) ← takeMany decodeViaNode vc p
  let (kc, p) ← takeU16 .truncatedRecord p
  let (keys, _) ← takeMany decodeKeyInfo kc.toNat p
  return make via keys

section
variable {p : Bytes} {o vc : Nat} (make : List ViaNode → List KeyInfo → Command)

/-- The ViaNodes or `keyinfo_count` do not fit. -/
theorem queryLists_short (ho : o ≤ p.length) (h : p.length < o + 6 * vc + 2) :
    queryLists make vc (p.drop o) = .error .truncatedRecord := by
  obtain ⟨hfits, hshort⟩ := takeViaNodes p vc o ho
  by_cases hvia : o + 6 * vc ≤ p.length
  · obtain ⟨via, hread, -⟩ := hfits hvia
    rw [queryLists, hread, except_ok_bind]
    dsimp only
    rw [takeU16_short _ _ (by rw [List.length_drop]; omega), except_error_bind]
  · rw [queryLists, hshort (by omega), except_error_bind]

/-- The value of a u16 that stands as two bytes at an offset. -/
theorem takeU16_drop_value {n : Nat} (e : ErrKind) {c0 c1 : Byte} (h0 : p[n]? = some c0) (h1 : p[n + 1]? = some c1) :
    ∃ w : U16, takeU16 e (p.drop n) = .ok (w, p.drop (n + 2)) ∧ w.toNat = c0.toNat + 256 * c1.toNat := by
  obtain ⟨w, hread, hbytes⟩ := takeU16_drop e (p := p) (n := n) rfl (List.getElem?_eq_some_iff.1 h1).1
  rw [take_succ_drop 1 h0, take_one_drop h1] at hbytes
  refine ⟨w, hread, ?_⟩
  have hlt : w.toNat < 256 ^ 2 := w.isLt
  have hvalue := congrArg leNat hbytes
  rw [leU16, leNat_leBytes, Nat.mod_eq_of_lt hlt] at hvalue
  simpa [leNat] using hvalue

/-- With both counts known the ViaNodes are read, and then the KeyInfos are all there or the record is truncated. -/
theorem queryLists_of_counts {c0 c1 : Byte} (h0 : p[o + 6 * vc]? = some c0) (h1 : p[o + 6 * vc + 1]? = some c1) :
    (recordsEnd p (c0.toNat + 256 * c1.toNat) (o + 6 * vc + 2) = none →
      queryLists make vc (p.drop o) = .error .truncatedRecord) ∧
    ∀ e, recordsEnd p (c0.toNat + 256 * c1.toNat) (o + 6 * vc + 2) = some e → e ≤ p.length ∧
      ∃ (via : List ViaNode) (keys : List KeyInfo), queryLists make vc (p.drop o) = .ok (make via keys) ∧
        via.length = vc ∧
        (∀ (i : Nat) (n : ViaNode), via[i]? = some n → [n.addr.a, n.addr.b, n.addr.c, n.addr.d] ++ leU16 n.port =
          (p.drop (o + 6 * i)).take 6) ∧
        keys.length = c0.toNat + 256 * c1.toNat ∧
        ∀ (i : Nat) (k : KeyInfo), keys[i]? = some k →
          ∃ q : Nat, recordsEnd p i (o + 6 * vc + 2) = some q ∧ KeyInfoAt (p.drop q) k := by
  have hroom : o + 6 * vc + 1 < p.length := (List.getElem?_eq_some_iff.1 h1).1
  obtain ⟨via, hvia, hvialen, hviaAt⟩ := (takeViaNodes p vc o (by omega)).1 (by omega)
  obtain ⟨w, hcount, hvalue⟩ := takeU16_drop_value .truncatedRecord h0 h1
  obtain ⟨hwhole, htruncated⟩ := takeKeyInfos p (c0.toNat + 256 * c1.toNat) (o + 6 * vc + 2)
  simp only [queryLists, hvia, hcount, hvalue, except_ok_bind]
  refine ⟨fun hend => by rw [htruncated hend, except_error_bind], fun e hend => ?_⟩
  obtain ⟨keys, hkeys, hkeyslen, hle, hkeysAt⟩ := hwhole e hend
  exact ⟨hle hroom, via, keys, by rw [hkeys]; rfl, hvialen, hviaAt, hkeyslen, hkeysAt⟩

end

/-! ### The fixed part -/

section
variable {p : Bytes} {kl : Byte} (h23 : 23 ≤ p.length) (hkl : p[8]? = some kl)
include h23 hkl

/-- The flags, the id and the keyword's length lie within the 23 bytes: a Query decode comes to the keyword. -/
theorem decQuery_keyword : ∃ (f0 f1 f2 f3 : Bool) (q : U32),
    [f0, f1, f2, f3] = (p.take 4).map (fun v => decide (v ≠ 0)) ∧ leU32 q = (p.drop 4).take 4 ∧
    decQuery p = (do
      let (keyword, r) ← takeField kl.toNat .truncatedRecord (p.drop 9)
      let (sign, r) ← fwDec Config.querySignW .truncatedRecord r
      let (vc, r) ← takeByte .truncatedRecord r
      queryLists (.query f0 f1 f2 f3 q keyword sign) vc.toNat r) := by
  obtain ⟨b0, hb0⟩ := getElem?_of_lt (p := p) (n := 0) (by omega)
  obtain ⟨b1, hb1⟩ := getElem?_of_lt (p := p) (n := 1) (by omega)
  obtain ⟨b2, hb2⟩ := getElem?_of_lt (p := p) (n := 2) (by omega)
  obtain ⟨b3, hb3⟩ := getElem?_of_lt (p := p) (n := 3) (by omega)
  obtain ⟨q, hq, hqbytes⟩ := takeU32_drop .framingError (p := p) (n := 4) rfl (by omega)
  have hflags : p.take 4 = [b0, b1, b2, b3] := by
    show (p.drop 0).take 4 = _
    rw [take_succ_drop 3 hb0, take_succ_drop 2 hb1, take_succ_drop 1 hb2, take_one_drop hb3]
  refine ⟨_, _, _, _, q, by rw [hflags]; rfl, hqbytes, ?_⟩
  show decQuery (p.drop 0) = _
  simp only [decQuery, queryLists, takeBool_drop .framingError rfl hb0, takeBool_drop .framingError rfl hb1,
    takeBool_drop .framingError rfl hb2, takeBool_drop .framingError rfl hb3, hq,
    takeByte_drop .framingError rfl hkl, except_ok_bind]

/-- The keyword, the signature or `vianode_count` does not fit. -/
theorem decQuery_short (h : p.length ≤ 20 + kl.toNat) : decQuery p = .error .truncatedRecord := by
  obtain ⟨f0, f1, f2, f3, q, -, -, hdec⟩ := decQuery_keyword h23 hkl
  rw [hdec]
  refine takeField_bind_error (m := 12) (by rw [List.length_drop]; omega) fun keyword r hr => ?_
  dsimp only
  rw [fwDec, bind_assoc]
  refine takeField_bind_error (m := 1) hr fun sign r' hr' => ?_
  obtain rfl : r' = [] := List.length_eq_zero_iff.1 (by omega)
  rfl

/-- The fixed part fits: what it reads as, and the lists that follow it. -/
theorem decQuery_of_viaCount {vc : Byte} (hvc : p[20 + kl.toNat]? = some vc) :
    ∃ (f0 f1 f2 f3 : Bool) (q : U32) (sign : Bytes),
      [f0, f1, f2, f3] = (p.take 4).map (fun v => decide (v ≠ 0)) ∧ leU32 q = (p.drop 4).take 4 ∧
      IsCutAtZero sign ((p.drop (9 + kl.toNat)).take 11) ∧
      decQuery p = queryLists (.query f0 f1 f2 f3 q ((p.drop 9).take kl.toNat) sign) vc.toNat
        (p.drop (21 + kl.toNat)) := by
  have hroom : 20 + kl.toNat < p.length := (List.getElem?_eq_some_iff.1 hvc).1
  obtain ⟨f0, f1, f2, f3, q, hflags, hq, hdec⟩ := decQuery_keyword h23 hkl
  have hkeyword := takeField_drop .truncatedRecord (p := p) (n := 9) (m := kl.toNat) rfl (by omega)
  obtain ⟨sign, hsign, hcut⟩ := fwDec_drop .truncatedRecord (p := p) (n := 9 + kl.toNat) (n' := 20 + kl.toNat)
    (w := Config.querySignW) (by simp only [Config.querySignW]; omega) (by omega)
  have hcount := takeByte_drop .truncatedRecord (n' := 21 + kl.toNat) (by omega) hvc
  refine ⟨f0, f1, f2, f3, q, sign, hflags, hq, hcut, ?_⟩
  simp only [hdec, hkeyword, hsign, hcount, except_ok_bind]

end

theorem exec_query_truncated {s : State} {total : U32} (hrecv : s.Receivable total) {p : Bytes} (h23 : 23 ≤ p.length)
    (hdec : decQuery p = .error .truncatedRecord) : exec (.query total p) s = .next (s.diesWith 3) :=
  exec_frameInstr_of_decPlain_error (v := .query) (k := .truncatedRecord) hrecv nofun (checkLength_ok _ _ h23 nofun) hdec

/-- Settles O50: the fixed part fits or not, then the ViaNodes and the second count, then the KeyInfos. -/
theorem queryIsWholeOrTruncated : Obligations.QueryIsWholeOrTruncated := by
  unfold Obligations.QueryIsWholeOrTruncated
  intro total p s kl hrecv h23 hkl
  refine ⟨fun hshort => exec_query_truncated hrecv h23 (decQuery_short h23 hkl hshort), fun vc hvc => ?_⟩
  obtain ⟨f0, f1, f2, f3, q, sign, hflags, hq, hcut, hdec⟩ := decQuery_of_viaCount h23 hkl hvc
  have hroom : 20 + kl.toNat < p.length := (List.getElem?_eq_some_iff.1 hvc).1
  refine ⟨fun hshort => exec_query_truncated hrecv h23 ?_, fun c0 c1 hc0 hc1 => ?_⟩
  · rw [hdec, queryLists_short _ (by omega) (by omega)]
  have hend : 21 + kl.toNat + 6 * vc.toNat + 2 = 23 + kl.toNat + 6 * vc.toNat := by omega
  have hc1' : p[21 + kl.toNat + 6 * vc.toNat + 1]? = some c1 := by rw [← hc1]; congr 1; omega
  obtain ⟨htruncated, hwhole⟩ := queryLists_of_counts
    (.query f0 f1 f2 f3 q ((p.drop 9).take kl.toNat) sign) hc0 hc1'
  rw [hend] at htruncated hwhole
  refine ⟨fun hnone => exec_query_truncated hrecv h23 (hdec.trans (htruncated hnone)), fun e he => ?_⟩
  obtain ⟨hle, via, keys, hlists, hvialen, hviaAt, hkeyslen, hkeysAt⟩ := hwhole e he
  exact ⟨hle, f0, f1, f2, f3, q, _, sign, via, keys,
    exec_frameInstr_of_decPlain (v := .query) hrecv nofun (checkLength_ok _ _ h23 nofun) (hdec.trans hlists),
    hflags, hq, rfl, hcut, hvialen, hviaAt, hkeyslen, hkeysAt⟩

end Sys2Proof.Machine
end

section
/-! Round trips (R158, R199): a frame that was loaded, a Command that was encoded, a ProtocolHeader between two contexts in
step; and the operations straight after reset (R312). -/

namespace Sys2Proof.Machine

/-! ### A loaded buffer and a frame at the cursor -/

/-- The state a successful RX_LOAD leaves (R150). -/
def State.loaded (s : State) (b : Bytes) : State :=
  { s with ibuf := Memory.load b, ilen := b.length, cur := 0, status := s.status &&& 0xF7#8, err := 0, result := .none }

theorem exec_rxLoad_of_fits {s : State} (hlive : s.flag .rxDead = false) {b : Bytes}
    (hfits : Config.ibufFits b.length = true) : exec (.rxLoad b) s = .next (s.loaded b) := by
  rw [exec_rxLoad_of_rxLive hlive, if_pos hfits]; rfl

theorem State.loaded_bufferValid (s : State) (b : Bytes) : (s.loaded b).BufferValid :=
  ⟨Memory.fst_load b, Nat.zero_le _⟩

theorem State.loaded_ahead (s : State) (b : Bytes) : (s.loaded b).ahead = b := Memory.snd_load b

theorem State.loaded_flag_rxDead (s : State) (b : Bytes) : (s.loaded b).flag .rxDead = s.flag .rxDead :=
  statusGet_put_other s.status .hdrv .rxDead false (by decide)

theorem frameOf_length (op : Byte) (p : Bytes) : (frameOf op p).length = 5 + p.length := by
  simp only [frameOf, List.length_append, leU32_length, List.length_cons, List.length_nil]

theorem ofNat32_toNat {n : Nat} (h : n ≤ 4294967295) : (BitVec.ofNat 32 n).toNat = n := by
  rw [BitVec.toNat_ofNat, Nat.mod_eq_of_lt (by omega)]

/-- A frame at the cursor, whatever follows it, is parsed whole (R153). -/
theorem parseFrame_of_ahead_frameOf {s : State} (hbuf : s.BufferValid) {op : Byte} {p more : Bytes}
    (hlen : 1 + p.length ≤ 4294967295) (hahead : s.ahead = frameOf op p ++ more) :
    parseFrame s = .ok (BitVec.ofNat 32 (1 + p.length), op, p) := by
  obtain ⟨b0, b1, b2, b3, hvalue, hframe⟩ := frameOf_eq_cons op hlen
  rw [hframe] at hahead
  exact parseFrame_whole hbuf hahead hvalue

theorem parseFrame_loaded_frameOf (s : State) (op : Byte) {p : Bytes} (hlen : 1 + p.length ≤ 4294967295) :
    parseFrame (s.loaded (frameOf op p)) = .ok (BitVec.ofNat 32 (1 + p.length), op, p) :=
  parseFrame_of_ahead_frameOf (State.loaded_bufferValid s _) (more := []) hlen
    (by rw [State.loaded_ahead, List.append_nil])

/-- Settles O36: the loaded frame lies whole at the cursor. -/
theorem frameRoundTrip : Obligations.FrameRoundTrip := by
  unfold Obligations.FrameRoundTrip
  intro op p s hlen hfits hlive
  have hlen' : 1 + p.length ≤ 4294967295 := by omega
  have hencode : exec (.frmEncode op p) s = .next (s.succeeds (.bytes (frameOf op p))) := by
    rw [exec_frmEncode, pureOp_map_ok (frameBytes_ok op p hlen')]
  have hload := exec_rxLoad_of_fits (s := s.succeeds (.bytes (frameOf op p))) (b := frameOf op p) hlive
    (by rw [frameOf_length]; exact hfits)
  have hdecode := exec_frmDecode_of_frame ((State.loaded_flag_rxDead _ _).trans hlive)
    (parseFrame_loaded_frameOf (s.succeeds (.bytes (frameOf op p))) op hlen')
  refine ⟨_, _, _, _, hencode, rfl, hload, hdecode, rfl, rfl, ?_⟩
  show 0 + (4 + (BitVec.ofNat 32 (1 + p.length)).toNat) = 0 + (5 + p.length)
  rw [ofNat32_toNat hlen']
  omega

/-! ### A Command decodes from its encoding (R199) -/

theorem decide_byteOf_ne_zero (f : Bool) : decide (byteOf f ≠ 0) = f := by rw [← boolOf_eq, boolOf_byteOf]

/-- The payload of a legal value has a length its variant accepts, and its decoder reads the value back. -/
theorem decPlain_encPlain {v : Command} (hlegal : legalCommand v = true) (hv : variantOfCommand v ≠ .protocolHeader) :
    checkLength (variantOfCommand v) (encPlain v) = .ok () ∧
      decPlain (variantOfCommand v) (encPlain v) = .ok v.withNameSums := by
  cases v with
  | protocolHeader m j => exact absurd rfl hv
  | speed w =>
    have hdec := decSpeed_append w []
    rw [List.append_nil] at hdec
    exact ⟨rfl, hdec⟩
  | bbsPort w =>
    have hdec := decBbsPort_append w []
    rw [List.append_nil] at hdec
    exact ⟨rfl, hdec⟩
  | connectionType link b1 b2 b3 =>
    refine ⟨rfl, ?_⟩
    show decConnectionType [linkCode link, byteOf b1, byteOf b2, byteOf b3] = _
    rw [decConnectionType_cons, linkOf_linkCode, decide_byteOf_ne_zero, decide_byteOf_ne_zero, decide_byteOf_ne_zero]
    rfl
  | nodeDetails addr port h w0 w1 w2 =>
    obtain ⟨hh, h0, h1, h2⟩ := (legalCommand_nodeDetails_iff ..).1 hlegal
    have hcheck := checkLength_nodeDetails addr.a addr.b addr.c addr.d (lenByte h.length) (lenByte w0.length)
      (lenByte w1.length) (lenByte w2.length) port (h ++ w0 ++ w1 ++ w2)
    have hdec := decNodeDetails_of_fits addr.a addr.b addr.c addr.d port [] (lenByte_toNat _ hh).symm
      (lenByte_toNat _ h0).symm (lenByte_toNat _ h1).symm (lenByte_toNat _ h2).symm
    rw [List.append_nil] at hdec
    simp only [← List.append_assoc] at hcheck hdec
    exact ⟨hcheck, hdec⟩
  | anotherNode addr sp bp f speed w0 w1 w2 =>
    obtain ⟨h0, h1, h2⟩ := (legalCommand_anotherNode_iff ..).1 hlegal
    have hcheck := checkLength_anotherNode addr.a addr.b addr.c addr.d (byteOf f) (lenByte w0.length)
      (lenByte w1.length) (lenByte w2.length) sp bp speed (w0 ++ w1 ++ w2)
    have hdec := decAnotherNode_of_fits addr.a addr.b addr.c addr.d (byteOf f) sp bp speed [] (lenByte_toNat _ h0).symm
      (lenByte_toNat _ h1).symm (lenByte_toNat _ h2).symm
    rw [List.append_nil, decide_byteOf_ne_zero] at hdec
    simp only [← List.append_assoc] at hcheck hdec
    exact ⟨hcheck, hdec⟩
  | fileRequest w x y hash z =>
    have hhash := (legalCommand_fileRequest_iff ..).1 hlegal
    have hdec := decFileRequest_append w x y z hhash []
    rw [List.append_nil] at hdec
    refine ⟨checkLength_ok _ _ ?_ nofun, hdec⟩
    simp only [variantOfCommand, minPayload, encPlain, List.length_append, leU32_length, hhash]
    omega
  | fileResponse w x hash data =>
    obtain ⟨hhash, hdata⟩ := (legalCommand_fileResponse_iff ..).1 hlegal
    have hdec := decFileResponse_append w x hhash data
    rw [List.take_of_length_le hdata] at hdec
    refine ⟨checkLength_ok _ _ ?_ nofun, hdec⟩
    simp only [variantOfCommand, minPayload, encPlain, List.length_append, leU32_length, hhash]
    omega
  | conditionalDiffusionRequest keyword sign q =>
    obtain ⟨hk, hk0, hs, hs0⟩ := (legalCommand_conditionalDiffusionRequest_iff ..).1 hlegal
    have hdec := decConditionalDiffusionRequest_append q (pad_length keyword 255 hk) (pad_length sign 17 hs)
    rw [truncNul_pad keyword 255 hk0, truncNul_pad sign 17 hs0] at hdec
    have hlen : (encPlain (.conditionalDiffusionRequest keyword sign q)).length = 276 := by
      simp only [encPlain, Config.cdrKeywordW, Config.cdrSignW, List.length_append, leU32_length,
        pad_length keyword 255 hk, pad_length sign 17 hs]
    exact ⟨checkLength_ok _ _ hlen.ge fun _ => hlen, hdec⟩
  | query f0 f1 f2 f3 q keyword sign via keys =>
    obtain ⟨hkeyword, hsign, hzero, hvia, hkeys, hkeysLegal⟩ := (legalCommand_query_iff ..).1 hlegal
    have hpad := pad_length sign 11 hsign
    have hdec := decQuery_queryBytes (byteOf f0) (byteOf f1) (byteOf f2) (byteOf f3) q hkeyword hpad hvia hkeys
      hkeysLegal []
    rw [List.append_nil, truncNul_pad sign 11 hzero, decide_byteOf_ne_zero, decide_byteOf_ne_zero, decide_byteOf_ne_zero,
      decide_byteOf_ne_zero, ← encPlain_query q f0 f1 f2 f3 sign hkeys] at hdec
    refine ⟨checkLength_ok _ _ ?_ nofun, hdec⟩
    rw [encPlain_query q f0 f1 f2 f3 sign hkeys]
    exact le_queryBytes_length _ _ _ _ q hpad
  | _ => exact ⟨rfl, rfl⟩

/-- With a frame of variant `v` at the cursor CMD_DECODE is the receipt of that variant's wire command (R27, R154). -/
theorem exec_cmdDecode_of_ahead_frameOf {s : State} (hbuf : s.BufferValid) (hlive : s.flag .rxDead = false) {v : Variant}
    {p more : Bytes} (hlen : 1 + p.length ≤ 4294967295) (hahead : s.ahead = frameOf (opcodeOf v) p ++ more) :
    s.Receivable (BitVec.ofNat 32 (1 + p.length)) ∧
      exec .cmdDecode s = exec (frameInstr v (BitVec.ofNat 32 (1 + p.length)) p) s := by
  have hparse := parseFrame_of_ahead_frameOf hbuf hlen hahead
  refine ⟨State.receivable_of_parseFrame hlive hparse, ?_⟩
  rw [exec_cmdDecode_of_variant hlive hparse (variantOf_opcodeOf v), exec_frameInstr]

theorem frameOf_length_eq_total (op : Byte) {p : Bytes} (hlen : 1 + p.length ≤ 4294967295) :
    4 + (BitVec.ofNat 32 (1 + p.length)).toNat = (frameOf op p).length := by
  rw [ofNat32_toNat hlen, frameOf_length]; omega

/-- Settles O37: the frame is received for its own variant, whose decoder reads the payload back. -/
theorem commandRoundTrip : Obligations.CommandRoundTrip := by
  unfold Obligations.CommandRoundTrip
  intro v s hlegal hne
  have hv : variantOfCommand v ≠ .protocolHeader := by
    cases v with
    | protocolHeader m j => exact absurd rfl (hne m j)
    | _ => nofun
  have hlen := encPlain_length_le v hlegal
  obtain ⟨hcheck, hdec⟩ := decPlain_encPlain hlegal hv
  refine ⟨_, exec_cmdEncode_of_legal s hv hlegal, fun r more hbuf hlive hahead => ?_⟩
  obtain ⟨hrecv, hexec⟩ := exec_cmdDecode_of_ahead_frameOf hbuf hlive hlen hahead
  exact ⟨_, frameOf_length_eq_total _ hlen, hexec.trans (exec_frameInstr_of_decPlain hrecv hv hcheck hdec)⟩

/-- Settles O38: the receiver's context deciphers what the sender's enciphered, and both advance over the same number of
bytes. -/
theorem protocolHeaderRoundTrip : Obligations.ProtocolHeaderRoundTrip := by
  unfold Obligations.ProtocolHeaderRoundTrip
  intro m j c s hj hctx
  have hlen : (crypt c (leU32 m ++ j)).1.length = 4 + j.length := by
    rw [crypt_length, List.length_append, leU32_length]
  have hfits : 1 + (crypt c (leU32 m ++ j)).1.length ≤ 4294967295 := by omega
  have hencode := exec_cmdEncode_of_ok (v := .protocolHeader m j) (s := s)
    (by rw [hctx, encodePayload_protocolHeader_keyed c m hj])
  refine ⟨_, _, hencode, rfl, rfl, rfl, ?_, fun r more hbuf hlive hahead hrx => ?_⟩
  · rw [frameOf_length, hlen]; omega
  · obtain ⟨hrecv, hexec⟩ := exec_cmdDecode_of_ahead_frameOf (v := .protocolHeader) hbuf hlive hfits hahead
    refine ⟨_, frameOf_length_eq_total _ hfits, ?_⟩
    rw [hexec, exec_frameInstr, receiveFrame_ok hrecv (by rw [hrx, decodePayload_protocolHeader_keyed (crypt_crypt c _)]),
      crypt_state_eq c _ _ (crypt_length c _)]
    rfl

/-! ### Straight after reset (R312) -/

theorem reset_bufferValid : State.reset.BufferValid := ⟨rfl, Nat.le_refl 0⟩

/-- Settles O59: after reset nothing lies ahead and no context is keyed. -/
theorem straightAfterReset : Obligations.StraightAfterReset := by
  unfold Obligations.StraightAfterReset
  have hshort : State.reset.ahead.length < 5 := by decide
  refine ⟨fun i hi => ?_, fun d b => ?_, fun m j hj => ?_, fun total p f s htotal hfits hf hload => ?_⟩
  · simp only [List.mem_cons, List.not_mem_nil, or_false] at hi
    rcases hi with rfl | rfl | rfl
    · exact exec_hdrPeek_of_noHeader rfl (parseHeader_short reset_bufferValid hshort)
    · exact exec_frmDecode_of_noFrame rfl (parseFrame_short reset_bufferValid hshort)
    · exact exec_cmdDecode_of_noFrame rfl (parseFrame_short reset_bufferValid hshort)
  · exact exec_cCrypt_of_unkeyed (by cases d <;> rfl) b
  · exact exec_cmdEncode_of_error (k := .contextNotKeyed) (encodePayload_protocolHeader_unkeyed m hj)
  · have hlt : total.toNat < 4294967296 := total.isLt
    have hframe : f = frameOf 0 p := by
      rw [hf, frameOf, ← htotal, BitVec.ofNat_toNat, BitVec.setWidth_eq]
    have hflen : Config.ibufFits f.length = true := by rw [hframe, frameOf_length]; exact hfits
    rw [exec_rxLoad_of_fits rfl hflen] at hload
    cases hload
    obtain ⟨hrecv, hexec⟩ := exec_cmdDecode_of_ahead_frameOf (v := .protocolHeader) (more := [])
      (State.loaded_bufferValid State.reset f) ((State.loaded_flag_rxDead _ _).trans rfl) (p := p) (by omega)
      (by rw [State.loaded_ahead, hframe, List.append_nil]; rfl)
    rw [hexec]
    exact (protocolHeaderUsesTheDirectionsContext.1 _ p _ hrecv).1 rfl

end Sys2Proof.Machine
end

section
/-! Address tokens (R251 to R258): what TOK_PACK writes, what TOK_UNPACK makes of any text, and what one replaced character
does to a packed token. -/

namespace Sys2Proof.Machine

/-! ### TOK_PACK (R251) -/

theorem exec_tokPack (a : Bytes) (s : State) : exec (.tokPack a) s = .next (s.succeeds (.bytes (tokPack a))) := rfl

theorem exec_tokUnpack (t : Bytes) (s : State) : exec (.tokUnpack t) s = pureOp s ((tokUnpack t).map .bytes) := rfl

theorem mem_hexAlphabet_of_mem_hexEnc {b : Bytes} {c : Byte} (h : c ∈ hexEnc b) : c ∈ hexAlphabet := by
  induction b with
  | nil => simp [hexEnc] at h
  | cons v rest ih =>
    have hv := v.isLt
    rcases List.mem_cons.1 h with rfl | h
    · exact hexDigit_mem _ (by omega)
    rcases List.mem_cons.1 h with rfl | h
    · exact hexDigit_mem _ (by omega)
    · exact ih h

/-- The bytes a token carries after `@`: the checksum and the enciphered text. -/
def tokenBytes (a : Bytes) : Bytes := sumU8 a :: cryptFresh (tokenKey (sumU8 a)) a

theorem tokPack_eq_cons (a : Bytes) : tokPack a = 0x40 :: hexEnc (tokenBytes a) := rfl

theorem tokPack_length (a : Bytes) : (tokPack a).length = 3 + 2 * a.length := by
  rw [tokPack_eq_cons, List.length_cons, hexEnc_length, tokenBytes, List.length_cons, cryptFresh_length]
  omega

theorem hexDec_drop_tokPack (a : Bytes) : hexDec ((tokPack a).drop 1) = .ok (tokenBytes a) := hexDec_hexEnc _

/-- Settles O55: the characters after `@` are the hex text of the checksum and the enciphered text. -/
theorem tokPackBuildsTheToken : Obligations.TokPackBuildsTheToken := by
  unfold Obligations.TokPackBuildsTheToken
  exact ⟨fun _ => rfl, fun a s => ⟨tokPack a, exec_tokPack a s, tokPack_length a, rfl,
    fun c hc => mem_hexAlphabet_of_mem_hexEnc hc, hexDec_drop_tokPack a⟩⟩

/-! ### TOK_UNPACK (R253) -/

theorem tokUnpack_of_badForm {t : Bytes} (h : t.length < 20 ∨ t.head? ≠ some 0x40) :
    tokUnpack t = .error .tokenFormatError := by
  rw [tokUnpack, Config.tokenMin, if_pos h]

theorem not_badForm {t : Bytes} (hlen : 20 ≤ t.length) (hhead : t.head? = some 0x40) :
    ¬ (t.length < 20 ∨ t.head? ≠ some 0x40) := not_or.2 ⟨Nat.not_lt.2 hlen, not_not.2 hhead⟩

/-- Hex text reads as bytes or is EncodingError, nothing else (R101). -/
theorem hexDec_ok_or_error (t : Bytes) : (∃ b, hexDec t = .ok b) ∨ hexDec t = .error .encodingError := by
  by_cases hbad : t.length % 2 = 1 ∨ ∃ c ∈ t, ¬ IsHexChar c
  · exact .inr (hexDec_error hbad)
  · obtain ⟨heven, hhex⟩ := not_or.1 hbad
    push Not at hhex
    obtain ⟨b, hb, -⟩ := hexPairs_of_isHexChar (by omega) hhex
    exact .inl ⟨b, (hexDec_of_even (by omega)).trans hb⟩

/-- An error in either hex part of a token of the right form is EncodingError (R253). -/
theorem tokUnpack_of_hexDec_error {t : Bytes} (hlen : 20 ≤ t.length) (hhead : t.head? = some 0x40)
    (h : hexDec ((t.drop 1).take 2) = .error .encodingError ∨ hexDec (t.drop 3) = .error .encodingError) :
    tokUnpack t = .error .encodingError := by
  rw [tokUnpack, Config.tokenMin, if_neg (not_badForm hlen hhead)]
  rcases hexDec_ok_or_error ((t.drop 1).take 2) with ⟨cb, hcb⟩ | hcb
  · rw [hcb, except_ok_bind, h.resolve_left (by rw [hcb]; nofun), except_error_bind]
  · rw [hcb, except_error_bind]

/-- A token of the right form whose hex parts read as `c` and `enc` (R253). -/
theorem tokUnpack_of_hexDec_ok {t enc : Bytes} {c : Byte} (hlen : 20 ≤ t.length) (hhead : t.head? = some 0x40)
    (hc : hexDec ((t.drop 1).take 2) = .ok [c]) (henc : hexDec (t.drop 3) = .ok enc) :
    tokUnpack t = if sumU8 (cryptFresh (tokenKey c) enc) ≠ c then .error .checksumMismatch
      else .ok (cryptFresh (tokenKey c) enc) := by
  rw [tokUnpack, Config.tokenMin, if_neg (not_badForm hlen hhead), hc, except_ok_bind, henc]
  rfl

/-- The first pair of a hex text is its first byte, and the rest reads as the rest. -/
theorem hexDec_cons_cons_ok {hi lo c : Byte} {rest enc : Bytes} (h : hexDec (hi :: lo :: rest) = .ok (c :: enc)) :
    hexDec [hi, lo] = .ok [c] ∧ hexDec rest = .ok enc := by
  rw [hexDec] at h
  split at h
  · cases h
  next heven =>
  simp only [List.length_cons] at heven
  rw [hexPairs] at h
  split at h
  · next x y hx hy =>
    obtain ⟨bs, hbs, heq⟩ := except_bind_ok h
    cases heq
    rw [hexDec_of_even (t := rest) (by omega)]
    exact ⟨by rw [hexDec_of_even (by simp)]; simp only [hexPairs, hx, hy]; rfl, hbs⟩
  · cases h

/-- The characters of a token: `@`, the two of the checksum, and the ciphertext's. -/
theorem exists_token_parts {t : Bytes} (hlen : 20 ≤ t.length) :
    ∃ hi lo rest, t.drop 1 = hi :: lo :: rest ∧ t.drop 3 = rest := by
  obtain ⟨hi, hhi⟩ := getElem?_of_lt (p := t) (n := 1) (by omega)
  obtain ⟨lo, hlo⟩ := getElem?_of_lt (p := t) (n := 2) (by omega)
  obtain ⟨h1, rfl⟩ := List.getElem?_eq_some_iff.1 hhi
  obtain ⟨h2, rfl⟩ := List.getElem?_eq_some_iff.1 hlo
  exact ⟨_, _, _, by rw [List.drop_eq_getElem_cons h1, List.drop_eq_getElem_cons h2], rfl⟩

/-- Settles O56: the form is tested first, then both hex parts, then the checksum. -/
theorem tokUnpackErrorsInOrder : Obligations.TokUnpackErrorsInOrder := by
  unfold Obligations.TokUnpackErrorsInOrder
  refine ⟨fun _ => rfl, fun t s => ⟨fun hbad => ?_, fun hlen hhead hbad => ?_, fun c enc hlen hhead hdec => ?_⟩⟩
  · rw [exec_tokUnpack, pureOp_map_error (tokUnpack_of_badForm hbad)]; rfl
  · obtain ⟨hi, lo, rest, hdrop, hrest⟩ := exists_token_parts hlen
    have herror : tokUnpack t = .error .encodingError := by
      refine tokUnpack_of_hexDec_error hlen hhead ?_
      rw [hdrop, hrest]
      rcases hbad with heven | ⟨c, hc, hnot⟩
      · have hlen3 := congrArg List.length hrest
        rw [List.length_drop] at hlen3
        exact .inr (hexDec_error (.inl (by omega)))
      · rw [hdrop, ← List.take_append_drop 2 (hi :: lo :: rest)] at hc
        rcases List.mem_append.1 hc with hc | hc
        · exact .inl (hexDec_error (.inr ⟨c, hc, hnot⟩))
        · exact .inr (hexDec_error (.inr ⟨c, hc, hnot⟩))
    rw [exec_tokUnpack, pureOp_map_error herror]; rfl
  · obtain ⟨hi, lo, rest, hdrop, hrest⟩ := exists_token_parts hlen
    rw [hdrop] at hdec
    obtain ⟨hc, henc⟩ := hexDec_cons_cons_ok hdec
    have hunpack := tokUnpack_of_hexDec_ok hlen hhead (by rw [hdrop]; exact hc) (by rw [hrest]; exact henc)
    constructor
    · intro hsum
      rw [if_neg (not_not.2 hsum)] at hunpack
      rw [exec_tokUnpack, pureOp_map_ok hunpack]
    · intro hsum
      rw [if_pos hsum] at hunpack
      rw [exec_tokUnpack, pureOp_map_error hunpack]; rfl

/-- Settles O57: the token reads as the checksum and the ciphertext, which deciphers to the text. -/
theorem tokenRoundTrip : Obligations.TokenRoundTrip := by
  unfold Obligations.TokenRoundTrip
  refine fun a s => ⟨tokPack a, _, exec_tokPack a s, rfl, fun hlong => ?_, fun hshort => ?_⟩
  · have hlen : 20 ≤ (tokPack a).length := by rw [tokPack_length]; omega
    obtain ⟨hok, -⟩ := (tokUnpackErrorsInOrder.2 (tokPack a) (s.succeeds (.bytes (tokPack a)))).2.2 _ _ hlen rfl
      (hexDec_drop_tokPack a)
    rw [cryptFresh_cryptFresh] at hok
    exact hok rfl
  · exact (tokUnpackErrorsInOrder.2 (tokPack a) _).1 (.inl (by rw [tokPack_length]; omega))

/-! ### One character replaced (R258) -/

/-- Enciphering bytes that differ in one place gives texts that differ in that place alone: the keystream does not depend
on the data. -/
theorem crypt_cons_middle (c : CipherState) (pre post : Bytes) (w : Byte) :
    (crypt c (pre ++ w :: post)).1 = (crypt c pre).1 ++ (w ^^^ (keystreamStep (crypt c pre).2).1) ::
      (crypt (keystreamStep (crypt c pre).2).2 post).1 := by
  rw [crypt_append]; rfl

/-- One changed byte of the ciphertext changes the checksum of the text. -/
theorem sumU8_cryptFresh_change (key pre post : Bytes) {v w : Byte} (h : w ≠ v) :
    sumU8 (cryptFresh key (pre ++ w :: post)) ≠ sumU8 (cryptFresh key (pre ++ v :: post)) := by
  rw [cryptFresh, cryptFresh, crypt_cons_middle, crypt_cons_middle]
  exact sumU8_change_ne _ _ fun heq => h ((BitVec.xor_left_inj _).1 heq)

theorem hexPairs_cons_cons {hi lo : Byte} {h l : Nat} {rest b : Bytes} (hhi : hexValue hi = some h)
    (hlo : hexValue lo = some l) (hrest : hexPairs rest = .ok b) :
    hexPairs (hi :: lo :: rest) = .ok (BitVec.ofNat 8 (16 * h + l) :: b) := by
  simp only [hexPairs, hhi, hlo, hrest]; rfl

/-- Two nibbles of which one is not the byte's make another byte. -/
theorem ofNat_nibbles_ne {h l : Nat} (hh : h < 16) (hl : l < 16) {v : Byte} (hne : h ≠ v.toNat / 16 ∨ l ≠ v.toNat % 16) :
    BitVec.ofNat 8 (16 * h + l) ≠ v := by
  rintro rfl
  rw [BitVec.toNat_ofNat, Nat.mod_eq_of_lt (by omega)] at hne
  omega

/-- A hex digit replaced by one of another value changes exactly the byte it belongs to. -/
theorem hexPairs_set_hexEnc {b : Bytes} {q n : Nat} {c old : Byte} (hold : (hexEnc b)[q]? = some old)
    (hc : hexValue c = some n) (hne : hexValue c ≠ hexValue old) :
    ∃ pre post v w, b = pre ++ v :: post ∧ w ≠ v ∧ hexPairs ((hexEnc b).set q c) = .ok (pre ++ w :: post) := by
  induction b generalizing q with
  | nil => simp [hexEnc] at hold
  | cons v rest ih =>
    have hv := v.isLt
    have hn : n < 16 := (hexDigit_of_hexValue hc).1
    have hhigh := hexValue_hexDigit (v.toNat / 16) (by omega)
    have hlow := hexValue_hexDigit (v.toNat % 16) (by omega)
    match q with
    | 0 =>
      cases hold
      rw [hc, hhigh] at hne
      exact ⟨[], rest, v, _, rfl, ofNat_nibbles_ne hn (Nat.mod_lt _ (by decide)) (.inl fun h => hne (by rw [h])),
        hexPairs_cons_cons hc hlow (hexPairs_hexEnc rest)⟩
    | 1 =>
      cases hold
      rw [hc, hlow] at hne
      exact ⟨[], rest, v, _, rfl, ofNat_nibbles_ne (by omega) hn (.inr fun h => hne (by rw [h])),
        hexPairs_cons_cons hhigh hc (hexPairs_hexEnc rest)⟩
    | q + 2 =>
      obtain ⟨pre, post, u, w, rfl, hwu, hset⟩ := ih hold
      refine ⟨v :: pre, post, u, w, rfl, hwu, ?_⟩
      rw [hexEnc, List.set_cons_succ, List.set_cons_succ, hexPairs_cons_cons hhigh hlow hset, Nat.div_add_mod,
        BitVec.ofNat_toNat, BitVec.setWidth_eq, List.cons_append]

theorem tokPack_eq_parts (a : Bytes) : tokPack a =
    0x40 :: hexDigit ((sumU8 a).toNat / 16) :: hexDigit ((sumU8 a).toNat % 16) ::
      hexEnc (cryptFresh (tokenKey (sumU8 a)) a) := rfl

/-- A ciphertext digit of a packed token replaced by one of another value: the token reads as bytes whose text has another
checksum. -/
theorem hexDec_set_tokPack {a : Bytes} {q n : Nat} {c old : Byte} (hold : (tokPack a)[q + 3]? = some old)
    (hc : hexValue c = some n) (hne : hexValue c ≠ hexValue old) :
    ∃ enc, hexDec (((tokPack a).set (q + 3) c).drop 1) = .ok (sumU8 a :: enc) ∧
      sumU8 (cryptFresh (tokenKey (sumU8 a)) enc) ≠ sumU8 a := by
  have hs := (sumU8 a).isLt
  rw [tokPack_eq_parts] at hold
  obtain ⟨pre, post, v, w, henc, hwv, hset⟩ := hexPairs_set_hexEnc hold hc hne
  have hpairs := hexPairs_cons_cons (hexValue_hexDigit ((sumU8 a).toNat / 16) (by omega))
    (hexValue_hexDigit ((sumU8 a).toNat % 16) (by omega)) hset
  rw [Nat.div_add_mod, BitVec.ofNat_toNat, BitVec.setWidth_eq] at hpairs
  have heven : (((tokPack a).set (q + 3) c).drop 1).length % 2 = 0 := by
    rw [List.length_drop, List.length_set, tokPack_length]; omega
  refine ⟨pre ++ w :: post, (hexDec_of_even heven).trans hpairs, ?_⟩
  have hchange := sumU8_cryptFresh_change (tokenKey (sumU8 a)) pre post hwv
  rwa [← henc, cryptFresh_cryptFresh] at hchange

/-- Settles O58: another first character, a byte that is no digit, a digit of another value. -/
theorem damagedTokensAreCaught : Obligations.DamagedTokensAreCaught := by
  unfold Obligations.DamagedTokensAreCaught
  intro a t s s1 p c old ha hpack hresult hold
  rw [exec_tokPack] at hpack
  cases hpack
  cases hresult
  have hlen : 20 ≤ ((tokPack a).set p c).length := by rw [List.length_set, tokPack_length]; omega
  obtain ⟨hform, hhex, hsum⟩ := tokUnpackErrorsInOrder.2 ((tokPack a).set p c) (s.succeeds (.bytes (tokPack a)))
  refine ⟨?_, fun hp hnot => ?_, fun hp hhexc hne => ?_⟩
  · rintro rfl hne
    obtain rfl : 0x40 = old := Option.some.inj hold
    exact hform (.inr fun h => hne (Option.some.inj h))
  · obtain ⟨q, rfl⟩ := Nat.exists_eq_add_of_le' hp
    have hmem : c ∈ (hexEnc (tokenBytes a)).set q c :=
      List.mem_set (by have := (List.getElem?_eq_some_iff.1 hold).1; rw [tokPack_eq_cons] at this; simpa using this) c
    exact hhex hlen rfl (.inr ⟨c, hmem, hnot⟩)
  · obtain ⟨q, rfl⟩ := Nat.exists_eq_add_of_le' hp
    obtain ⟨n, hn⟩ := exists_hexValue hhexc
    obtain ⟨enc, hdec, hother⟩ := hexDec_set_tokPack hold hn hne
    exact (hsum _ enc hlen rfl hdec).2 hother

end Sys2Proof.Machine
end
